-- ==== Sys2Proof/Word.lean ====
section
/-!
DEFINITION. The word types of SPDIF_CORE (00_scope.md R7, R8): bytes, 32-bit registers and 24-bit sample patterns.
-/

namespace Sys2Proof

/-- One byte. -/
abbrev Byte := BitVec 8

/-- The width of every host register and of every port word (00_scope.md R7 `REG_W`, 30_encoding.md R95). -/
abbrev Word := BitVec 32

/-- A 24-bit two's-complement sample pattern, never compared or added (42_frame_assembler.md R152). -/
abbrev Sample := BitVec 24

end Sys2Proof
end

