-- ==== Sys2Proof/Syntax.lean ====
section
/-!
DEFINITION. The instruction set: one constructor per row of spec/opcode_table.json. PREPARE to BADCMD are CMD words
(30_encoding.md R97, R98), HALF_CONSUMED is the DMA_EVT word (R100), SUBMIT and TERMINATE are the DMA_REQ words (R103).
-/

namespace Sys2Proof

/-- A decoded 32-bit word of one of the three ports (30_encoding.md R95). -/
inductive Instr where
  /-- CMD 0x00000001 (43_buffer_controller.md R170 to R173). -/
  | prepare
  /-- CMD 0x00000002 (41_channel_status.md R143). -/
  | setCs
  /-- CMD 0x00000003 (43_buffer_controller.md R174). -/
  | start
  /-- CMD 0x00000004 (43_buffer_controller.md R176). -/
  | stop
  /-- Every other CMD word, by its fields RSV 31:4 and OP 3:0 (30_encoding.md R96, R98). -/
  | badcmd (rsv : BitVec 28) (op : BitVec 4)
  /-- DMA_EVT `0x1000_0000 | RESIDUE` (30_encoding.md R100). -/
  | halfConsumed (residue : BitVec 16)
  /-- DMA_REQ 0x10000C00 (30_encoding.md R103, 43_buffer_controller.md R169). -/
  | submit
  /-- DMA_REQ 0x20000000 (30_encoding.md R103, 43_buffer_controller.md R176). -/
  | terminate
  deriving DecidableEq, Repr

end Sys2Proof
end

