-- ==== Sys2Proof/WellFormed.lean ====
section
/-!
DEFINITION. Which terms of `Instr` stand for a word: a BADCMD is none of the four commands (30_encoding.md R98).
-/

namespace Sys2Proof

/-- R98: an illegal word has OP in 0x0, 0x5..0xF, or RSV ≠ 0 with any OP. -/
def illegalCommand (rsv : BitVec 28) (op : BitVec 4) : Bool :=
  rsv != 0#28 || op == 0#4 || decide (4 < op.toNat)

/-- The one check of the syntax: every other constructor's fields are exactly as wide as its encoding's. -/
def WellFormed : Instr → Bool
  | .badcmd rsv op => illegalCommand rsv op
  | .prepare => true
  | .setCs => true
  | .start => true
  | .stop => true
  | .halfConsumed _ => true
  | .submit => true
  | .terminate => true

end Sys2Proof
end

