-- ==== Sys2Proof/Decode.lean ====
section
/-!
DEFINITION. Decoding of the three word formats (30_encoding.md R95 to R103), total on any bytes, and the encoder.
The port a word stands on selects its format; no other state is needed (R95).
-/

namespace Sys2Proof

/-- The three formats of R95. -/
inductive Port where
  /-- CMD, host register offset 0x000. -/
  | cmd
  /-- DMA_EVT, from the transfer collaborator. -/
  | evt
  /-- DMA_REQ, to the transfer collaborator. -/
  | req
  deriving DecidableEq, Repr

/-- Why a decoder rejects. No CMD word is ever rejected (R98). -/
inductive DecodeError where
  /-- Not exactly four bytes: "each word is exactly 32 bits" (R95). -/
  | notOneWord
  /-- A DMA_EVT word with KIND ≠ 0x1 or RSV ≠ 0 (R101). -/
  | badEventWord
  /-- A DMA_REQ word other than the two of R103. -/
  | notARequestWord
  deriving DecidableEq, Repr

/-- Words lie little-endian in bytes (20_memory.md R75; log 21). -/
def wordOfBytes : List Byte → Option Word
  | [b0, b1, b2, b3] => some (b3 ++ b2 ++ b1 ++ b0)
  | _ => none

/-- The four bytes of a word, lowest address first. -/
def bytesOfWord (w : Word) : List Byte :=
  [w.extractLsb' 0 8, w.extractLsb' 8 8, w.extractLsb' 16 8, w.extractLsb' 24 8]

/-- The CMD opcode map, complete: a row matches all 32 bits (R97), every other word is illegal (R98). -/
def decodeCmdWord (w : Word) : Instr :=
  if w = 0x00000001#32 then .prepare
  else if w = 0x00000002#32 then .setCs
  else if w = 0x00000003#32 then .start
  else if w = 0x00000004#32 then .stop
  else .badcmd (w.extractLsb' 4 28) (w.extractLsb' 0 4)

/-- KIND 31:28 = 0x1, RSV 27:16 = 0, RESIDUE 15:0 (R96, R100); any other word is outside the handshake (R101). -/
def decodeEvtWord (w : Word) : Except DecodeError Instr :=
  if w.extractLsb' 28 4 = 0x1#4 ∧ w.extractLsb' 16 12 = 0#12 then .ok (.halfConsumed (w.extractLsb' 0 16))
  else .error .badEventWord

/-- The two words the block emits (R103). -/
def decodeReqWord (w : Word) : Except DecodeError Instr :=
  if w = 0x10000C00#32 then .ok .submit
  else if w = 0x20000000#32 then .ok .terminate
  else .error .notARequestWord

/-- The decoder of a port. -/
def decodeWord (p : Port) (w : Word) : Except DecodeError Instr :=
  match p with
  | .cmd => .ok (decodeCmdWord w)
  | .evt => decodeEvtWord w
  | .req => decodeReqWord w

/-- Decoding of any bytes on a port. -/
def decode (p : Port) (bytes : List Byte) : Except DecodeError Instr :=
  match wordOfBytes bytes with
  | some w => decodeWord p w
  | none => .error .notOneWord

/-- The port an instruction's word stands on (spec/opcode_table.json "format"). -/
def portOf : Instr → Port
  | .prepare => .cmd
  | .setCs => .cmd
  | .start => .cmd
  | .stop => .cmd
  | .badcmd _ _ => .cmd
  | .halfConsumed _ => .evt
  | .submit => .req
  | .terminate => .req

/-- The word of an instruction, from the same field tables (R96, R97, R100, R103). -/
def encodeWord : Instr → Word
  | .prepare => 0x00000001#32
  | .setCs => 0x00000002#32
  | .start => 0x00000003#32
  | .stop => 0x00000004#32
  | .badcmd rsv op => rsv ++ op
  | .halfConsumed residue => (0x1#4 ++ 0#12) ++ residue
  | .submit => 0x10000C00#32
  | .terminate => 0x20000000#32

/-- The bytes of an instruction's word. -/
def encode (i : Instr) : List Byte := bytesOfWord (encodeWord i)

/-- The port a bare table word is read on. The three formats overlap as numbers, so a word of the DMA_REQ rows is read
there, a word of the HALF_CONSUMED row on DMA_EVT, and every other word on CMD (log 8). -/
def tablePort (w : Word) : Port :=
  if w = 0x10000C00#32 ∨ w = 0x20000000#32 then .req
  else if w.extractLsb' 28 4 = 0x1#4 ∧ w.extractLsb' 16 12 = 0#12 then .evt
  else .cmd

/-- The word whose low `nbits` bits are `w`'s, the bits above them 0. -/
def tableWord (nbits w : Nat) : Word := BitVec.ofNat 32 (w % 2 ^ nbits)

/-- What the decoder reads from a table word, laid out as bytes; a word has exactly 32 bits (R95). -/
def decodeTableWord (nbits w : Nat) : Option Instr :=
  if nbits ≤ 32 then
    match decode (tablePort (tableWord nbits w)) (bytesOfWord (tableWord nbits w)) with
    | .ok i => some i
    | .error _ => none
  else none

end Sys2Proof
end

