-- ==== Sys2Proof/Config.lean ====
section
/-!
DEFINITION. The fixed parameters of the block (00_scope.md R7) and the one value the spec leaves open to "any value"
(93_implementation_defined.md row 12).
-/

namespace Sys2Proof.Config

/-- `CS_BITS`: bits of a channel-status block, one per stereo frame (R7). -/
@[simp] def csBits : Nat := 192

/-- `HALF_FRAMES`: frame slots of half a buffer (R7, 90_conflicts.md C1). -/
@[simp] def halfFrames : Nat := 96

/-- `BUF_FRAMES` (R7). -/
@[simp] def bufFrames : Nat := 192

/-- `SLOT_BYTES`: the left subframe's 8 bytes, then the right's (R7). -/
@[simp] def slotBytes : Nat := 16

/-- `ENC_SUBFRAME_BYTES` (R7). -/
@[simp] def subframeBytes : Nat := 8

/-- `HALF_BYTES` (R7). -/
@[simp] def halfBytes : Nat := 1536

/-- `BUF_BYTES` (R7). -/
@[simp] def bufBytes : Nat := 3072

/-- The size of the host register aperture in bytes (10_state.md R23). -/
@[simp] def apertureBytes : Nat := 0x2000

/-- The size of PCM source memory, `2 ^ ADDR_W` (R7, 20_memory.md R70). -/
@[simp] def pcmBytes : Nat := 4294967296

/-- `RATES`, in Hz (R7). -/
def rates : List Word := [44100#32, 48000#32, 88200#32, 96000#32, 176400#32, 192000#32]

/-- FREE VALUE: the byte PCM source memory holds at an address the host never wrote (20_memory.md R72; "any value" in
93_implementation_defined.md row 12; log 3). It has no body, so nothing can be proved about its value. -/
opaque pcmUnwritten : Nat → Byte

end Sys2Proof.Config
end

