-- ==== Sys2Proof/Machine/Program.lean ====
section
/-!
DEFINITION. The host program (30_encoding.md R107): which agent moves next, as plain data, and the names of the register
map (10_state.md R23).
-/

namespace Sys2Proof.Machine

/-- One byte the HOST writes to PCM source memory (20_memory.md R72). -/
structure PcmWrite where
  addr : BitVec 32
  byte : Byte
  deriving DecidableEq, Repr

/-- Host PCM writes that land inside one SEQ step: entry `i` lands just before the step's byte read `i`, what is left
over lands after its last read (20_memory.md R82: a MemRead is atomic only per byte; log 13). -/
abbrev During := List (List PcmWrite)

/-- A step of another agent that falls between two reads of the host loop `wait` (20_memory.md R83; log 24). -/
inductive Turn where
  | seq (during : During)
  | emit
  | ack (v : Bool)
  deriving DecidableEq, Repr

/-- One statement: one agent's step (30_encoding.md R107, R108). The last three are the model's own (logs 9 and 15). -/
inductive Stmt where
  /-- HOST `wr REG, imm`: a write access of `width` bits at byte offset `off`; the assembler writes `width` 32. -/
  | wr (width off : Nat) (imm : Word)
  /-- HOST `rd REG`: a read access, its value observed. -/
  | rd (width off : Nat)
  /-- HOST `pcm addr, b0, b1, ...`. -/
  | pcm (addr : BitVec 32) (bytes : List Byte)
  /-- SEQ takes its one enabled step; `during` is empty for R107's `seq`. -/
  | seq (during : During)
  /-- XFER emits one slot. -/
  | emit
  /-- ENV: the next SUBMIT is answered with ACK = `v`. -/
  | ack (v : Bool)
  /-- HOST `cmd X` as the first half of `cmd! X`: the CMD write, legal only when no refill is active (R108; log 29). -/
  | cmdNow (w : Word)
  /-- HOST: repeat `rd STATUS` until bit 0 reads 0 (R108). Entry `i` of `turns` is what other agents do after read `i`;
  past its end SEQ takes one step between two reads (log 24). `turns` is empty for R108's `wait`. -/
  | wait (turns : List (List Turn))
  /-- XFER delivers a raw word on DMA_EVT (R95, R101; 95_test_vectors.md X1, X2). -/
  | evt (w : Word)
  /-- A raw word on DMA_REQ. -/
  | req (w : Word)
  /-- The hardware reset (70_reset_and_hazards.md R235). -/
  | rst
  deriving DecidableEq, Repr

/-- The statement of a turn. -/
def Turn.stmt : Turn → Stmt
  | .seq d => .seq d
  | .emit => .emit
  | .ack v => .ack v

/-- The registers of the map (10_state.md R23); the OUTBUF window is 768 words. -/
inductive Reg where
  | cmd | status
  | cfgFormat | cfgRate | cfgRingBase | cfgRingFrames | cfgPeriodFrames | cfgVmask
  | csStage (k : Fin 6)
  | pos | periodAcc | silCount | silCapture | csCursor | notifyCount
  | actFormat | actRate | actRingBase | actRingFrames | actPeriodFrames | actVmask
  | actCs (k : Fin 6)
  | outbuf (k : Fin 768)
  deriving DecidableEq, Repr

end Sys2Proof.Machine
end

