-- ==== Sys2Proof/Machine/State.lean ====
section
/-!
DEFINITION. The state of one SPDIF_CORE instance (10_state.md R20), its inputs and observations, the ways a step can
stop, and the state after reset (10_state.md R52).
-/

namespace Sys2Proof.Machine

/-- Byte memory: (address, byte) pairs, addresses strictly rising. Used for OUTBUF and for PCM source memory. -/
abbrev Memory := List Host.Cell

/-- What an unlisted address holds: no value. For OUTBUF it is the spec's *unwritten* (20_memory.md R78), for PCM memory
a byte the host never wrote (R72); the two reads that meet it say what then happens (logs 3 and 4). -/
def Memory.unlisted : Option Byte := none

/-- The sample formats (10_state.md R26). -/
inductive Format where
  | s16le | s24le | s24le3 | s32le
  deriving DecidableEq, Repr

/-- The result codes (60_exceptions.md R211); codes 4 to 15 are never written (93_implementation_defined.md row 15). -/
inductive ResultCode where
  | ok | errConfig | errResource | errBadcmd
  deriving DecidableEq, Repr

/-- The model faults, exactly the table of 60_exceptions.md R213; every one is SAFE (it errs toward unprovable). -/
inductive Fault where
  /-- SAFE. A host access that is not an aligned 32-bit word of the aperture (20_memory.md R80). -/
  | badRegisterAccess
  /-- SAFE. A window read or an emission of an OUTBUF byte never written (20_memory.md R78). -/
  | unwrittenRead
  /-- SAFE. Delivery of a DMA_EVT word other than HALF_CONSUMED (30_encoding.md R101). -/
  | badEventWord
  /-- SAFE. HALF_CONSUMED while an event is latched (43_buffer_controller.md R187). -/
  | eventOverrun
  /-- SAFE. An emission from the half an active refill is writing (43_buffer_controller.md R189). -/
  | underrunRace
  /-- SAFE. A `seq` statement when SEQ has no enabled step (30_encoding.md R107). -/
  | noStep
  deriving DecidableEq, Repr

/-- Inputs the model has no meaning for (00_scope.md R12); every one is SAFE. -/
inductive Refusal where
  /-- SAFE. Raised by a rejected arm of `exec`: the instruction has no meaning yet. -/
  | notModelled (mnemonic : String)
  /-- SAFE. Raised by loading a program text the transcriber refuses, with the line (30_encoding.md R107). -/
  | illFormedProgram (line : Nat)
  /-- SAFE. Raised by an `emit` statement with XFER_ACTIVE = 0 over a written slot (43_buffer_controller.md R188, R190;
  log 11). -/
  | emissionNotEnabled
  /-- SAFE. Raised by a `req` statement whose word is none of 30_encoding.md R103 (log 9). -/
  | notARequestWord
  /-- SAFE. Raised by a `pcm` statement that would write past address 2^32 - 1 (20_memory.md R70; log 14). -/
  | pcmBeyondMemory
  /-- SAFE. Raised by `cmd! X` while a refill is active (30_encoding.md R108: "legal only when no refill is active";
  log 29). -/
  | commandNowInRefill
  deriving DecidableEq, Repr

/-- The whole state (10_state.md R20; INVENTORY.md lists the rule of every field). -/
structure State where
  /-- CFG_FORMAT.FMT (R26). -/
  cfgFormat : BitVec 4
  /-- CFG_RATE (R27). -/
  cfgRate : Word
  /-- CFG_RING_BASE (R28). -/
  cfgRingBase : Word
  /-- CFG_RING_FRAMES (R29). -/
  cfgRingFrames : Word
  /-- CFG_PERIOD_FRAMES (R30). -/
  cfgPeriodFrames : Word
  /-- CFG_VMASK bits 23:0 (R31). -/
  cfgVmask : BitVec 24
  /-- CS_STAGE[0..23] (R32). -/
  csStage : Vector Byte 24
  /-- CONFIGURED (R49). -/
  configured : Bool
  /-- ACT_FORMAT (R39): PREPARE admits only the four formats. -/
  actFormat : Format
  /-- ACT_RATE (R39). -/
  actRate : Word
  /-- ACT_RING_BASE (R39). -/
  actRingBase : Word
  /-- ACT_RING_FRAMES (R39). -/
  actRingFrames : Word
  /-- ACT_PERIOD_FRAMES (R39). -/
  actPeriodFrames : Word
  /-- ACT_VMASK bits 23:0 (R39). -/
  actVmask : BitVec 24
  /-- ACT_CS[0..23] (R40). -/
  actCs : Vector Byte 24
  /-- CS_CURSOR bits 7:0, 0..191 (R37). -/
  csCursor : BitVec 8
  /-- POS (R33). -/
  pos : Word
  /-- PERIOD_ACC (R34). -/
  periodAcc : Word
  /-- SIL (R35). -/
  sil : Word
  /-- SIL_CAPTURE (R36). -/
  silCapture : Word
  /-- NOTIFY_COUNT (R38). -/
  notifyCount : Word
  /-- CMD_PENDING (R43). -/
  cmdPending : Bool
  /-- CMD_LATCH (R43). -/
  cmdLatch : Word
  /-- STATUS.LAST_RESULT (R24). -/
  lastResult : ResultCode
  /-- XFER_ACTIVE (R24). -/
  xferActive : Bool
  /-- EVT_PENDING (R44). -/
  evtPending : Bool
  /-- EVT_RESIDUE (R44). -/
  evtResidue : BitVec 16
  /-- REFILL_ACTIVE (R45). -/
  refillActive : Bool
  /-- REFILL_HALF (R45). -/
  refillHalf : BitVec 1
  /-- REFILL_LIVE (R45). -/
  refillLive : Bool
  /-- REFILL_SLOT, 0..96 (R45). -/
  refillSlot : Nat
  /-- REFILL_SIL (R45). -/
  refillSil : Word
  /-- OUTBUF[0..3071]; an unlisted byte is *unwritten* (R41, 20_memory.md R78). -/
  outbuf : Memory
  /-- DRAIN, 0..191, the collaborator's (R46). -/
  drain : Nat
  /-- LINE (R47): the frames emitted, in order. -/
  line : List (List Byte)
  /-- NOTIFY_LOG (R47): POS at each notification, in order. -/
  notifyLog : List Word
  /-- INPUT. PCM source memory as the host has written it (20_memory.md R72). -/
  pcm : Memory
  /-- INPUT. The statements not yet taken (30_encoding.md R107). -/
  program : List Stmt
  /-- INPUT. ENV's answer to the next SUBMIT (30_encoding.md R102, R107). -/
  ackNext : Bool
  /-- OBSERVATION. Host reads in order: offset and value (30_encoding.md R107 `rd`). -/
  reads : List (Nat × Word)
  /-- OBSERVATION. DMA_REQ words emitted in order (30_encoding.md R103). -/
  reqs : List Word
  deriving DecidableEq, Repr

/-- 24 bytes 0x00 (10_state.md R52). -/
def zeroMessage : Vector Byte 24 :=
  ⟨#[0, 0, 0, 0, 0, 0, 0, 0, 0, 0, 0, 0, 0, 0, 0, 0, 0, 0, 0, 0, 0, 0, 0, 0], rfl⟩

/-- The machine after reset: the table of 10_state.md R52 (70_reset_and_hazards.md R235), with no program loaded, no PCM
byte written by the host and the default answer of 30_encoding.md R107 to the next SUBMIT (log 22). -/
def State.reset : State where
  cfgFormat := 0
  cfgRate := 0
  cfgRingBase := 0
  cfgRingFrames := 0
  cfgPeriodFrames := 0
  cfgVmask := 0xFFFFFF
  csStage := zeroMessage
  configured := false
  actFormat := .s16le
  actRate := 0
  actRingBase := 0
  actRingFrames := 0
  actPeriodFrames := 0
  actVmask := 0xFFFFFF
  actCs := zeroMessage
  csCursor := 0
  pos := 0
  periodAcc := 0
  sil := 1
  silCapture := 0
  notifyCount := 0
  cmdPending := false
  cmdLatch := 0
  lastResult := .ok
  xferActive := false
  evtPending := false
  evtResidue := 0
  refillActive := false
  refillHalf := 0
  refillLive := false
  refillSlot := 0
  refillSil := 0
  outbuf := []
  drain := 0
  line := []
  notifyLog := []
  pcm := []
  program := []
  ackNext := true
  reads := []
  reqs := []

end Sys2Proof.Machine
end

