-- ==== Sys2Proof/Machine/Ops.lean ====
section
/-!
DEFINITION. The named operations over memory and state, one per primitive of 00_scope.md R9. There is no operation that
takes an exception: the block has no trap entry and no return from one (60_exceptions.md R219, R220); a fault ends the run.
-/

namespace Sys2Proof.Machine

/-- The outcome of a step (00_scope.md R12). -/
abbrev Result := Host.Outcome State Fault Refusal

/-- Go on with `f` from a next state; a fault or a refusal stays. -/
def Result.andThen (r : Result) (f : State → Result) : Result :=
  match r with
  | .next s => f s
  | .fault e => .fault e
  | .refused e => .refused e

/-! ## Byte memory -/

/-- The byte at an address. -/
def Memory.get : Memory → Nat → Option Byte
  | [], _ => Memory.unlisted
  | (k, b) :: rest, a => if k = a then some b else Memory.get rest a

/-- The cells of consecutive bytes from an address. -/
def cellsFrom : Nat → List Byte → Memory
  | _, [] => []
  | a, b :: bs => (a, b) :: cellsFrom (a + 1) bs

/-- Put `cells`, which cover the addresses from `a` up to `e`, in the place of whatever a memory lists there. -/
def splice (cells : Memory) (a e : Nat) : Memory → Memory
  | [] => cells
  | (k, b) :: rest =>
    if k < a then (k, b) :: splice cells a e rest
    else if k < e then splice cells a e rest
    else cells ++ ((k, b) :: rest)

/-- Write consecutive bytes; every other address keeps its byte. -/
def Memory.write (m : Memory) (a : Nat) (bs : List Byte) : Memory := splice (cellsFrom a bs) a (a + bs.length) m

/-- Read `n` consecutive bytes; none when one of them holds no value. -/
def Memory.read (m : Memory) : Nat → Nat → Option (List Byte)
  | _, 0 => some []
  | a, n + 1 =>
    match m.get a, Memory.read m (a + 1) n with
    | some b, some bs => some (b :: bs)
    | _, _ => none

/-- The canonical form: addresses strictly rising (an unlisted address holds no value, so no entry can equal it). -/
abbrev Memory.wf (m : Memory) : Prop := List.Pairwise (fun x y => x.1 < y.1) m

/-! ## PCM source memory -/

/-- The byte a PCM read sees: what the host wrote, else the free value (20_memory.md R72; log 3). -/
def pcmByte (m : Memory) (a : Nat) : Byte := (m.get a).getD (Config.pcmUnwritten a)

/-- Host byte writes, in order. -/
def landWrites (m : Memory) (ws : List PcmWrite) : Memory :=
  ws.foldl (fun m w => m.write w.addr.toNat [w.byte]) m

/-- All of the host writes of one SEQ step. -/
def landAll (m : Memory) (d : During) : Memory := d.foldl landWrites m

/-- What a run of byte reads gives: the bytes, the host writes still to land, and the memory then. -/
structure PcmRead where
  bytes : List Byte
  during : During
  mem : Memory
  deriving DecidableEq, Repr

/-- Read `n` bytes from `a` upward, the host writes landing between them (20_memory.md R74, R82; log 13). -/
def readPcm : Nat → Nat → During → Memory → PcmRead
  | _, 0, d, m => ⟨[], d, m⟩
  | a, n + 1, d, m =>
    let m' := landWrites m (d.headD [])
    let r := readPcm (a + 1) n d.tail m'
    ⟨pcmByte m' a :: r.bytes, r.during, r.mem⟩

/-- The little-endian number of bytes: the sum of `byte[i] << (8i)` (20_memory.md R74). -/
def littleEndian : List Byte → Nat
  | [] => 0
  | b :: bs => b.toNat + 256 * littleEndian bs

/-! ## Primitives over the state -/

/-- `LAST_RESULT <- r` (60_exceptions.md R211). -/
def State.setResult (s : State) (r : ResultCode) : State := { s with lastResult := r }

/-- `emit REQ(w)` (30_encoding.md R103). -/
def State.emitReq (s : State) (w : Word) : State := { s with reqs := s.reqs ++ [w] }

/-- After `draw()` took ENV's answer the next one is the default again (30_encoding.md R107 `ack v`; log 5). -/
def State.takeAck (s : State) : State := { s with ackNext := true }

/-- `XCHG(SIL, v)`: the state after; the old value is `s.sil` (20_memory.md R85). -/
def State.xchgSil (s : State) (v : Word) : State := { s with sil := v }

/-- `CAS(SIL, old, new)` (20_memory.md R85). -/
def State.casSil (s : State) (old new : Word) : State := { s with sil := if s.sil = old then new else s.sil }

/-- `notify PERIOD` (60_exceptions.md R216): the count modulo 2^32 and the log, tagged with POS. -/
def State.notifyPeriod (s : State) : State :=
  { s with notifyCount := s.notifyCount + 1#32, notifyLog := s.notifyLog ++ [s.pos] }

/-- `BufWrite(off, bytes)` (20_memory.md R77). -/
def State.bufWrite (s : State) (off : Nat) (bytes : List Byte) : State :=
  { s with outbuf := s.outbuf.write off bytes }

/-- Latch a half-consumed event (43_buffer_controller.md R187). -/
def State.latchEvent (s : State) (r : BitVec 16) : State := { s with evtPending := true, evtResidue := r }

/-- The acknowledged half of SUBMIT (43_buffer_controller.md R169). -/
def State.openTransfer (s : State) : State := { s with xferActive := true, drain := 0, evtPending := false }

/-- `XFER_ACTIVE <- 0` (43_buffer_controller.md R176). -/
def State.closeTransfer (s : State) : State := { s with xferActive := false }

/-- `REFILL_ACTIVE <- 0` (43_buffer_controller.md R186). -/
def State.closeRefill (s : State) : State := { s with refillActive := false }

/-- `REFILL_SLOT <- j` (43_buffer_controller.md R182, R183). -/
def State.setSlot (s : State) (j : Nat) : State := { s with refillSlot := j }

/-- `CMD_PENDING <- 0` (43_buffer_controller.md R167). -/
def State.clearCommand (s : State) : State := { s with cmdPending := false }

/-- A latched event is discarded (43_buffer_controller.md R176). -/
def State.dropEvent (s : State) : State := { s with evtPending := false }

/-- The host's PCM writes of a SEQ step that reads no PCM memory. -/
def State.landPcm (s : State) (d : During) : State := { s with pcm := landAll s.pcm d }

/-- Hardware reset (70_reset_and_hazards.md R235): every field at its reset value and the logs empty; the inputs (the
rest of the program, PCM memory, ENV's next answer) are not the block's and stay (log 15). -/
def State.hardwareReset (s : State) : State :=
  { State.reset with pcm := s.pcm, program := s.program, ackNext := s.ackNext }

end Sys2Proof.Machine
end

