-- ==== Sys2Proof/Machine/Flags.lean ====
section
/-!
DEFINITION. Flags and derived state: STATUS (10_state.md R24), the stream state (R48), the half selection
(43_buffer_controller.md R179) and the silence count (R185).
-/

namespace Sys2Proof.Machine

/-- The code of a result (60_exceptions.md R211). -/
def ResultCode.code : ResultCode → BitVec 4
  | .ok => 0
  | .errConfig => 1
  | .errResource => 2
  | .errBadcmd => 3

/-- STATUS.STREAMING: 1 if and only if SIL = 0 (10_state.md R48). -/
def State.streaming (s : State) : Bool := s.sil == 0#32

/-- STATUS as read (10_state.md R24): bits 31:14 and 7:6 read as 0. -/
def State.statusWord (s : State) : Word :=
  0#18 ++ BitVec.ofBool s.refillLive ++ s.refillHalf ++ s.lastResult.code ++ 0#2 ++ BitVec.ofBool s.streaming ++
    BitVec.ofBool s.configured ++ BitVec.ofBool s.xferActive ++ BitVec.ofBool s.evtPending ++
    BitVec.ofBool s.refillActive ++ BitVec.ofBool s.cmdPending

/-- `half(r) = 0 if r ≤ 1536, else 1`, for every r in 0..65535 (43_buffer_controller.md R179). -/
def halfOf (residue : BitVec 16) : BitVec 1 := if residue.toNat ≤ Config.halfBytes then 0 else 1

/-- `silinc(s) = s + 1 if s < 2^32 - 1, else 2` (43_buffer_controller.md R185). -/
def silInc (v : Word) : Word := if v.toNat < 4294967295 then v + 1#32 else 2#32

end Sys2Proof.Machine
end

