-- ==== Sys2Proof/Machine/Operands.lean ====
section
/-!
DEFINITION. Operand forms: the sample formats, frame addresses and the four decoders (20_memory.md R73 to R76,
42_frame_assembler.md R151 to R156), and the packing of the channel-status message in registers (10_state.md R32).
-/

namespace Sys2Proof.Machine

/-- FMT 0 to 3; 4 to 15 name no format (10_state.md R26). -/
def Format.ofCode (c : BitVec 4) : Option Format :=
  if c = 0#4 then some .s16le
  else if c = 1#4 then some .s24le
  else if c = 2#4 then some .s24le3
  else if c = 3#4 then some .s32le
  else none

/-- The code of a format (10_state.md R26). -/
def Format.code : Format → BitVec 4
  | .s16le => 0
  | .s24le => 1
  | .s24le3 => 2
  | .s32le => 3

/-- SB(F), bytes of a sample (20_memory.md R73). -/
def Format.sampleBytes : Format → Nat
  | .s16le => 2
  | .s24le => 4
  | .s24le3 => 3
  | .s32le => 4

/-- FB(F), bytes of a frame (20_memory.md R73). -/
def Format.frameBytes : Format → Nat
  | .s16le => 4
  | .s24le => 8
  | .s24le3 => 6
  | .s32le => 8

/-- `frame_addr(f) = ACT_RING_BASE + f × FB(ACT_FORMAT)` (20_memory.md R73). -/
def frameAddr (s : State) (f : Nat) : Nat := s.actRingBase.toNat + f * s.actFormat.frameBytes

/-- DEC_S16_LE: `s = (v << 8) & 0xFFFFFF` (42_frame_assembler.md R153). -/
def decS16 (v : Nat) : Sample := BitVec.ofNat 16 v ++ 0#8

/-- DEC_S24_LE: `s = w[31:8]` (R154; log 20). -/
def decS24 (w : Nat) : Sample := (BitVec.ofNat 32 w).extractLsb' 8 24

/-- DEC_S24_3LE: `s = MemRead(a, 3)` (R155). -/
def decS24Packed (v : Nat) : Sample := BitVec.ofNat 24 v

/-- DEC_S32_LE: `s = w[31:8]` (R156). -/
def decS32 (w : Nat) : Sample := (BitVec.ofNat 32 w).extractLsb' 8 24

/-- DEC(F) on the bytes of one sample (R151). -/
def decodeSample (f : Format) (bytes : List Byte) : Sample :=
  match f with
  | .s16le => decS16 (littleEndian bytes)
  | .s24le => decS24 (littleEndian bytes)
  | .s24le3 => decS24Packed (littleEndian bytes)
  | .s32le => decS32 (littleEndian bytes)

/-- One stereo frame decoded, and PCM memory after the host writes of the step. -/
structure StereoRead where
  left : Sample
  right : Sample
  mem : Memory
  deriving DecidableEq, Repr

/-- The two samples at `a` and `a + SB(F)`, left before right (R158, 20_memory.md R83), host writes landing between byte
reads (20_memory.md R82). -/
def readStereo (f : Format) (a : Nat) (d : During) (m : Memory) : StereoRead :=
  let l := readPcm a f.sampleBytes d m
  let r := readPcm (a + f.sampleBytes) f.sampleBytes l.during l.mem
  ⟨decodeSample f l.bytes, decodeSample f r.bytes, landAll r.mem r.during⟩

/-- Register CS_STAGEk or ACT_CSk: message byte 4k+j at bits [8j+7:8j] (10_state.md R32, 20_memory.md R75). -/
def messageWord (v : Vector Byte 24) (k : Fin 6) : Word :=
  v[4 * k.val + 3] ++ v[4 * k.val + 2] ++ v[4 * k.val + 1] ++ v[4 * k.val]

/-- The message after a write of CS_STAGEk. -/
def setMessageWord (v : Vector Byte 24) (k : Fin 6) (w : Word) : Vector Byte 24 :=
  (((v.set (4 * k.val) (w.extractLsb' 0 8)).set (4 * k.val + 1) (w.extractLsb' 8 8)).set
    (4 * k.val + 2) (w.extractLsb' 16 8)).set (4 * k.val + 3) (w.extractLsb' 24 8)

end Sys2Proof.Machine
end

