-- ==== Sys2Proof/Machine/ChannelStatus.lean ====
section
/-!
DEFINITION. The channel-status cycle (41_channel_status.md): CSBIT, CS_NEXT_BIT and the command SET_CS.
-/

namespace Sys2Proof.Machine

/-- `CSBIT(m, k) = (m[k >> 3] >> (k & 7)) & 1` (R142; the bit order is general-knowledge item G4, log 19). No byte stands
at k ≥ 192, which the cursor never reaches (R147 e; log 16). -/
def csBit (msg : Vector Byte 24) (k : Nat) : Bool := (msg[k / 8]?.getD 0#8).getLsbD (k % 8)

/-- `(k + 1) mod 192` (R141). -/
def nextCursor (k : BitVec 8) : BitVec 8 := BitVec.ofNat 8 ((k.toNat + 1) % Config.csBits)

/-- What CS_NEXT_BIT returns: the channel-status bit and whether the frame starts a block (R141). -/
structure CsBit where
  c : Bool
  blk : Bool
  deriving DecidableEq, Repr

/-- The value CS_NEXT_BIT returns, from the cursor before the advance (R141). -/
def State.csNow (s : State) : CsBit := ⟨csBit s.actCs s.csCursor.toNat, s.csCursor == 0#8⟩

/-- The state CS_NEXT_BIT leaves: the cursor advanced (R141). -/
def State.advanceCursor (s : State) : State := { s with csCursor := nextCursor s.csCursor }

/-- CS_NEXT_BIT() (R141). -/
def csNextBit (s : State) : CsBit × State := (s.csNow, s.advanceCursor)

/-- SET_CS (R143). -/
def execSetCs (s : State) : Result :=
  .next { s with actCs := s.csStage, csCursor := 0, lastResult := .ok }

end Sys2Proof.Machine
end

