-- ==== Sys2Proof/Machine/Encoder.lean ====
section
/-!
DEFINITION. ENCODE_SUBFRAME, a pure function (40_subframe_encoder.md R125 to R136; layout 30_encoding.md R104 to R106).
The payload bit order, V = 0 and the preamble patterns are the spec's general-knowledge items G1 to G3 (log 19).
-/

namespace Sys2Proof.Machine

/-- The three preambles (30_encoding.md R105). -/
inductive Preamble where
  | b | m | w
  deriving DecidableEq, Repr

/-- Cells 0..7 of a preamble, cell 0 first (30_encoding.md R105). -/
def Preamble.cells : Preamble → List Bool
  | .b => [true, true, true, false, true, false, false, false]
  | .m => [true, true, true, false, false, false, true, false]
  | .w => [true, true, true, false, false, true, false, false]

/-- The XOR of the bits `lo .. lo + n - 1` of a word (00_scope.md R9 `parity`). -/
def parityOf (v : Word) (lo : Nat) : Nat → Bool
  | 0 => false
  | n + 1 => v.getLsbD (lo + n) ^^ parityOf v lo n

/-- `payload = p & vm & 0xFFFFFF` (R126). -/
def maskSample (p : Sample) (vm : BitVec 24) : BitVec 24 := p &&& vm

/-- Slots 0..30 of the logical word, slot 31 still 0: PRE, PAYLOAD, V, U, C (R127). -/
def subframeBody (payload : BitVec 24) (c : Bool) : Word :=
  0#1 ++ BitVec.ofBool c ++ 0#1 ++ 0#1 ++ payload ++ 0#4

/-- The logical word `sf` (R127) with `sf[31] = parity(sf[30:4])` (R128). -/
def subframeWord (payload : BitVec 24) (c : Bool) : Word :=
  BitVec.ofBool (parityOf (subframeBody payload c) 4 27) ++ (subframeBody payload c).extractLsb' 0 31

/-- Slots `lo .. lo + n - 1` of a logical word, in order of transmission. -/
def slotsFrom (sf : Word) (lo : Nat) : Nat → List Bool
  | 0 => []
  | n + 1 => sf.getLsbD lo :: slotsFrom sf (lo + 1) n

/-- Biphase-mark cells of slots, after a cell at `level` (R129): `cell[2i] = 1 - cell[2i-1]`, then
`cell[2i+1] = cell[2i] ^ sf[i]`. -/
def biphase (level : Bool) : List Bool → List Bool
  | [] => []
  | d :: ds => (!level) :: ((!level) ^^ d) :: biphase ((!level) ^^ d) ds

/-- The 64 cells: the preamble, then slots 4..31; cell 7 of every preamble is 0 (R129, R131). -/
def subframeCells (pre : Preamble) (sf : Word) : List Bool := pre.cells ++ biphase false (slotsFrom sf 4 28)

/-- Eight cells as a byte, the first in bit 7 (R130). -/
def byteOfCells (c0 c1 c2 c3 c4 c5 c6 c7 : Bool) : Byte :=
  BitVec.ofBool c0 ++ BitVec.ofBool c1 ++ BitVec.ofBool c2 ++ BitVec.ofBool c3 ++
    BitVec.ofBool c4 ++ BitVec.ofBool c5 ++ BitVec.ofBool c6 ++ BitVec.ofBool c7

/-- Cells packed into bytes in transmission order (R130). -/
def packCells : List Bool → List Byte
  | c0 :: c1 :: c2 :: c3 :: c4 :: c5 :: c6 :: c7 :: rest => byteOfCells c0 c1 c2 c3 c4 c5 c6 c7 :: packCells rest
  | _ => []

/-- ENCODE_SUBFRAME(p, vm, pre, c) (R125). -/
def encodeSubframe (p : Sample) (vm : BitVec 24) (pre : Preamble) (c : Bool) : List Byte :=
  packCells (subframeCells pre (subframeWord (maskSample p vm) c))

/-! ## The decoding check (R136) -/

/-- The cells of a byte, bit 7 first. -/
def cellsOfByte (b : Byte) : List Bool :=
  [b.getLsbD 7, b.getLsbD 6, b.getLsbD 5, b.getLsbD 4, b.getLsbD 3, b.getLsbD 2, b.getLsbD 1, b.getLsbD 0]

/-- The cells of encoded bytes, in order of transmission. -/
def cellsOfBytes (bytes : List Byte) : List Bool := bytes.flatMap cellsOfByte

/-- `sf[i] = cell[2i] ^ cell[2i+1]`, slot after slot (R136). -/
def slotsOfCells : List Bool → List Bool
  | a :: b :: rest => (a ^^ b) :: slotsOfCells rest
  | _ => []

/-- A number from its bits, the least significant first. -/
def natOfBits : List Bool → Nat
  | [] => 0
  | b :: bs => b.toNat + 2 * natOfBits bs

/-- The preamble of byte 0 (R136). -/
def preambleOfByte (b : Byte) : Option Preamble :=
  if b = 0xE8#8 then some .b else if b = 0xE2#8 then some .m else if b = 0xE4#8 then some .w else none

/-- The logical word recovered from the cells after the preamble (R136); slots 3:0 carry no data. -/
def recoverWord (bytes : List Byte) : Word :=
  BitVec.ofNat 32 (16 * natOfBits (slotsOfCells (cellsOfBytes bytes.tail)))

/-- Everything R136 recovers from the 8 bytes of a subframe. -/
structure Recovered where
  pre : Preamble
  payload : BitVec 24
  v : Bool
  u : Bool
  c : Bool
  p : Bool
  deriving DecidableEq, Repr

/-- Decode an encoded subframe (R136). -/
def recoverSubframe (bytes : List Byte) : Option Recovered :=
  match bytes.head?.bind preambleOfByte with
  | some pre =>
    let sf := recoverWord bytes
    some ⟨pre, sf.extractLsb' 4 24, sf.getLsbD 28, sf.getLsbD 29, sf.getLsbD 30, sf.getLsbD 31⟩
  | none => none

end Sys2Proof.Machine
end

