-- ==== Sys2Proof/Machine/Frame.lean ====
section
/-!
DEFINITION. The Frame Assembler (42_frame_assembler.md R150 to R163).
-/

namespace Sys2Proof.Machine

/-- The source of a frame: `PCM(f)`, ring frame f, or `SILENCE` (R157, R158). -/
inductive FrameSource where
  | pcm (f : Nat)
  | silence
  deriving DecidableEq, Repr

/-- The left subframe's preamble: B on the frame whose cursor read is 0, else M (R158, 10_state.md R50). -/
def leftPreamble (blk : Bool) : Preamble := if blk then .b else .m

/-- The 16 bytes of a slot: left subframe, then right, the same channel-status bit in both (R158, R159,
41_channel_status.md R145). -/
def frameBytesOf (l r : Sample) (vm : BitVec 24) (b : CsBit) : List Byte :=
  encodeSubframe l vm (leftPreamble b.blk) b.c ++ encodeSubframe r vm .w b.c

/-- ASSEMBLE_FRAME from CS_NEXT_BIT on: one bit drawn, the slot's 16 bytes written (R158). -/
def writeFrame (l r : Sample) (k : Nat) (s : State) : State :=
  s.advanceCursor.bufWrite (Config.slotBytes * k) (frameBytesOf l r s.actVmask s.csNow)

/-- ASSEMBLE_FRAME(src, k) (R158). The host writes of the step land among a live frame's byte reads (20_memory.md R82). -/
def assembleFrame (src : FrameSource) (k : Nat) (d : During) (s : State) : State :=
  match src with
  | .silence => writeFrame 0 0 k (s.landPcm d)
  | .pcm f =>
    let r := readStereo s.actFormat (frameAddr s f) d s.pcm
    writeFrame r.left r.right k { s with pcm := r.mem }

end Sys2Proof.Machine
end

