-- ==== Sys2Proof/Machine/Transfer.lean ====
section
/-!
DEFINITION. The DMA handshake words: SUBMIT with its prefill, TERMINATE and HALF_CONSUMED
(43_buffer_controller.md R169, R172, R176, R187).
-/

namespace Sys2Proof.Machine

/-- `ASSEMBLE_FRAME(SILENCE, k)` for `k = first .. first + n - 1`, in slot order. -/
def silenceSlots : Nat → Nat → State → State
  | _, 0, s => s
  | first, n + 1, s => silenceSlots (first + 1) n (assembleFrame .silence first [] s)

/-- PREFILL (R172): all 192 slots. Irreducible, so that no unifier runs it; prefill_spec of Laws/Frame.lean says what it does. -/
@[irreducible] def prefill (s : State) : State := silenceSlots 0 Config.bufFrames s

/-- SUBMIT up to the draw: the prefilled buffer, the request on the port, the answer taken (R169). -/
def State.requested (s : State) : State := ((prefill s).emitReq 0x10000C00#32).takeAck

/-- The state SUBMIT() leaves (R169): ACK = 1 starts the transfer, ACK = 0 leaves XFER_ACTIVE as it was. -/
def State.submitted (s : State) : State := if s.ackNext then s.requested.openTransfer else s.requested

/-- The code SUBMIT() returns (R169). -/
def State.submitCode (s : State) : ResultCode := if s.ackNext then .ok else .errResource

/-- `LAST_RESULT <- SUBMIT()`, the one form in which PREPARE and START use it (R171, R174). -/
def State.submitReported (s : State) : State := s.submitted.setResult s.submitCode

/-- The request of TERMINATE and `XFER_ACTIVE <- 0` (R176). -/
def State.terminated (s : State) : State := (s.emitReq 0x20000000#32).closeTransfer

/-- SUBMIT (R169), with its code reported as R211 of 60_exceptions.md says (log 6). PREPARE and START submit only while
XFER_ACTIVE = 0 (R171, R172, R174); that the row run by itself does all of R169 while a transfer runs too, the prefill
over the running buffer included, is the model's choice (log 30), and so is that it runs inside a refill (log 31). -/
def execSubmit (s : State) : Result := .next s.submitReported

/-- TERMINATE (R176; log 7). That it runs inside a refill too is the model's choice (log 31). -/
def execTerminate (s : State) : Result := .next s.terminated

/-- HALF_CONSUMED (R187): a second event while one is latched is the fault EventOverrun. -/
def execHalfConsumed (residue : BitVec 16) (s : State) : Result :=
  if s.evtPending then .fault .eventOverrun else .next (s.latchEvent residue)

end Sys2Proof.Machine
end

