-- ==== Sys2Proof/Machine/Command.lean ====
section
/-!
DEFINITION. The commands of the Streaming Buffer Controller: PREPARE, START, STOP and BADCMD
(43_buffer_controller.md R170 to R177). SET_CS stands in ChannelStatus.lean.
-/

namespace Sys2Proof.Machine

/-- The format PREPARE accepts, none when a check of R170 fails. The product and sum are exact (00_scope.md R10). -/
def State.validFormat (s : State) : Option Format :=
  match Format.ofCode s.cfgFormat with
  | none => none
  | some f =>
    if s.cfgRate ∈ Config.rates ∧ s.cfgRingFrames ≠ 0#32 ∧ s.cfgPeriodFrames ≠ 0#32 ∧
        s.cfgRingBase.toNat + s.cfgRingFrames.toNat * f.frameBytes ≤ Config.pcmBytes
    then some f else none

/-- PREPARE's effects before the submission (R171). -/
def State.activate (s : State) (f : Format) : State :=
  { s with
    actFormat := f
    actRate := s.cfgRate
    actRingBase := s.cfgRingBase
    actRingFrames := s.cfgRingFrames
    actPeriodFrames := s.cfgPeriodFrames
    actVmask := s.cfgVmask
    actCs := s.csStage
    configured := true
    csCursor := 0
    pos := 0
    periodAcc := 0
    sil := 1 }

/-- Submit when no transfer runs, else report OK (R171, R174). -/
def State.ensureTransfer (s : State) : State :=
  if s.xferActive then s.setResult .ok else s.submitReported

/-- PREPARE (R170, R171). -/
def execPrepare (s : State) : Result :=
  match s.validFormat with
  | none => .next (s.setResult .errConfig)
  | some f => .next (s.activate f).ensureTransfer

/-- START's effects before the submission (R174): the silence count is exchanged out into SIL_CAPTURE. -/
def State.begin (s : State) : State :=
  { s with pos := 0, periodAcc := 0, silCapture := s.sil, sil := 0 }

/-- START (R174). -/
def execStart (s : State) : Result :=
  if s.configured then .next s.begin.ensureTransfer else .next (s.setResult .errConfig)

/-- STOP (R176). -/
def execStop (s : State) : Result :=
  .next ((((if s.xferActive then s.terminated else s).dropEvent).xchgSil 1).setResult .ok)

/-- BADCMD (R177): its only effect is LAST_RESULT. -/
def execBadcmd (_rsv : BitVec 28) (_op : BitVec 4) (s : State) : Result := .next (s.setResult .errBadcmd)

end Sys2Proof.Machine
end

