-- ==== Sys2Proof/Machine/Dispatch.lean ====
section
/-!
DEFINITION. `exec`: one arm per constructor of `Instr`, each one direct call of its meaning.
-/

namespace Sys2Proof.Machine

def exec (i : Instr) (s : State) : Host.Outcome State Fault Refusal :=
  match i with
  | .prepare => Sys2Proof.Machine.execPrepare s
  | .setCs => Sys2Proof.Machine.execSetCs s
  | .start => Sys2Proof.Machine.execStart s
  | .stop => Sys2Proof.Machine.execStop s
  | .badcmd rsv op => Sys2Proof.Machine.execBadcmd rsv op s
  | .halfConsumed residue => Sys2Proof.Machine.execHalfConsumed residue s
  | .submit => Sys2Proof.Machine.execSubmit s
  | .terminate => Sys2Proof.Machine.execTerminate s

end Sys2Proof.Machine
end

