-- ==== Sys2Proof/Machine/Emission.lean ====
section
/-!
DEFINITION. The XFER agent: delivery of DMA_EVT words and emission of one slot (43_buffer_controller.md R187 to R190).
-/

namespace Sys2Proof.Machine

/-- Delivery of a word on DMA_EVT: HALF_CONSUMED is latched (R187), any other word is the fault BadEventWord
(30_encoding.md R101). -/
def deliverEvent (w : Word) (s : State) : Result :=
  match decodeWord .evt w with
  | .ok i => exec i s
  | .error _ => .fault .badEventWord

/-- A word on DMA_REQ by itself (log 9). The block emits the two words only inside a command, so never in a refill
(20_memory.md R84); that they run while REFILL_ACTIVE = 1 too is the model's choice (log 31). -/
def driveRequest (w : Word) (s : State) : Result :=
  match decodeWord .req w with
  | .ok i => exec i s
  | .error _ => .refused .notARequestWord

/-- The frame joins LINE and DRAIN moves on (R188). -/
def State.emitted (s : State) (frame : List Byte) : State :=
  { s with line := s.line ++ [frame], drain := (s.drain + 1) % Config.bufFrames }

/-- The event at a half boundary: residue 1536 at DRAIN = 96, 3072 at the wrap (R188). -/
def boundaryEvent (s : State) : Result :=
  if s.drain = Config.halfFrames then deliverEvent (encodeWord (.halfConsumed 1536#16)) s
  else if s.drain = 0 then deliverEvent (encodeWord (.halfConsumed 3072#16)) s
  else .next s

/-- XFER emission (R188), the checks in 60_exceptions.md R218 (b)'s order. With XFER_ACTIVE = 0 the collaborator has no
step (R190): one that emitted all the same meets the same checks, so after a reset it is the fault UnwrittenRead
(70_reset_and_hazards.md R237); over a written slot the statement is refused (log 11). -/
def emission (s : State) : Result :=
  if s.refillActive && s.drain / Config.halfFrames == s.refillHalf.toNat then .fault .underrunRace
  else
    match s.outbuf.read (Config.slotBytes * s.drain) Config.slotBytes with
    | none => .fault .unwrittenRead
    | some frame => if s.xferActive then boundaryEvent (s.emitted frame) else .refused .emissionNotEnabled

end Sys2Proof.Machine
end

