-- ==== Sys2Proof/Machine/HostPort.lean ====
section
/-!
DEFINITION. The host register aperture (10_state.md R23 to R42, 20_memory.md R80, R81).
-/

namespace Sys2Proof.Machine

/-- Byte offset of a register (R23). -/
def Reg.offset : Reg → Nat
  | .cmd => 0x000
  | .status => 0x004
  | .cfgFormat => 0x008
  | .cfgRate => 0x00C
  | .cfgRingBase => 0x010
  | .cfgRingFrames => 0x014
  | .cfgPeriodFrames => 0x018
  | .cfgVmask => 0x01C
  | .csStage k => 0x020 + 4 * k.val
  | .pos => 0x040
  | .periodAcc => 0x044
  | .silCount => 0x048
  | .silCapture => 0x04C
  | .csCursor => 0x050
  | .notifyCount => 0x054
  | .actFormat => 0x060
  | .actRate => 0x064
  | .actRingBase => 0x068
  | .actRingFrames => 0x06C
  | .actPeriodFrames => 0x070
  | .actVmask => 0x074
  | .actCs k => 0x080 + 4 * k.val
  | .outbuf k => 0x1000 + 4 * k.val

/-- The register at an offset of the first 256 bytes (R23). -/
def lowReg : Nat → Option Reg
  | 0x000 => some .cmd
  | 0x004 => some .status
  | 0x008 => some .cfgFormat
  | 0x00C => some .cfgRate
  | 0x010 => some .cfgRingBase
  | 0x014 => some .cfgRingFrames
  | 0x018 => some .cfgPeriodFrames
  | 0x01C => some .cfgVmask
  | 0x020 => some (.csStage 0)
  | 0x024 => some (.csStage 1)
  | 0x028 => some (.csStage 2)
  | 0x02C => some (.csStage 3)
  | 0x030 => some (.csStage 4)
  | 0x034 => some (.csStage 5)
  | 0x040 => some .pos
  | 0x044 => some .periodAcc
  | 0x048 => some .silCount
  | 0x04C => some .silCapture
  | 0x050 => some .csCursor
  | 0x054 => some .notifyCount
  | 0x060 => some .actFormat
  | 0x064 => some .actRate
  | 0x068 => some .actRingBase
  | 0x06C => some .actRingFrames
  | 0x070 => some .actPeriodFrames
  | 0x074 => some .actVmask
  | 0x080 => some (.actCs 0)
  | 0x084 => some (.actCs 1)
  | 0x088 => some (.actCs 2)
  | 0x08C => some (.actCs 3)
  | 0x090 => some (.actCs 4)
  | 0x094 => some (.actCs 5)
  | _ => none

/-- The register at a byte offset; none at a reserved one (R42). -/
def regAt (off : Nat) : Option Reg :=
  if h : 0x1000 ≤ off ∧ off < 0x1C00 ∧ off % 4 = 0 then some (.outbuf ⟨(off - 0x1000) / 4, by omega⟩)
  else lowReg off

/-- The value a register reads; none when it covers an unwritten OUTBUF byte (R41). Fields narrower than 32 bits read
with zeros above. -/
def readReg (r : Reg) (s : State) : Option Word :=
  match r with
  | .cmd => some 0
  | .status => some s.statusWord
  | .cfgFormat => some (s.cfgFormat.setWidth 32)
  | .cfgRate => some s.cfgRate
  | .cfgRingBase => some s.cfgRingBase
  | .cfgRingFrames => some s.cfgRingFrames
  | .cfgPeriodFrames => some s.cfgPeriodFrames
  | .cfgVmask => some (s.cfgVmask.setWidth 32)
  | .csStage k => some (messageWord s.csStage k)
  | .pos => some s.pos
  | .periodAcc => some s.periodAcc
  | .silCount => some s.sil
  | .silCapture => some s.silCapture
  | .csCursor => some (s.csCursor.setWidth 32)
  | .notifyCount => some s.notifyCount
  | .actFormat => some (s.actFormat.code.setWidth 32)
  | .actRate => some s.actRate
  | .actRingBase => some s.actRingBase
  | .actRingFrames => some s.actRingFrames
  | .actPeriodFrames => some s.actPeriodFrames
  | .actVmask => some (s.actVmask.setWidth 32)
  | .actCs k => some (messageWord s.actCs k)
  | .outbuf k => (s.outbuf.read (4 * k.val) 4).bind wordOfBytes

/-- A write of CMD (R25): latched when no command is pending, else ignored. -/
def latchCommand (w : Word) (s : State) : State :=
  if s.cmdPending then s else { s with cmdPending := true, cmdLatch := w }

/-- The state after a register write; writes of read-only registers and of the window are ignored (R23, R24, R41). -/
def writeReg (r : Reg) (w : Word) (s : State) : State :=
  match r with
  | .cmd => latchCommand w s
  | .status => s
  | .cfgFormat => { s with cfgFormat := w.extractLsb' 0 4 }
  | .cfgRate => { s with cfgRate := w }
  | .cfgRingBase => { s with cfgRingBase := w }
  | .cfgRingFrames => { s with cfgRingFrames := w }
  | .cfgPeriodFrames => { s with cfgPeriodFrames := w }
  | .cfgVmask => { s with cfgVmask := w.extractLsb' 0 24 }
  | .csStage k => { s with csStage := setMessageWord s.csStage k w }
  | .pos => s
  | .periodAcc => s
  | .silCount => s
  | .silCapture => s
  | .csCursor => s
  | .notifyCount => s
  | .actFormat => s
  | .actRate => s
  | .actRingBase => s
  | .actRingFrames => s
  | .actPeriodFrames => s
  | .actVmask => s
  | .actCs _ => s
  | .outbuf _ => s

/-- A 32-bit access at a 4-byte-aligned offset of the aperture (20_memory.md R80). -/
def validAccess (width off : Nat) : Bool := width == 32 && off % 4 == 0 && decide (off < Config.apertureBytes)

/-- The value at an aligned offset: a reserved offset reads 0 (R42). -/
def readOffset (off : Nat) (s : State) : Option Word :=
  match regAt off with
  | some r => readReg r s
  | none => some 0

/-- The state after a write at an aligned offset: a reserved offset ignores it (R42). -/
def writeOffset (off : Nat) (w : Word) (s : State) : State :=
  match regAt off with
  | some r => writeReg r w s
  | none => s

/-- The value observed by the host (30_encoding.md R107 `rd`; log 12). -/
def State.observe (s : State) (off : Nat) (w : Word) : State := { s with reads := s.reads ++ [(off, w)] }

/-- A host read access. -/
def hostRead (width off : Nat) (s : State) : Result :=
  if validAccess width off then
    match readOffset off s with
    | some w => .next (s.observe off w)
    | none => .fault .unwrittenRead
  else .fault .badRegisterAccess

/-- A host write access. -/
def hostWrite (width off : Nat) (w : Word) (s : State) : Result :=
  if validAccess width off then .next (writeOffset off w s) else .fault .badRegisterAccess

end Sys2Proof.Machine
end

