-- ==== Sys2Proof/Machine/Sequencer.lean ====
section
/-!
DEFINITION. The SEQ agent: its enabled step, EXEC_CMD and the refill engine (43_buffer_controller.md R165 to R168, R178 to
R186).
-/

namespace Sys2Proof.Machine

/-- The steps of SEQ (R165). -/
inductive SeqMove where
  | refillSlot | refillEnd | execCmd | refillBegin
  deriving DecidableEq, Repr

/-- The one enabled step, the candidates in R165's order; none while SEQ waits for another agent. -/
def State.seqMove (s : State) : Option SeqMove :=
  if s.refillActive then
    if s.refillSlot < Config.halfFrames then some .refillSlot
    else if s.refillSlot = Config.halfFrames then some .refillEnd
    else none
  else if s.cmdPending then some .execCmd
  else if s.evtPending && s.xferActive then some .refillBegin
  else none

/-- EXEC_CMD (R167): the latched word's instruction, then CMD_PENDING <- 0. -/
def execLatched (s : State) : Result :=
  Result.andThen (exec (decodeCmdWord s.cmdLatch) s) (fun t => .next t.clearCommand)

/-- REFILL_BEGIN (R180): the half from the residue, the mode from SIL. -/
def refillBegin (s : State) : State :=
  { s with
    evtPending := false
    refillActive := true
    refillHalf := halfOf s.evtResidue
    refillLive := s.streaming
    refillSil := s.sil
    refillSlot := 0 }

/-- The frame a slot step encodes: ring frame `(POS + j) mod ACT_RING_FRAMES`, or silence (R182, R183). -/
def refillSource (s : State) : FrameSource :=
  if s.refillLive then .pcm ((s.pos.toNat + s.refillSlot) % s.actRingFrames.toNat) else .silence

/-- REFILL_SLOT (R182, R183): slot `96 × REFILL_HALF + j`. -/
def refillSlotStep (d : During) (s : State) : State :=
  (assembleFrame (refillSource s) (Config.halfFrames * s.refillHalf.toNat + s.refillSlot) d s).setSlot (s.refillSlot + 1)

/-- The `while` loop of R184 from the accumulated count `acc`; `fuel` above `acc` lets it run to its end. PREPARE rejects
a period of 0, with which it would not end (log 16). -/
def accountPeriods (period : Nat) : Nat → Nat → State → State
  | 0, acc, s => { s with periodAcc := BitVec.ofNat 32 acc }
  | fuel + 1, acc, s =>
    if 0 < period ∧ period ≤ acc then accountPeriods period fuel (acc - period) s.notifyPeriod
    else { s with periodAcc := BitVec.ofNat 32 acc }

/-- `POS <- (POS + 96) mod ACT_RING_FRAMES` (R184). -/
def advancePos (s : State) : State :=
  { s with pos := BitVec.ofNat 32 ((s.pos.toNat + Config.halfFrames) % s.actRingFrames.toNat) }

/-- REFILL_END's accounting of a live refill (R184). -/
def accountLive (s : State) : State :=
  accountPeriods s.actPeriodFrames.toNat (s.periodAcc.toNat + Config.halfFrames + 1)
    (s.periodAcc.toNat + Config.halfFrames) (advancePos s)

/-- REFILL_END's accounting of a silence refill (R185). -/
def accountSilence (s : State) : State := s.casSil s.refillSil (silInc s.refillSil)

/-- REFILL_END (R184 to R186). -/
def refillEnd (s : State) : State :=
  (if s.refillLive then accountLive s else accountSilence s).closeRefill

/-- SEQ takes its one enabled step; none is the fault NoStep (30_encoding.md R107). Only a live slot step reads PCM
memory, so in every other step the host's writes of the step land first. -/
def seqStep (d : During) (s : State) : Result :=
  match s.seqMove with
  | some .refillSlot => .next (refillSlotStep d s)
  | some .refillEnd => .next (refillEnd (s.landPcm d))
  | some .execCmd => execLatched (s.landPcm d)
  | some .refillBegin => .next (refillBegin (s.landPcm d))
  | none => .fault .noStep

end Sys2Proof.Machine
end

