-- ==== Sys2Proof/Machine/Run.lean ====
section
/-!
DEFINITION. One statement of the host program is one step of one agent (00_scope.md R6, R11; 30_encoding.md R107, R108).
-/

namespace Sys2Proof.Machine

/-- The byte writes of a `pcm` statement: at addr, addr+1, ... (R107). -/
def pcmWrites (addr : BitVec 32) (bytes : List Byte) (s : State) : Result :=
  if addr.toNat + bytes.length ≤ Config.pcmBytes then .next { s with pcm := s.pcm.write addr.toNat bytes }
  else .refused .pcmBeyondMemory

/-- The write of `cmd! X` (R108), with its condition: while a refill is active the spec gives it no effect (log 29). -/
def commandNow (w : Word) (s : State) : Result :=
  if s.refillActive then .refused .commandNowInRefill else hostWrite 32 (Reg.offset .cmd) w s

/-- What stands in front of the program after a read of `wait` that found bit 0 set: the other agents' turns and the loop
again. Where `turns` gives none, SEQ takes its step, so the loop ends (70_reset_and_hazards.md R251; log 24). -/
def waitAgain : List (List Turn) → List Stmt
  | [] => [.seq [], .wait []]
  | ts :: rest => ts.map Turn.stmt ++ [.wait rest]

/-- One read of the host loop `wait` (R108): `rd STATUS`; while bit 0 reads 1 the loop goes on. -/
def waitTurn (turns : List (List Turn)) (s : State) : Result :=
  let t := s.observe (Reg.offset .status) s.statusWord
  if s.statusWord.getLsbD 0 then .next { t with program := waitAgain turns ++ t.program } else .next t

/-- The step of a statement, the program already moved past it. -/
def takeStatement (st : Stmt) (s : State) : Result :=
  match st with
  | .wr width off imm => hostWrite width off imm s
  | .rd width off => hostRead width off s
  | .pcm addr bytes => pcmWrites addr bytes s
  | .seq d => seqStep d s
  | .emit => emission s
  | .ack v => .next { s with ackNext := v }
  | .cmdNow w => commandNow w s
  | .wait turns => waitTurn turns s
  | .evt w => deliverEvent w s
  | .req w => driveRequest w s
  | .rst => .next s.hardwareReset

/-- Take the next statement. When none is left no agent steps and all state persists (60_exceptions.md R226; log 2). -/
def advance (s : State) : Result :=
  match s.program with
  | [] => .next s
  | st :: rest => takeStatement st { s with program := rest }

/-- Put a table word where the next step runs exactly it: a CMD word is latched and SEQ steps with no refill active, a
DMA_EVT word is delivered, a DMA_REQ word is driven (logs 1 and 8). -/
def placeWord (s : State) (w : Word) : State :=
  match tablePort w with
  | .cmd => { s with cmdPending := true, cmdLatch := w, refillActive := false, program := .seq [] :: s.program }
  | .evt => { s with program := .evt w :: s.program }
  | .req => { s with program := .req w :: s.program }

end Sys2Proof.Machine
end

