-- ==== Sys2Proof/Machine/Assembler.lean ====
section
/-!
DEFINITION. The transcriber of host programs: one statement a line, pseudo-instructions expanded, an ill-formed line
refused by its number (30_encoding.md R107, R108; log 17).
-/

namespace Sys2Proof.Machine

/-- Why the transcriber refuses a line (R107). -/
inductive AsmReason where
  /-- A mnemonic, or a command name of `cmd`, that is not in the tables of R107 and R108. -/
  | unknownMnemonic
  /-- A register name that is not in the map of 10_state.md R23. -/
  | unknownRegister
  /-- An immediate that does not fit 32 bits, a byte that does not fit 8 bits, or an answer that is not 0 or 1. -/
  | immediateTooWide
  /-- Operands that are not of the statement's form. -/
  | badOperands
  deriving DecidableEq, Repr

/-- A refused line, counted from 1. -/
structure AsmError where
  line : Nat
  reason : AsmReason
  deriving DecidableEq, Repr

/-! ## Lexing -/

def isBlank (c : Char) : Bool := c == ' ' || c == '\t' || c == '\r'

/-- `;` starts a comment (R107). -/
def stripComment (cs : List Char) : List Char := cs.takeWhile (· != ';')

def trimBlanks (cs : List Char) : List Char := ((cs.dropWhile isBlank).reverse.dropWhile isBlank).reverse

/-- The pieces of a text between separators; at least one. -/
def splitAtChar (sep : Char) : List Char → List (List Char)
  | [] => [[]]
  | c :: cs =>
    match splitAtChar sep cs with
    | [] => [[]]
    | w :: ws => if c == sep then [] :: w :: ws else (c :: w) :: ws

/-- The operands after a mnemonic, separated by commas. -/
def operandsOf (cs : List Char) : List (List Char) :=
  if trimBlanks cs == [] then [] else (splitAtChar ',' cs).map trimBlanks

/-- The value of a digit of a base up to 16. -/
def digitOf (base : Nat) (c : Char) : Option Nat :=
  let v :=
    if '0' ≤ c ∧ c ≤ '9' then c.toNat - '0'.toNat
    else if 'a' ≤ c ∧ c ≤ 'f' then c.toNat - 'a'.toNat + 10
    else if 'A' ≤ c ∧ c ≤ 'F' then c.toNat - 'A'.toNat + 10
    else 16
  if v < base then some v else none

def digitsOf (base : Nat) : Nat → List Char → Option Nat
  | acc, [] => some acc
  | acc, c :: cs =>
    match digitOf base c with
    | some v => digitsOf base (base * acc + v) cs
    | none => none

/-- A decimal or `0x` number (R107). -/
def numberOf : List Char → Option Nat
  | [] => none
  | '0' :: 'x' :: ds => if ds == [] then none else digitsOf 16 0 ds
  | ds => digitsOf 10 0 ds

/-! ## Operands -/

/-- The names of 10_state.md R23; the OUTBUF window has none, and is reached by offset. -/
def registerNames : List (String × Reg) :=
  [("CMD", .cmd), ("STATUS", .status), ("CFG_FORMAT", .cfgFormat), ("CFG_RATE", .cfgRate),
   ("CFG_RING_BASE", .cfgRingBase), ("CFG_RING_FRAMES", .cfgRingFrames), ("CFG_PERIOD_FRAMES", .cfgPeriodFrames),
   ("CFG_VMASK", .cfgVmask), ("CS_STAGE0", .csStage 0), ("CS_STAGE1", .csStage 1), ("CS_STAGE2", .csStage 2),
   ("CS_STAGE3", .csStage 3), ("CS_STAGE4", .csStage 4), ("CS_STAGE5", .csStage 5), ("POS", .pos),
   ("PERIOD_ACC", .periodAcc), ("SIL_COUNT", .silCount), ("SIL_CAPTURE", .silCapture), ("CS_CURSOR", .csCursor),
   ("NOTIFY_COUNT", .notifyCount), ("ACT_FORMAT", .actFormat), ("ACT_RATE", .actRate),
   ("ACT_RING_BASE", .actRingBase), ("ACT_RING_FRAMES", .actRingFrames), ("ACT_PERIOD_FRAMES", .actPeriodFrames),
   ("ACT_VMASK", .actVmask), ("ACT_CS0", .actCs 0), ("ACT_CS1", .actCs 1), ("ACT_CS2", .actCs 2),
   ("ACT_CS3", .actCs 3), ("ACT_CS4", .actCs 4), ("ACT_CS5", .actCs 5)]

/-- A register operand: a name of the map, or a byte offset. -/
def registerOperand (cs : List Char) : Except AsmReason Nat :=
  match registerNames.find? (fun e => e.1.toList == cs) with
  | some e => .ok e.2.offset
  | none =>
    match numberOf cs with
    | some off => .ok off
    | none => .error .unknownRegister

/-- A number below a bound. -/
def boundedOperand (bound : Nat) (cs : List Char) : Except AsmReason Nat :=
  match numberOf cs with
  | some v => if v < bound then .ok v else .error .immediateTooWide
  | none => .error .badOperands

def wordOperand (cs : List Char) : Except AsmReason Word := (boundedOperand 4294967296 cs).map (BitVec.ofNat 32)

def byteOperand (cs : List Char) : Except AsmReason Byte := (boundedOperand 256 cs).map (BitVec.ofNat 8)

/-- Each operand by `f`, the first refusal winning. -/
def allOperands {α : Type} (f : List Char → Except AsmReason α) : List (List Char) → Except AsmReason (List α)
  | [] => .ok []
  | o :: os =>
    match f o, allOperands f os with
    | .ok v, .ok vs => .ok (v :: vs)
    | .error e, _ => .error e
    | .ok _, .error e => .error e

/-! ## Pseudo-instructions (R108) -/

/-- `wr REG, imm` on a register of the map. -/
def wrReg (r : Reg) (w : Word) : Stmt := .wr 32 r.offset w

/-- The CMD word of a command name. -/
def commandWord (cs : List Char) : Except AsmReason Word :=
  if cs == "PREPARE".toList then .ok 1
  else if cs == "SET_CS".toList then .ok 2
  else if cs == "START".toList then .ok 3
  else if cs == "STOP".toList then .ok 4
  else .error .unknownMnemonic

/-- `cmd X`. -/
def expandCmd (w : Word) : List Stmt := [wrReg .cmd w]

/-- `cmd! X`: `cmd X` then `seq`, the command executes at once. The write carries R108's condition that no refill is
active, which only the run can check; what an illegal `cmd!` does is the model's choice (log 29). -/
def expandCmdNow (w : Word) : List Stmt := [.cmdNow w, .seq []]

/-- `setcs b0, ..., b23`: `wr CS_STAGEk, b[4k] + (b[4k+1]<<8) + ...` from `k` upward; a sum past 32 bits is refused. -/
def expandSetcs : Nat → List Nat → Except AsmReason (List Stmt)
  | _, [] => .ok []
  | off, b0 :: b1 :: b2 :: b3 :: rest =>
    let v := b0 + b1 * 256 + b2 * 65536 + b3 * 16777216
    if v < 4294967296 then (expandSetcs (off + 4) rest).map (fun t => .wr 32 off (BitVec.ofNat 32 v) :: t)
    else .error .immediateTooWide
  | _, _ => .error .badOperands

/-- `config F, R, BASE, FR, PER, VM`. -/
def expandConfig : List Word → Except AsmReason (List Stmt)
  | [f, r, base, fr, per, vm] =>
    .ok [wrReg .cfgFormat f, wrReg .cfgRate r, wrReg .cfgRingBase base, wrReg .cfgRingFrames fr,
      wrReg .cfgPeriodFrames per, wrReg .cfgVmask vm]
  | _ => .error .badOperands

/-- `refill`: REFILL_BEGIN, 96 slot steps, REFILL_END. -/
def expandRefill : List Stmt := List.replicate 98 (.seq [])

/-- `half`: drains one half. -/
def expandHalf : List Stmt := List.replicate 96 .emit

/-! ## Statements -/

/-- A statement without operands. -/
def bare (ops : List (List Char)) (out : List Stmt) : Except AsmReason (List Stmt) :=
  if ops == [] then .ok out else .error .badOperands

def asmWr : List (List Char) → Except AsmReason (List Stmt)
  | [r, v] =>
    match registerOperand r, wordOperand v with
    | .ok off, .ok w => .ok [.wr 32 off w]
    | .error e, _ => .error e
    | .ok _, .error e => .error e
  | _ => .error .badOperands

def asmRd : List (List Char) → Except AsmReason (List Stmt)
  | [r] => (registerOperand r).map (fun off => [.rd 32 off])
  | _ => .error .badOperands

def asmPcm : List (List Char) → Except AsmReason (List Stmt)
  | a :: b :: bs =>
    match wordOperand a, allOperands byteOperand (b :: bs) with
    | .ok addr, .ok bytes => .ok [.pcm addr bytes]
    | .error e, _ => .error e
    | .ok _, .error e => .error e
  | _ => .error .badOperands

def asmAck : List (List Char) → Except AsmReason (List Stmt)
  | [v] => (boundedOperand 2 v).map (fun n => [.ack (n == 1)])
  | _ => .error .badOperands

def asmCmd (now : Bool) : List (List Char) → Except AsmReason (List Stmt)
  | [x] => (commandWord x).map (if now then expandCmdNow else expandCmd)
  | _ => .error .badOperands

def asmSetcs (ops : List (List Char)) : Except AsmReason (List Stmt) :=
  if ops.length = 24 then
    match allOperands (boundedOperand 4294967296) ops with
    | .ok bs => expandSetcs (Reg.offset (.csStage 0)) bs
    | .error e => .error e
  else .error .badOperands

def asmConfig (ops : List (List Char)) : Except AsmReason (List Stmt) :=
  match allOperands wordOperand ops with
  | .ok ws => expandConfig ws
  | .error e => .error e

/-- The statements of R107 and R108 by their mnemonic. -/
def asmStatement (mnemonic : List Char) (ops : List (List Char)) : Except AsmReason (List Stmt) :=
  if mnemonic == "wr".toList then asmWr ops
  else if mnemonic == "rd".toList then asmRd ops
  else if mnemonic == "pcm".toList then asmPcm ops
  else if mnemonic == "seq".toList then bare ops [.seq []]
  else if mnemonic == "emit".toList then bare ops [.emit]
  else if mnemonic == "ack".toList then asmAck ops
  else if mnemonic == "cmd".toList then asmCmd false ops
  else if mnemonic == "cmd!".toList then asmCmd true ops
  else if mnemonic == "setcs".toList then asmSetcs ops
  else if mnemonic == "config".toList then asmConfig ops
  else if mnemonic == "refill".toList then bare ops expandRefill
  else if mnemonic == "half".toList then bare ops expandHalf
  else if mnemonic == "wait".toList then bare ops [.wait []]
  else .error .unknownMnemonic

/-- One line: blank or a comment, or one statement. -/
def asmLine (line : List Char) : Except AsmReason (List Stmt) :=
  let body := trimBlanks (stripComment line)
  if body == [] then .ok []
  else asmStatement (body.takeWhile (fun c => !isBlank c)) (operandsOf (body.dropWhile (fun c => !isBlank c)))

/-- The lines in order, counted from `n`. -/
def asmLines : Nat → List (List Char) → Except AsmError (List Stmt)
  | _, [] => .ok []
  | n, l :: ls =>
    match asmLine l with
    | .error e => .error ⟨n, e⟩
    | .ok out => (asmLines (n + 1) ls).map (fun rest => out ++ rest)

/-- The whole text (R107). -/
def transcribe (text : String) : Except AsmError (List Stmt) := asmLines 1 (splitAtChar '\n' text.toList)

/-- Load a program text into the machine from outside; a refused text has no meaning (R107, 00_scope.md R12; log 1). -/
def loadText (text : String) (s : State) : Result :=
  match transcribe text with
  | .ok p => .next { s with program := p }
  | .error e => .refused (.illFormedProgram e.line)

end Sys2Proof.Machine
end

