-- ==== Sys2Proof/Safety.lean ====
section
/-!
DEFINITION. The terms statements are made in: the invariant of every reached state, the silence a slot may hold, draws of
the channel-status cycle, and clean runs.
-/

namespace Sys2Proof.Machine

/-- Every byte of OUTBUF is written (20_memory.md R78). -/
def OutbufPrimed (m : Memory) : Prop := ∀ a, a < Config.bufBytes → (m.get a).isSome = true

/-- What PREPARE admitted still holds of the active configuration (43_buffer_controller.md R170), and the stream counters
are inside it (10_state.md R33, R34). -/
structure ActiveConfig (s : State) : Prop where
  rate : s.actRate ∈ Config.rates
  ringNonempty : 0 < s.actRingFrames.toNat
  ringFits : s.actRingBase.toNat + s.actRingFrames.toNat * s.actFormat.frameBytes ≤ Config.pcmBytes
  periodNonzero : 0 < s.actPeriodFrames.toNat
  posInRing : s.pos.toNat < s.actRingFrames.toNat
  accInPeriod : s.periodAcc.toNat < s.actPeriodFrames.toNat

/-- The invariant of the machine. -/
structure Inv (s : State) : Prop where
  /-- CS_CURSOR is never observed outside 0..191 (41_channel_status.md R147 e). -/
  cursor : s.csCursor.toNat < Config.csBits
  /-- REFILL_SLOT counts 0..96 (10_state.md R22). -/
  slot : s.refillSlot ≤ Config.halfFrames
  /-- DRAIN wraps modulo 192 (10_state.md R22). -/
  drain : s.drain < Config.bufFrames
  /-- OUTBUF keeps its canonical form. -/
  outbufForm : s.outbuf.wf
  /-- OUTBUF has 3072 bytes (20_memory.md R77). -/
  outbufRange : ∀ c ∈ s.outbuf, c.1 < Config.bufBytes
  /-- PCM memory keeps its canonical form. -/
  pcmForm : s.pcm.wf
  /-- PCM addresses are 32 bits (20_memory.md R70). -/
  pcmRange : ∀ c ∈ s.pcm, c.1 < Config.pcmBytes
  /-- Every submission was preceded by a full prefill (20_memory.md R78). -/
  primed : s.xferActive = true → OutbufPrimed s.outbuf
  /-- A configured block holds an admitted configuration (43_buffer_controller.md R170, 10_state.md R33, R34). -/
  config : s.configured = true → ActiveConfig s
  /-- Streaming only after a successful PREPARE (43_buffer_controller.md R174). -/
  streaming : s.sil = 0#32 → s.configured = true
  /-- No command runs inside a refill, so SIL is still the value REFILL_BEGIN loaded (20_memory.md R85). -/
  refillSil : s.refillActive = true → s.refillSil = s.sil
  /-- A refill is live if and only if SIL was 0 at REFILL_BEGIN (43_buffer_controller.md R180, R181). -/
  refillMode : s.refillActive = true → s.refillLive = decide (s.refillSil = 0#32)
  /-- LINE is a sequence of 16-byte frames (10_state.md R47). -/
  frames : ∀ f ∈ s.line, f.length = Config.slotBytes

/-- The bit of the cycle `i` frames after the cursor `k`, and whether that frame starts a block. -/
def cycleBit (msg : Vector Byte 24) (k i : Nat) : CsBit :=
  ⟨csBit msg ((k + i) % Config.csBits), (k + i) % Config.csBits == 0⟩

/-- The frame a prefill writes `i` frames after the cursor `k` (43_buffer_controller.md R172). -/
def silenceFrame (msg : Vector Byte 24) (vm : BitVec 24) (k i : Nat) : List Byte :=
  frameBytesOf 0 0 vm (cycleBit msg k i)

/-- OUTBUF holds one silence frame per slot, the channel-status cycle running on from cursor `k`. -/
def SilenceFilled (m : Memory) (msg : Vector Byte 24) (vm : BitVec 24) (k : Nat) : Prop :=
  ∀ i, i < Config.bufFrames → m.read (Config.slotBytes * i) Config.slotBytes = some (silenceFrame msg vm k i)

/-- `n` draws of CS_NEXT_BIT: the bits in order and the state after (41_channel_status.md R141, R144). -/
def drawBits : Nat → State → List CsBit × State
  | 0, s => ([], s)
  | n + 1, s =>
    let b := csNextBit s
    let r := drawBits n b.2
    (b.1 :: r.1, r.2)

/-- The frame a live slot encodes: ring frame `f`, as PCM memory stands (42_frame_assembler.md R158). -/
def liveFrame (s : State) (f k i : Nat) : List Byte :=
  let r := readStereo s.actFormat (frameAddr s f) [] s.pcm
  frameBytesOf r.left r.right s.actVmask (cycleBit s.actCs k i)

/-- One statement of 30_encoding.md R107 and R108 as the transcriber writes it, not one of the model's own. -/
def Stmt.ofText : Stmt → Bool
  | .wr width _ _ => width == 32
  | .rd width _ => width == 32
  | .pcm _ _ => true
  | .seq d => d == []
  | .emit => true
  | .ack _ => true
  | .cmdNow _ => true
  | .wait turns => turns == []
  | .evt _ => false
  | .req _ => false
  | .rst => false

/-- `n` steps of the machine, stopping at the first fault or refusal. -/
def runSteps : Nat → State → Result
  | 0, s => .next s
  | n + 1, s => Result.andThen (step s) (runSteps n)

/-- A clean run of `n` steps (70_reset_and_hazards.md R252): it raised no fault and was not refused. -/
def CleanRun (n : Nat) (s t : State) : Prop := runSteps n s = .next t

end Sys2Proof.Machine
end

