-- ==== Sys2Proof/Certificates/Slice0/Obligations.lean ====
section
/-!
DEFINITION. The statements for the provers: what the rules of the spec say the block does. A record update in a conclusion
is the frame too: every field it does not name is unchanged.
-/

open Sys2Proof Sys2Proof.Machine

/-! ## Encodings -/

/-- Words written out from 30_encoding.md R97, R98, R100 and R103, least significant byte first (log 21), decode to the
instructions of spec/opcode_table.json. -/
def Obligations.TableWordsDecode : Prop :=
  decode .cmd [0x01, 0x00, 0x00, 0x00] = .ok .prepare ∧
  decode .cmd [0x02, 0x00, 0x00, 0x00] = .ok .setCs ∧
  decode .cmd [0x03, 0x00, 0x00, 0x00] = .ok .start ∧
  decode .cmd [0x04, 0x00, 0x00, 0x00] = .ok .stop ∧
  decode .cmd [0x15, 0x00, 0x00, 0x00] = .ok (.badcmd 0x0000001 0x5) ∧
  decode .evt [0x00, 0x06, 0x00, 0x10] = .ok (.halfConsumed 1536) ∧
  decode .req [0x00, 0x0C, 0x00, 0x10] = .ok .submit ∧
  decode .req [0x00, 0x00, 0x00, 0x20] = .ok .terminate

/-- R97: the CMD opcode map is complete, and a word selects a row only if it matches all 32 bits. -/
def Obligations.CommandMapIsExact : Prop :=
  ∀ w : Word,
    (decode .cmd (bytesOfWord w) = .ok .prepare ↔ w = 0x00000001#32) ∧
    (decode .cmd (bytesOfWord w) = .ok .setCs ↔ w = 0x00000002#32) ∧
    (decode .cmd (bytesOfWord w) = .ok .start ↔ w = 0x00000003#32) ∧
    (decode .cmd (bytesOfWord w) = .ok .stop ↔ w = 0x00000004#32)

/-- R98, R177: a CMD word with OP 0 or 5 to 15, or RSV ≠ 0, is illegal; it decodes to BADCMD, whose only effect in every
state is LAST_RESULT = ERR_BADCMD. -/
def Obligations.IllegalCommandWordsOnlyReport : Prop :=
  ∀ (rsv : BitVec 28) (op : BitVec 4), (op = 0 ∨ 5 ≤ op.toNat ∨ rsv ≠ 0) →
    decode .cmd (bytesOfWord (rsv ++ op)) = .ok (.badcmd rsv op) ∧
    ∀ s : State, exec (.badcmd rsv op) s = .next { s with lastResult := .errBadcmd }

/-- R100: `0x1000_0000 | r` is HALF_CONSUMED with residue r, for every r. -/
def Obligations.EventWordCarriesResidue : Prop :=
  ∀ r : BitVec 16, decode .evt (bytesOfWord (0x10000000#32 ||| r.setWidth 32)) = .ok (.halfConsumed r)

/-- R101: delivering a DMA_EVT word with KIND ≠ 0x1 or RSV ≠ 0 is the fault BadEventWord. -/
def Obligations.ForeignEventWordFaults : Prop :=
  ∀ (w : Word) (s : State), (w.extractLsb' 28 4 ≠ 0x1#4 ∨ w.extractLsb' 16 12 ≠ 0#12) →
    deliverEvent w s = .fault .badEventWord

/-- Decoding the bytes of a well-formed instruction's word on its port gives the instruction, every operand at every
value. -/
def Obligations.DecodeOfEncode : Prop :=
  ∀ i : Instr, WellFormed i = true → decode (portOf i) (encode i) = .ok i

/-- What decodes is well-formed, stands on the port it was read from, and encodes back to the very bytes. -/
def Obligations.EncodeOfDecode : Prop :=
  ∀ (p : Port) (bytes : List Byte) (i : Instr), decode p bytes = .ok i →
    WellFormed i = true ∧ portOf i = p ∧ encode i = bytes

/-! ## Steps run decoded instructions -/

/-- R167: with a command latched and no refill active, a SEQ step is `exec` of the instruction CMD_LATCH decodes to,
followed by CMD_PENDING <- 0; the host's PCM writes of the step land first (log 13). -/
def Obligations.StepRunsLatchedCommand : Prop :=
  ∀ (s : State) (d : During) (rest : List Stmt) (i : Instr),
    s.program = .seq d :: rest → s.refillActive = false → s.cmdPending = true →
    decode .cmd (bytesOfWord s.cmdLatch) = .ok i →
    step s =
      match exec i { s with program := rest, pcm := landAll s.pcm d } with
      | .next t => .next { t with cmdPending := false }
      | .fault e => .fault e
      | .refused e => .refused e

/-- R107, R108: a step is the step of the statement at the head of the program, the statement taken. A word delivered on
DMA_EVT (R187), or driven on DMA_REQ (log 9), runs `exec` of the instruction it decodes to; another word is the fault
BadEventWord (R101) on DMA_EVT, and is refused by name on DMA_REQ (log 9). `wr`, `rd`, `seq` and `emit`
are the step of their agent, `ack v` sets the answer to the next SUBMIT. The write of `cmd! X` is the CMD write with no
refill active, and is refused by name with one (log 29). `wait` reads STATUS; with bit 0 set the loop goes on after the
turns of the other agents, one SEQ step where it names none (log 24). The statements `pcm` and `rst` are
HostPcmWritesLand's and HardwareResetRestores's. -/
def Obligations.StepRunsStatement : Prop :=
  ∀ (s : State) (rest : List Stmt),
    let u := { s with program := rest }
    (∀ w i, s.program = .evt w :: rest → decode .evt (bytesOfWord w) = .ok i → step s = exec i u) ∧
    (∀ w i, s.program = .req w :: rest → decode .req (bytesOfWord w) = .ok i → step s = exec i u) ∧
    (∀ w, s.program = .evt w :: rest → (w.extractLsb' 28 4 ≠ 0x1#4 ∨ w.extractLsb' 16 12 ≠ 0#12) →
      step s = .fault .badEventWord) ∧
    (∀ w, s.program = .req w :: rest → w ≠ 0x10000C00#32 → w ≠ 0x20000000#32 →
      step s = .refused .notARequestWord) ∧
    (∀ width off w, s.program = .wr width off w :: rest → step s = hostWrite width off w u) ∧
    (∀ width off, s.program = .rd width off :: rest → step s = hostRead width off u) ∧
    (∀ d, s.program = .seq d :: rest → step s = seqStep d u) ∧
    (s.program = .emit :: rest → step s = emission u) ∧
    (∀ v, s.program = .ack v :: rest → step s = .next { s with program := rest, ackNext := v }) ∧
    (∀ w, s.program = .cmdNow w :: rest → s.refillActive = false → step s = hostWrite 32 0x000 w u) ∧
    (∀ w, s.program = .cmdNow w :: rest → s.refillActive = true → step s = .refused .commandNowInRefill) ∧
    (∀ turns, s.program = .wait turns :: rest → s.cmdPending = false →
      step s = .next { s with program := rest, reads := s.reads ++ [(0x004, s.statusWord)] }) ∧
    (s.program = .wait [] :: rest → s.cmdPending = true →
      step s = .next { s with
        program := .seq [] :: .wait [] :: rest, reads := s.reads ++ [(0x004, s.statusWord)] }) ∧
    (∀ ts turns, s.program = .wait (ts :: turns) :: rest → s.cmdPending = true →
      step s = .next { s with
        program := ts.map Turn.stmt ++ .wait turns :: rest, reads := s.reads ++ [(0x004, s.statusWord)] })

/-! ## Commands -/

/-- R170: when one of PREPARE's checks fails, LAST_RESULT is ERR_CONFIG and no other state changes. -/
def Obligations.PrepareRejectsBadConfiguration : Prop :=
  ∀ s : State,
    (3 < s.cfgFormat.toNat ∨ s.cfgRate ∉ ([44100, 48000, 88200, 96000, 176400, 192000] : List Word) ∨ s.cfgRingFrames = 0 ∨ s.cfgPeriodFrames = 0 ∨
      ∃ f : Format, f.code = s.cfgFormat ∧
        4294967296 < s.cfgRingBase.toNat + s.cfgRingFrames.toNat * f.frameBytes) →
    exec .prepare s = .next { s with lastResult := .errConfig }

/-- R171: once validation passes the staged configuration becomes active and the stream restarts Idle. With a transfer
running nothing is submitted and OUTBUF keeps its frames; with none, all of OUTBUF is silence of a fresh channel-status
block (R169, R172; CS_CURSOR back at 0 by R147 (d), which the spec derives), the SUBMIT word is emitted, and ENV's answer
(a draw of R102) starts the transfer or is reported. That ACK is 1 again after the draw is the model's reading of R107's
default (log 5). -/
def Obligations.PrepareTakesEffect : Prop :=
  ∀ (s : State) (f : Format),
    f.code = s.cfgFormat → s.cfgRate ∈ ([44100, 48000, 88200, 96000, 176400, 192000] : List Word) →
    s.cfgRingFrames ≠ 0 → s.cfgPeriodFrames ≠ 0 →
    s.cfgRingBase.toNat + s.cfgRingFrames.toNat * f.frameBytes ≤ 4294967296 →
    (s.xferActive = true →
      exec .prepare s = .next { s with
        actFormat := f, actRate := s.cfgRate, actRingBase := s.cfgRingBase, actRingFrames := s.cfgRingFrames,
        actPeriodFrames := s.cfgPeriodFrames, actVmask := s.cfgVmask, actCs := s.csStage, configured := true,
        csCursor := 0, pos := 0, periodAcc := 0, sil := 1, lastResult := .ok }) ∧
    (s.xferActive = false →
      ∃ m : Memory,
        (exec .prepare s = .next { s with
          actFormat := f, actRate := s.cfgRate, actRingBase := s.cfgRingBase, actRingFrames := s.cfgRingFrames,
          actPeriodFrames := s.cfgPeriodFrames, actVmask := s.cfgVmask, actCs := s.csStage, configured := true,
          csCursor := 0, pos := 0, periodAcc := 0, sil := 1,
          outbuf := m, reqs := s.reqs ++ [0x10000C00#32], ackNext := true,
          xferActive := s.ackNext,
          drain := if s.ackNext then 0 else s.drain,
          evtPending := if s.ackNext then false else s.evtPending,
          lastResult := if s.ackNext then .ok else .errResource }) ∧
        SilenceFilled m s.csStage s.cfgVmask 0 ∧
        ∀ x, 3072 ≤ x → m.get x = s.outbuf.get x)

/-- R143: SET_CS, in every state. -/
def Obligations.SetCsRestartsCycle : Prop :=
  ∀ s : State, exec .setCs s = .next { s with actCs := s.csStage, csCursor := 0, lastResult := .ok }

/-- R174: START before any PREPARE reports ERR_CONFIG and changes nothing else; with a transfer running it resets POS and
PERIOD_ACC, exchanges the silence count out into SIL_CAPTURE and submits nothing; with none it also submits, over a
buffer prefilled with silence (R169, R172; ENV's answer is a draw of R102). CS_CURSOR is not reset, and comes back from
the prefill by R147 (d), which the spec derives. That ACK is 1 again after the draw is the model's reading of R107's
default (log 5). -/
def Obligations.StartStreams : Prop :=
  ∀ s : State,
    (s.configured = false → exec .start s = .next { s with lastResult := .errConfig }) ∧
    (s.configured = true → s.xferActive = true →
      exec .start s = .next { s with pos := 0, periodAcc := 0, silCapture := s.sil, sil := 0, lastResult := .ok }) ∧
    (s.configured = true → s.xferActive = false → s.csCursor.toNat < 192 →
      ∃ m : Memory,
        (exec .start s = .next { s with
          pos := 0, periodAcc := 0, silCapture := s.sil, sil := 0,
          outbuf := m, reqs := s.reqs ++ [0x10000C00#32], ackNext := true,
          xferActive := s.ackNext,
          drain := if s.ackNext then 0 else s.drain,
          evtPending := if s.ackNext then false else s.evtPending,
          lastResult := if s.ackNext then .ok else .errResource }) ∧
        SilenceFilled m s.actCs s.actVmask s.csCursor.toNat ∧
        ∀ x, 3072 ≤ x → m.get x = s.outbuf.get x)

/-- R176: STOP, in every state: TERMINATE only when a transfer runs; POS, PERIOD_ACC, CS_CURSOR and OUTBUF untouched. -/
def Obligations.StopEndsTransfer : Prop :=
  ∀ s : State,
    exec .stop s = .next { s with
      xferActive := false, evtPending := false, sil := 1, lastResult := .ok,
      reqs := if s.xferActive then s.reqs ++ [0x20000000#32] else s.reqs }

/-- R187: HALF_CONSUMED is latched when no event is, and is the fault EventOverrun when one is; that it does so whatever
XFER_ACTIVE is the model's reading (log 10). -/
def Obligations.HalfConsumedLatchesOrOverruns : Prop :=
  ∀ (s : State) (r : BitVec 16),
    (s.evtPending = false → exec (.halfConsumed r) s = .next { s with evtPending := true, evtResidue := r }) ∧
    (s.evtPending = true → exec (.halfConsumed r) s = .fault .eventOverrun)

/-- R169, R172: SUBMIT prefills all 192 slots with silence in slot order, one whole channel-status block, so CS_CURSOR
comes back (R147 (d)); it emits its word and takes ENV's answer, which is 1 again after it (log 5). That the code goes to
LAST_RESULT is the model's (log 6), and so is that the row run by itself does all of this while a transfer runs (log 30)
or a refill is active (log 31). -/
def Obligations.SubmitPrefillsAndAsks : Prop :=
  ∀ s : State, s.csCursor.toNat < 192 →
    ∃ m : Memory,
      (exec .submit s = .next { s with
        outbuf := m, reqs := s.reqs ++ [0x10000C00#32], ackNext := true,
        xferActive := if s.ackNext then true else s.xferActive,
        drain := if s.ackNext then 0 else s.drain,
        evtPending := if s.ackNext then false else s.evtPending,
        lastResult := if s.ackNext then .ok else .errResource }) ∧
      SilenceFilled m s.actCs s.actVmask s.csCursor.toNat ∧
      ∀ x, 3072 ≤ x → m.get x = s.outbuf.get x

/-- The request word of TERMINATE by itself (log 7; inside a refill too, log 31): XFER_ACTIVE is cleared, nothing else
changes. -/
def Obligations.TerminateClearsTransfer : Prop :=
  ∀ s : State, exec .terminate s = .next { s with xferActive := false, reqs := s.reqs ++ [0x20000000#32] }

/-! ## The subframe encoder -/

/-- R127: the fields of the logical word; slot 31 is the XOR of slots 4..30. The payload's bit order and V = 0 are the
spec's general-knowledge items G1 and G2 (log 19). -/
def Obligations.LogicalWordFields : Prop :=
  ∀ (payload : BitVec 24) (c : Bool),
    (∀ i, i < 4 → (subframeWord payload c).getLsbD i = false) ∧
    (∀ i, i < 24 → (subframeWord payload c).getLsbD (4 + i) = payload.getLsbD i) ∧
    (subframeWord payload c).getLsbD 28 = false ∧ (subframeWord payload c).getLsbD 29 = false ∧
    (subframeWord payload c).getLsbD 30 = c ∧
    (subframeWord payload c).getLsbD 31 = parityOf (subframeWord payload c) 4 27

/-- R128, R135: the number of ones in slots 4..31 is even, for every sample and channel-status bit. -/
def Obligations.ParityIsEven : Prop :=
  ∀ (payload : BitVec 24) (c : Bool), ((slotsFrom (subframeWord payload c) 4 28).count true) % 2 = 0

/-- R129: cells 0..7 are the preamble's pattern; at every slot 4..31 the first cell differs from the cell before it, and
the second differs from the first only for a 1. -/
def Obligations.CellsFollowBiphaseRule : Prop :=
  ∀ (pre : Preamble) (sf : Word),
    (subframeCells pre sf).length = 64 ∧
    (∀ k, k < 8 → (subframeCells pre sf)[k]? = pre.cells[k]?) ∧
    ∀ i, 4 ≤ i → i < 32 →
      ∃ a b : Bool,
        (subframeCells pre sf)[2 * i - 1]? = some a ∧
        (subframeCells pre sf)[2 * i]? = some (!a) ∧
        (subframeCells pre sf)[2 * i + 1]? = some b ∧
        b = ((!a) ^^ sf.getLsbD i)

/-- R130: 8 bytes, and bit 7 - k of byte j is cell 8j + k. -/
def Obligations.CellsPackMostSignificantFirst : Prop :=
  ∀ (p : Sample) (vm : BitVec 24) (pre : Preamble) (c : Bool),
    (encodeSubframe p vm pre c).length = 8 ∧
    ∀ j k, j < 8 → k < 8 →
      ((encodeSubframe p vm pre c)[j]?.map (fun b => b.getLsbD (7 - k))) =
        (subframeCells pre (subframeWord (p &&& vm) c))[8 * j + k]?

/-- R131, which the spec derives from R128 and R129: every encoded subframe ends on a 0 cell, whatever the sample, mask,
preamble and channel-status bit. -/
def Obligations.SubframeEndsOnZeroCell : Prop :=
  ∀ (p : Sample) (vm : BitVec 24) (pre : Preamble) (c : Bool),
    (cellsOfBytes (encodeSubframe p vm pre c)).getLast? = some false

/-- R136, which the spec derives from R129: the encoding is invertible: preamble, payload, V = U = 0, C and P come back.
The preamble patterns are the spec's general-knowledge item G3 (log 19). -/
def Obligations.EncodingIsInvertible : Prop :=
  ∀ (p : Sample) (vm : BitVec 24) (pre : Preamble) (c : Bool),
    recoverSubframe (encodeSubframe p vm pre c) =
      some ⟨pre, p &&& vm, false, false, c, parityOf (subframeWord (p &&& vm) c) 4 27⟩

/-! ## Decoders and frames -/

/-- R153 to R156: what each decoder makes of the bytes of a sample. S24_LE takes the top 24 bits, as R154 writes it and 93
Part 3 cautions about (log 20). -/
def Obligations.DecodersSelectBits : Prop :=
  ∀ b0 b1 b2 b3 : Byte,
    decodeSample .s16le [b0, b1] = b1 ++ b0 ++ 0#8 ∧
    decodeSample .s24le [b0, b1, b2, b3] = b3 ++ b2 ++ b1 ∧
    decodeSample .s24le3 [b0, b1, b2] = b2 ++ b1 ++ b0 ∧
    decodeSample .s32le [b0, b1, b2, b3] = b3 ++ b2 ++ b1

/-- R163, the spec's own reading of the source's round-trip property: for every format and every sample bit pattern the
payload recovered from the encoded subframe is the decoded sample under ACT_VMASK. -/
def Obligations.PayloadRoundTrip : Prop :=
  ∀ (fmt : Format) (bytes : List Byte) (vm : BitVec 24) (pre : Preamble) (c : Bool),
    bytes.length = fmt.sampleBytes →
    ∃ r, recoverSubframe (encodeSubframe (decodeSample fmt bytes) vm pre c) = some r ∧
      r.payload = decodeSample fmt bytes &&& vm

/-- R74: a MemRead is the little-endian number of the n bytes from a upward, as PCM memory holds them. -/
def Obligations.MemReadIsLittleEndian : Prop :=
  ∀ (m : Memory) (a n : Nat),
    littleEndian (readPcm a n [] m).bytes = ((List.range n).map (fun i => (pcmByte m (a + i)).toNat <<< (8 * i))).sum

/-- R73: sample and frame sizes, frame addresses, and that in every state of the invariant no byte of a ring frame lies
past 2^32 - 1. -/
def Obligations.RingFramesFitMemory : Prop :=
  (∀ fmt : Format, fmt.frameBytes = 2 * fmt.sampleBytes) ∧
  Format.s16le.sampleBytes = 2 ∧ Format.s24le.sampleBytes = 4 ∧ Format.s24le3.sampleBytes = 3 ∧
  Format.s32le.sampleBytes = 4 ∧
  ∀ (s : State) (f : Nat), Inv s → s.configured = true → f < s.actRingFrames.toNat →
    frameAddr s f = s.actRingBase.toNat + f * s.actFormat.frameBytes ∧
    frameAddr s f + s.actFormat.frameBytes ≤ 4294967296

/-- R141, R142: CS_NEXT_BIT draws bit (k mod 8) of byte k/8, marks the block start from the cursor before the advance, and
advances the cursor modulo 192. The bit order is the spec's general-knowledge item G4 (log 19). -/
def Obligations.NextBitDrawsAndAdvances : Prop :=
  ∀ s : State, s.csCursor.toNat < 192 →
    (csNextBit s).2 = { s with csCursor := BitVec.ofNat 8 ((s.csCursor.toNat + 1) % 192) } ∧
    (csNextBit s).1.blk = decide (s.csCursor = 0) ∧
    ∀ h : s.csCursor.toNat / 8 < 24,
      (csNextBit s).1.c = (s.actCs[s.csCursor.toNat / 8]'h).getLsbD (s.csCursor.toNat % 8)

/-- R148 (source §8), in the spec's derived form: over 192 consecutive draws exactly one frame starts a block, the bits
are the message's read from the cursor on, and the cursor comes back. -/
def Obligations.CycleReadsWholeMessage : Prop :=
  ∀ s : State, s.csCursor.toNat < 192 →
    (drawBits 192 s).1 = (List.range 192).map (fun i => cycleBit s.actCs s.csCursor.toNat i) ∧
    ((drawBits 192 s).1.filter (fun b => b.blk)).length = 1 ∧
    (drawBits 192 s).2 = s

/-- R158, R159, R145: ASSEMBLE_FRAME draws one channel-status bit for both subframes and writes the 16 bytes of its slot,
left subframe first; a live frame takes its samples, left then right, from the bytes PCM memory holds, a silence frame
encodes zeros. Nothing else changes. -/
def Obligations.AssembleFrameWritesSlot : Prop :=
  ∀ (s : State) (f k : Nat),
    let a := s.actRingBase.toNat + f * s.actFormat.frameBytes
    let sample := fun at_ : Nat =>
      decodeSample s.actFormat ((List.range s.actFormat.sampleBytes).map (fun i => pcmByte s.pcm (at_ + i)))
    let b := csNextBit s
    let slot := fun l r : Sample =>
      encodeSubframe l s.actVmask (if b.1.blk then .b else .m) b.1.c ++ encodeSubframe r s.actVmask .w b.1.c
    (assembleFrame (.pcm f) k [] s =
      { s with
        csCursor := b.2.csCursor
        outbuf := s.outbuf.write (16 * k) (slot (sample a) (sample (a + s.actFormat.sampleBytes))) }) ∧
    assembleFrame .silence k [] s = { s with csCursor := b.2.csCursor, outbuf := s.outbuf.write (16 * k) (slot 0 0) }

/-! ## The sequencer -/

/-- R165, R168: the candidates in order; a pending command goes before a pending event, an active refill before both. A
`seq` with no enabled step is the fault NoStep (R107, R213). -/
def Obligations.SequencerPriority : Prop :=
  ∀ s : State, s.refillSlot ≤ 96 →
    (∀ d : During, s.refillActive = false → s.cmdPending = false → (s.evtPending = false ∨ s.xferActive = false) →
      seqStep d s = .fault .noStep) ∧
    (s.seqMove = some .refillSlot ↔ s.refillActive = true ∧ s.refillSlot < 96) ∧
    (s.seqMove = some .refillEnd ↔ s.refillActive = true ∧ s.refillSlot = 96) ∧
    (s.seqMove = some .execCmd ↔ s.refillActive = false ∧ s.cmdPending = true) ∧
    (s.seqMove = some .refillBegin ↔
      s.refillActive = false ∧ s.cmdPending = false ∧ s.evtPending = true ∧ s.xferActive = true) ∧
    (s.seqMove = none ↔
      s.refillActive = false ∧ s.cmdPending = false ∧ (s.evtPending = false ∨ s.xferActive = false))

/-- R179, R180: REFILL_BEGIN takes the event, fixes the half from the residue (≤ 1536 is half 0) and the mode from SIL. -/
def Obligations.RefillBeginFixesHalfAndMode : Prop :=
  ∀ s : State, s.refillActive = false → s.cmdPending = false → s.evtPending = true → s.xferActive = true →
    seqStep [] s = .next { s with
      evtPending := false, refillActive := true,
      refillHalf := if s.evtResidue.toNat ≤ 1536 then 0 else 1,
      refillLive := decide (s.sil = 0), refillSil := s.sil, refillSlot := 0 }

/-- R184: REFILL_END of a live refill advances POS by 96 in the ring and notifies once per whole period, each notification
tagged with the new POS; REFILL_ACTIVE falls (R186). -/
def Obligations.LiveRefillEndAccounts : Prop :=
  ∀ s : State, s.refillActive = true → s.refillSlot = 96 → s.refillLive = true → 0 < s.actPeriodFrames.toNat →
    seqStep [] s = .next { s with
      pos := BitVec.ofNat 32 ((s.pos.toNat + 96) % s.actRingFrames.toNat)
      periodAcc := BitVec.ofNat 32 ((s.periodAcc.toNat + 96) % s.actPeriodFrames.toNat)
      notifyCount := BitVec.ofNat 32 (s.notifyCount.toNat + (s.periodAcc.toNat + 96) / s.actPeriodFrames.toNat)
      notifyLog := s.notifyLog ++ List.replicate ((s.periodAcc.toNat + 96) / s.actPeriodFrames.toNat)
        (BitVec.ofNat 32 ((s.pos.toNat + 96) % s.actRingFrames.toNat))
      refillActive := false }

/-- R185: in every state of the invariant the CAS of a silence refill's end succeeds; SIL counts up, 2^32 - 1 wraps to
2, so the count stays in the silence regime; POS and PERIOD_ACC stay; REFILL_ACTIVE falls (R186). -/
def Obligations.SilenceRefillEndCounts : Prop :=
  ∀ s : State, Inv s → s.refillActive = true → s.refillSlot = 96 → s.refillLive = false →
    seqStep [] s = .next { s with
      sil := if s.sil = 0xFFFFFFFF then 2 else s.sil + 1
      refillActive := false } ∧
    (if s.sil = 0xFFFFFFFF then (2 : Word) else s.sil + 1) ≠ 0

/-- What a SEQ step does while a refill is active (R165, R167, R178), the host's PCM writes of the step landing (log 13).
It executes no command: the latch, LAST_RESULT, CONFIGURED, the ACT fields, the staging registers, SIL_CAPTURE, the
transfer handshake, DRAIN, LINE and the refill's half and mode stay. A slot step (R182, R183) writes slot
96·REFILL_HALF + REFILL_SLOT of OUTBUF, from ring frame (POS + REFILL_SLOT) mod ACT_RING_FRAMES or silence, draws one
channel-status bit and counts REFILL_SLOT up, so the slots are written in rising order (20_memory.md R83); POS, SIL and
the notifications stay until REFILL_END (R191). REFILL_END (R184 to R186) writes no slot, draws no bit, ends the refill,
and leaves SIL if the refill was live, POS and the notifications if it was silence. -/
def Obligations.StepInsideRefill : Prop :=
  ∀ (s : State) (d : During), s.refillActive = true →
    (∀ t, seqStep d s = .next t →
      t = { s with
        pos := t.pos, periodAcc := t.periodAcc, sil := t.sil, csCursor := t.csCursor, notifyCount := t.notifyCount,
        notifyLog := t.notifyLog, outbuf := t.outbuf, refillSlot := t.refillSlot, refillActive := t.refillActive,
        pcm := landAll s.pcm d }) ∧
    (s.refillSlot < 96 →
      let sb := s.actFormat.sampleBytes
      let a := s.actRingBase.toNat +
        (s.pos.toNat + s.refillSlot) % s.actRingFrames.toNat * s.actFormat.frameBytes
      let sample := fun first : Nat =>
        if s.refillLive then
          decodeSample s.actFormat
            ((List.range sb).map (fun i => pcmByte (landAll s.pcm (d.take (first + i + 1))) (a + first + i)))
        else 0
      let b := csNextBit s
      seqStep d s = .next { s with
        pcm := landAll s.pcm d
        csCursor := b.2.csCursor
        outbuf := s.outbuf.write (16 * (96 * s.refillHalf.toNat + s.refillSlot))
          (encodeSubframe (sample 0) s.actVmask (if b.1.blk then .b else .m) b.1.c ++
            encodeSubframe (sample sb) s.actVmask .w b.1.c)
        refillSlot := s.refillSlot + 1 }) ∧
    (s.refillSlot = 96 →
      ∃ t, seqStep d s = .next t ∧
        t = { s with
          pos := t.pos, periodAcc := t.periodAcc, sil := t.sil, notifyCount := t.notifyCount, notifyLog := t.notifyLog,
          refillActive := false, pcm := landAll s.pcm d } ∧
        (s.refillLive = true → t.sil = s.sil) ∧
        (s.refillLive = false → t.pos = s.pos ∧ t.periodAcc = s.periodAcc ∧ t.notifyCount = s.notifyCount ∧
          t.notifyLog = s.notifyLog))

/-- R178, R183, R185: 98 `seq` steps run one whole silence refill: the half the residue selects holds silence frames whose
channel-status bits run on from CS_CURSOR, the other half and everything else the rules do not name stay. -/
def Obligations.WholeSilenceRefill : Prop :=
  ∀ (s : State) (rest : List Stmt), s.program = expandRefill ++ rest → s.refillActive = false →
    s.cmdPending = false → s.evtPending = true → s.xferActive = true → s.sil ≠ 0 → s.csCursor.toNat < 192 →
    ∃ m : Memory,
      CleanRun 98 s { s with
        program := rest, evtPending := false, refillHalf := halfOf s.evtResidue, refillLive := false,
        refillSil := s.sil, refillSlot := 96, csCursor := BitVec.ofNat 8 ((s.csCursor.toNat + 96) % 192),
        sil := silInc s.sil, outbuf := m } ∧
      (∀ i, i < 96 → m.read (1536 * (halfOf s.evtResidue).toNat + 16 * i) 16 =
        some (silenceFrame s.actCs s.actVmask s.csCursor.toNat i)) ∧
      ∀ x, (x < 1536 * (halfOf s.evtResidue).toNat ∨ 1536 * (halfOf s.evtResidue).toNat + 1536 ≤ x) →
        m.get x = s.outbuf.get x

/-- R178, R182, R184: 98 `seq` steps run one whole live refill: slot i holds ring frame (POS + i) mod ACT_RING_FRAMES, and
the accounting of the refill is that of R184. -/
def Obligations.WholeLiveRefill : Prop :=
  ∀ (s : State) (rest : List Stmt), s.program = expandRefill ++ rest → s.refillActive = false →
    s.cmdPending = false → s.evtPending = true → s.xferActive = true → s.sil = 0 → s.csCursor.toNat < 192 →
    ActiveConfig s →
    ∃ m : Memory,
      CleanRun 98 s { s with
        program := rest, evtPending := false, refillHalf := halfOf s.evtResidue, refillLive := true,
        refillSil := 0, refillSlot := 96, csCursor := BitVec.ofNat 8 ((s.csCursor.toNat + 96) % 192),
        pos := BitVec.ofNat 32 ((s.pos.toNat + 96) % s.actRingFrames.toNat)
        periodAcc := BitVec.ofNat 32 ((s.periodAcc.toNat + 96) % s.actPeriodFrames.toNat)
        notifyCount := BitVec.ofNat 32 (s.notifyCount.toNat + (s.periodAcc.toNat + 96) / s.actPeriodFrames.toNat)
        notifyLog := s.notifyLog ++ List.replicate ((s.periodAcc.toNat + 96) / s.actPeriodFrames.toNat)
          (BitVec.ofNat 32 ((s.pos.toNat + 96) % s.actRingFrames.toNat))
        outbuf := m } ∧
      (∀ i, i < 96 → m.read (1536 * (halfOf s.evtResidue).toNat + 16 * i) 16 =
        some (liveFrame s ((s.pos.toNat + i) % s.actRingFrames.toNat) s.csCursor.toNat i)) ∧
      ∀ x, (x < 1536 * (halfOf s.evtResidue).toNat ∨ 1536 * (halfOf s.evtResidue).toNat + 1536 ≤ x) →
        m.get x = s.outbuf.get x

/-- R184, after the source's §8 property: over n live refills POS advances by 96 n in the ring and the notifications are
exactly floor(total / period), the count kept modulo 2^32 and one log entry each. -/
def Obligations.NotificationsAreExact : Prop :=
  ∀ (s : State) (n : Nat), s.refillLive = true → ActiveConfig s →
    (Nat.repeat refillEnd n s).pos.toNat = (s.pos.toNat + 96 * n) % s.actRingFrames.toNat ∧
    (Nat.repeat refillEnd n s).periodAcc.toNat = (s.periodAcc.toNat + 96 * n) % s.actPeriodFrames.toNat ∧
    (Nat.repeat refillEnd n s).notifyLog.length =
      s.notifyLog.length + (s.periodAcc.toNat + 96 * n) / s.actPeriodFrames.toNat ∧
    (Nat.repeat refillEnd n s).notifyCount =
      s.notifyCount + BitVec.ofNat 32 ((s.periodAcc.toNat + 96 * n) / s.actPeriodFrames.toNat)

/-- R175, which the spec derives: after SIL was set to 1 and n silence refills completed, START captures n + 1. -/
def Obligations.StartCapturesSilenceCount : Prop :=
  ∀ (s : State) (n : Nat), s.sil = 1 → s.configured = true → n + 1 < 4294967296 →
    ∃ t, exec .start (Nat.repeat (fun u => refillEnd (refillBegin u)) n s) = .next t ∧
      t.silCapture.toNat = n + 1 ∧ t.sil = 0

/-! ## The transfer collaborator -/

/-- R188: an emission with a transfer running. From the half an active refill is writing it is the fault UnderrunRace,
checked before the read; an unwritten byte of the slot is the fault UnwrittenRead; else the slot at DRAIN joins LINE,
DRAIN moves on modulo 192, and at DRAIN = 96 HALF_CONSUMED(1536), at the wrap HALF_CONSUMED(3072) is delivered. -/
def Obligations.EmissionDrainsSlot : Prop :=
  ∀ s : State, s.xferActive = true → s.drain < 192 →
    (s.refillActive = true → s.drain / 96 = s.refillHalf.toNat → emission s = .fault .underrunRace) ∧
    ((s.refillActive = false ∨ s.drain / 96 ≠ s.refillHalf.toNat) →
      (∃ i, i < 16 ∧ s.outbuf.get (16 * s.drain + i) = none) → emission s = .fault .unwrittenRead) ∧
    ∀ frame : List Byte, (s.refillActive = false ∨ s.drain / 96 ≠ s.refillHalf.toNat) →
      s.outbuf.read (16 * s.drain) 16 = some frame →
      emission s =
        (let t := { s with line := s.line ++ [frame], drain := (s.drain + 1) % 192 }
         if s.drain = 95 then exec (.halfConsumed 1536) t
         else if s.drain = 191 then exec (.halfConsumed 3072) t
         else .next t)

/-- R244 (b), which the spec derives from R187 and R188: while an event stays latched, the emission that completes the
other half faults EventOverrun, so no stale frame follows it. -/
def Obligations.LateUnderrunOverruns : Prop :=
  ∀ (s : State) (frame : List Byte), s.xferActive = true →
    (s.refillActive = false ∨ s.drain / 96 ≠ s.refillHalf.toNat) →
    s.outbuf.read (16 * s.drain) 16 = some frame → s.evtPending = true → (s.drain = 95 ∨ s.drain = 191) →
    emission s = .fault .eventOverrun

/-- R188, the spec's derived remark: with the collaborator's residue convention (log 23), the half R179 selects is the
half just drained. -/
def Obligations.ResidueSelectsDrainedHalf : Prop :=
  ∀ s t : State, s.drain < 192 → s.evtPending = false → emission s = .next t → t.evtPending = true →
    (halfOf t.evtResidue).toNat = s.drain / 96

/-- R78, the spec's derived remark: in every state of the invariant no emission of a running transfer reads an unwritten
byte. With no transfer the collaborator has no step (R190): one that emitted all the same is the fault UnwrittenRead over
an unwritten byte (R78, R237), and over a written slot the statement is refused by name (log 11). -/
def Obligations.EmissionNeverReadsUnwritten : Prop :=
  ∀ s : State,
    (Inv s → s.xferActive = true → emission s ≠ .fault .unwrittenRead) ∧
    (s.xferActive = false → (s.refillActive = false ∨ s.drain / 96 ≠ s.refillHalf.toNat) →
      ((∃ i, i < 16 ∧ s.outbuf.get (16 * s.drain + i) = none) → emission s = .fault .unwrittenRead) ∧
      ((∀ i, i < 16 → s.outbuf.get (16 * s.drain + i) ≠ none) → emission s = .refused .emissionNotEnabled))

/-- R249, which the spec derives from R169, R172 and R176: after STOP, the next START (of a configured block) or
successful PREPARE fills all of OUTBUF with silence before the first emission; PREPARE with a transfer running leaves
OUTBUF as it is. -/
def Obligations.NoSessionLeak : Prop :=
  ∀ s : State, s.csCursor.toNat < 192 →
    (s.configured = true →
      ∃ t u, exec .stop s = .next t ∧ exec .start t = .next u ∧
        SilenceFilled u.outbuf s.actCs s.actVmask s.csCursor.toNat ∧ u.sil = 0 ∧ u.pos = 0) ∧
    (∀ f, s.validFormat = some f →
      ∃ t u, exec .stop s = .next t ∧ exec .prepare t = .next u ∧ SilenceFilled u.outbuf s.csStage s.cfgVmask 0) ∧
    (s.xferActive = true → ∃ u, exec .prepare s = .next u ∧ u.outbuf = s.outbuf)

/-! ## The host port -/

/-- R80: an access that is not 32 bits wide, is misaligned or lies outside the aperture is the fault BadRegisterAccess. -/
def Obligations.BadAccessFaults : Prop :=
  ∀ (s : State) (width off : Nat) (w : Word), (width ≠ 32 ∨ off % 4 ≠ 0 ∨ 0x2000 ≤ off) →
    hostRead width off s = .fault .badRegisterAccess ∧ hostWrite width off w s = .fault .badRegisterAccess

/-- R23, R42: every register stands at its offset of the map and nowhere else; a read of a read-only register observes its
field with zeros above (R33 to R40; a read of POS is R191's pointer query) and changes nothing else; an aligned word of
the aperture at any other offset reads 0 and ignores writes. -/
def Obligations.RegisterMapIsExact : Prop :=
  (regAt 0x000 = some .cmd ∧ regAt 0x004 = some .status ∧ regAt 0x008 = some .cfgFormat ∧
    regAt 0x00C = some .cfgRate ∧ regAt 0x010 = some .cfgRingBase ∧ regAt 0x014 = some .cfgRingFrames ∧
    regAt 0x018 = some .cfgPeriodFrames ∧ regAt 0x01C = some .cfgVmask ∧ regAt 0x040 = some .pos ∧
    regAt 0x044 = some .periodAcc ∧ regAt 0x048 = some .silCount ∧ regAt 0x04C = some .silCapture ∧
    regAt 0x050 = some .csCursor ∧ regAt 0x054 = some .notifyCount ∧ regAt 0x060 = some .actFormat ∧
    regAt 0x064 = some .actRate ∧ regAt 0x068 = some .actRingBase ∧ regAt 0x06C = some .actRingFrames ∧
    regAt 0x070 = some .actPeriodFrames ∧ regAt 0x074 = some .actVmask) ∧
  (∀ k : Fin 6, regAt (0x020 + 4 * k.val) = some (.csStage k) ∧ regAt (0x080 + 4 * k.val) = some (.actCs k)) ∧
  (∀ k : Fin 768, regAt (0x1000 + 4 * k.val) = some (.outbuf k)) ∧
  (∀ r : Reg, regAt r.offset = some r) ∧
  (∀ (off : Nat) (r : Reg), regAt off = some r → off = r.offset) ∧
  (∀ s : State,
    let observes := fun (off : Nat) (w : Word) => hostRead 32 off s = .next { s with reads := s.reads ++ [(off, w)] }
    observes 0x040 s.pos ∧ observes 0x044 s.periodAcc ∧ observes 0x048 s.sil ∧ observes 0x04C s.silCapture ∧
    observes 0x050 (0#24 ++ s.csCursor) ∧ observes 0x054 s.notifyCount ∧
    observes 0x060 (match s.actFormat with | .s16le => 0 | .s24le => 1 | .s24le3 => 2 | .s32le => 3) ∧
    observes 0x064 s.actRate ∧ observes 0x068 s.actRingBase ∧ observes 0x06C s.actRingFrames ∧
    observes 0x070 s.actPeriodFrames ∧ observes 0x074 (0#8 ++ s.actVmask) ∧
    ∀ k : Fin 6, observes (0x080 + 4 * k.val)
      (s.actCs[4 * k.val + 3] ++ s.actCs[4 * k.val + 2] ++ s.actCs[4 * k.val + 1] ++ s.actCs[4 * k.val])) ∧
  ∀ (s : State) (off : Nat) (w : Word), off % 4 = 0 →
    (0x034 < off ∧ off < 0x040 ∨ 0x054 < off ∧ off < 0x060 ∨ 0x074 < off ∧ off < 0x080 ∨ 0x094 < off ∧ off < 0x1000 ∨
      0x1BFC < off ∧ off < 0x2000) →
    hostRead 32 off s = .next { s with reads := s.reads ++ [(off, 0)] } ∧ hostWrite 32 off w s = .next s

/-- R81: a host read changes nothing but the observation, so a second read sees what the first saw; a host write changes
nothing but the command latch and the staging registers, and nothing at all at STATUS, at the read-only registers and at
the reserved offsets (R23: STATUS, and everything from 0x038 up). -/
def Obligations.HostAccessSideEffects : Prop :=
  ∀ (s t : State) (width off : Nat) (w : Word),
    (hostRead width off s = .next t → t = { s with reads := t.reads } ∧ readOffset off t = readOffset off s) ∧
    (hostWrite width off w s = .next t →
      t = { s with
        cmdPending := t.cmdPending, cmdLatch := t.cmdLatch, cfgFormat := t.cfgFormat, cfgRate := t.cfgRate,
        cfgRingBase := t.cfgRingBase, cfgRingFrames := t.cfgRingFrames, cfgPeriodFrames := t.cfgPeriodFrames,
        cfgVmask := t.cfgVmask, csStage := t.csStage }) ∧
    ((off = 0x004 ∨ 0x038 ≤ off) → off % 4 = 0 → off < 0x2000 → hostWrite 32 off w s = .next s)

/-- R25: the command port: a write is latched when none is pending and dropped when one is; a read returns 0. -/
def Obligations.CommandPortLatchesOnce : Prop :=
  ∀ (s : State) (w : Word),
    (s.cmdPending = false → hostWrite 32 0x000 w s = .next { s with cmdPending := true, cmdLatch := w }) ∧
    (s.cmdPending = true → hostWrite 32 0x000 w s = .next s) ∧
    hostRead 32 0x000 s = .next { s with reads := s.reads ++ [(0x000, 0)] }

/-- R24: the fields of STATUS. -/
def Obligations.StatusFields : Prop :=
  ∀ s : State,
    hostRead 32 0x004 s = .next { s with reads := s.reads ++ [(0x004, s.statusWord)] } ∧
    (∀ w, hostWrite 32 0x004 w s = .next s) ∧
    s.statusWord.getLsbD 0 = s.cmdPending ∧ s.statusWord.getLsbD 1 = s.refillActive ∧
    s.statusWord.getLsbD 2 = s.evtPending ∧ s.statusWord.getLsbD 3 = s.xferActive ∧
    s.statusWord.getLsbD 4 = s.configured ∧ s.statusWord.getLsbD 5 = decide (s.sil = 0) ∧
    s.statusWord.extractLsb' 6 2 = 0 ∧
    (s.statusWord.extractLsb' 8 4).toNat =
      (match s.lastResult with | .ok => 0 | .errConfig => 1 | .errResource => 2 | .errBadcmd => 3) ∧
    s.statusWord.extractLsb' 12 1 = s.refillHalf ∧ s.statusWord.getLsbD 13 = s.refillLive ∧
    s.statusWord.extractLsb' 14 18 = 0

/-- R26 to R31: a write of a configuration register stages its word for the next PREPARE and nothing else; CFG_FORMAT
keeps bits 3:0 and CFG_VMASK bits 23:0, whose other bits read as 0. -/
def Obligations.StagingRegistersKeepWrites : Prop :=
  ∀ (s : State) (w : Word),
    hostWrite 32 0x008 w s = .next { s with cfgFormat := w.extractLsb' 0 4 } ∧
    hostWrite 32 0x00C w s = .next { s with cfgRate := w } ∧
    hostWrite 32 0x010 w s = .next { s with cfgRingBase := w } ∧
    hostWrite 32 0x014 w s = .next { s with cfgRingFrames := w } ∧
    hostWrite 32 0x018 w s = .next { s with cfgPeriodFrames := w } ∧
    hostWrite 32 0x01C w s = .next { s with cfgVmask := w.extractLsb' 0 24 } ∧
    (let observes := fun (off : Nat) (v : Word) => hostRead 32 off s = .next { s with reads := s.reads ++ [(off, v)] }
     observes 0x008 (0#28 ++ s.cfgFormat) ∧ observes 0x00C s.cfgRate ∧ observes 0x010 s.cfgRingBase ∧
     observes 0x014 s.cfgRingFrames ∧ observes 0x018 s.cfgPeriodFrames ∧ observes 0x01C (0#8 ++ s.cfgVmask))

/-- R32: CS_STAGEk holds message byte 4k+j at bits [8j+7:8j]; a write of it completes in every state, all 32 bits are
writable and read back, and it changes no other byte of the message and nothing else. -/
def Obligations.StagedMessagePacking : Prop :=
  ∀ (s : State) (k : Fin 6) (w : Word),
    ∃ v : Vector Byte 24,
      hostWrite 32 (0x020 + 4 * k.val) w s = .next { s with csStage := v } ∧
      hostRead 32 (0x020 + 4 * k.val) { s with csStage := v } =
        .next { s with csStage := v, reads := s.reads ++ [(0x020 + 4 * k.val, w)] } ∧
      ∀ (i : Nat) (h : i < 24),
        v[i] = if i / 4 = k.val then w.extractLsb' (8 * (i % 4)) 8 else s.csStage[i]

/-- R41: a window read packs four OUTBUF bytes little-endian, and is the fault UnwrittenRead when one is unwritten; a
window write is ignored. -/
def Obligations.WindowReadsOutbuf : Prop :=
  ∀ (s : State) (k : Nat) (w : Word), k < 768 →
    (∀ b0 b1 b2 b3 : Byte, s.outbuf.read (4 * k) 4 = some [b0, b1, b2, b3] →
      hostRead 32 (0x1000 + 4 * k) s = .next { s with reads := s.reads ++ [(0x1000 + 4 * k, b3 ++ b2 ++ b1 ++ b0)] }) ∧
    ((∃ i, i < 4 ∧ s.outbuf.get (4 * k + i) = none) → hostRead 32 (0x1000 + 4 * k) s = .fault .unwrittenRead) ∧
    hostWrite 32 (0x1000 + 4 * k) w s = .next s

/-- R72: a `pcm` statement writes its bytes at addr, addr+1, ... and no other byte of PCM memory, and touches nothing of
the block; past address 2^32 - 1 it is refused by name (log 14). -/
def Obligations.HostPcmWritesLand : Prop :=
  ∀ (s : State) (addr : BitVec 32) (bytes : List Byte) (rest : List Stmt), s.program = .pcm addr bytes :: rest →
    (addr.toNat + bytes.length ≤ 4294967296 →
      ∃ m : Memory, step s = .next { s with program := rest, pcm := m } ∧
        (∀ i, i < bytes.length → m.get (addr.toNat + i) = bytes[i]?) ∧
        ∀ x, (x < addr.toNat ∨ addr.toNat + bytes.length ≤ x) → m.get x = s.pcm.get x) ∧
    (4294967296 < addr.toNat + bytes.length → step s = .refused .pcmBeyondMemory)

/-! ## The machine -/

/-- R52, R235: the values after reset; OUTBUF wholly unwritten, the logs empty. That SEQ has no enabled step is R236,
which the spec derives from R235 and R165. -/
def Obligations.ResetTable : Prop :=
  let s := State.reset
  s.cfgFormat = 0 ∧ s.cfgRate = 0 ∧ s.cfgRingBase = 0 ∧ s.cfgRingFrames = 0 ∧ s.cfgPeriodFrames = 0 ∧
  s.cfgVmask = 0xFFFFFF ∧ (∀ (i : Nat) (h : i < 24), s.csStage[i] = 0) ∧ (∀ (i : Nat) (h : i < 24), s.actCs[i] = 0) ∧
  s.configured = false ∧ s.actFormat.code = 0 ∧ s.actRate = 0 ∧ s.actRingBase = 0 ∧ s.actRingFrames = 0 ∧
  s.actPeriodFrames = 0 ∧ s.actVmask = 0xFFFFFF ∧ s.csCursor = 0 ∧ s.pos = 0 ∧ s.periodAcc = 0 ∧
  s.silCapture = 0 ∧ s.notifyCount = 0 ∧ s.sil = 1 ∧ s.cmdPending = false ∧ s.cmdLatch = 0 ∧
  s.lastResult = .ok ∧ s.xferActive = false ∧ s.evtPending = false ∧ s.evtResidue = 0 ∧
  s.refillActive = false ∧ s.refillHalf = 0 ∧ s.refillLive = false ∧ s.refillSlot = 0 ∧ s.refillSil = 0 ∧
  s.drain = 0 ∧ (∀ a, s.outbuf.get a = none) ∧ s.line = [] ∧ s.notifyLog = [] ∧ s.seqMove = none

/-- R235: the hardware reset puts every field at its value after reset and empties the logs, from every state; that the
inputs (PCM memory, the rest of the program, ENV's answer) stay is the model's (log 15). R237: a collaborator that emits
after it reads an unwritten byte, the fault UnwrittenRead. -/
def Obligations.HardwareResetRestores : Prop :=
  ∀ (s : State) (rest : List Stmt), s.program = .rst :: rest →
    step s = .next { State.reset with pcm := s.pcm, program := rest, ackNext := s.ackNext } ∧
    ∀ more : List Stmt, rest = .emit :: more → runSteps 2 s = .fault .unwrittenRead

/-- The invariant holds at reset. -/
def Obligations.ResetMeetsInvariant : Prop := Inv State.reset

/-- Every step of every agent keeps the invariant, from every state that meets it. -/
def Obligations.StepKeepsInvariant : Prop :=
  ∀ s t : State, Inv s → step s = .next t → Inv t

/-- R47: no step but a hardware reset shortens or rewrites LINE or NOTIFY_LOG. -/
def Obligations.LogsOnlyGrow : Prop :=
  ∀ s t : State, s.program.head? ≠ some .rst → step s = .next t →
    (∃ more, t.line = s.line ++ more) ∧ (∃ more, t.notifyLog = s.notifyLog ++ more)

/-- R251, R165: a command latched while a refill is active or not is executed by SEQ steps alone: from every state of the
invariant with a command pending, at most 98 `seq` steps later it has been executed. So the host loop `wait` (R108) ends:
SEQ steps between its reads (log 24), and its last read shows CMD_PENDING = 0. -/
def Obligations.PendingCommandIsExecuted : Prop :=
  ∀ (s : State) (rest : List Stmt), Inv s → s.cmdPending = true →
    (s.program = List.replicate 98 (.seq []) ++ rest →
      ∃ n t, n ≤ 98 ∧ CleanRun n s t ∧ t.cmdPending = false) ∧
    (s.program = .wait [] :: rest →
      ∃ n t, n ≤ 197 ∧ CleanRun n s t ∧ t.program = rest ∧ t.cmdPending = false ∧
        t.reads.getLast? = some (0x004, t.statusWord))

/-- R82: a MemRead is atomic only per byte. With host writes landing between the byte reads of one frame (log 13: entry i
just before read i), byte i is what PCM memory holds once the entries up to i have landed; a live frame so read takes its
left sample from the first SB reads and its right from the next SB, and every write of the step has landed after it. -/
def Obligations.HostWritesTearMemReads : Prop :=
  (∀ (m : Memory) (a n : Nat) (d : During),
    (readPcm a n d m).bytes = (List.range n).map (fun i => pcmByte (landAll m (d.take (i + 1))) (a + i)) ∧
    (readPcm a n d m).mem = landAll m (d.take n) ∧ (readPcm a n d m).during = d.drop n) ∧
  ∀ (s : State) (f k : Nat) (d : During),
    let sb := s.actFormat.sampleBytes
    let a := s.actRingBase.toNat + f * s.actFormat.frameBytes
    let sample := fun first : Nat =>
      decodeSample s.actFormat
        ((List.range sb).map (fun i => pcmByte (landAll s.pcm (d.take (first + i + 1))) (a + first + i)))
    let b := csNextBit s
    let slot := fun l r : Sample =>
      encodeSubframe l s.actVmask (if b.1.blk then .b else .m) b.1.c ++ encodeSubframe r s.actVmask .w b.1.c
    assembleFrame (.pcm f) k d s =
      { s with
        pcm := landAll s.pcm d
        csCursor := b.2.csCursor
        outbuf := s.outbuf.write (16 * k) (slot (sample 0) (sample sb)) } ∧
    assembleFrame .silence k d s =
      { s with pcm := landAll s.pcm d, csCursor := b.2.csCursor, outbuf := s.outbuf.write (16 * k) (slot 0 0) }
end

