-- ==== Sys2Proof/Laws/Encoder.lean ====
section
/-!
SUPPORT. Lemmas of the subframe encoder: lengths, the fields of the logical word, the cells of the biphase code, and that
packing and the code are undone by R136's decoding.
-/

namespace Sys2Proof.Machine

/-! ## Lengths -/

@[simp] theorem slotsFrom_length (sf : Word) (lo n : Nat) : (slotsFrom sf lo n).length = n := by
  induction n generalizing lo with
  | zero => rfl
  | succ n ih => simp [slotsFrom, ih]

@[simp] theorem biphase_length (l : Bool) (ds : List Bool) : (biphase l ds).length = 2 * ds.length := by
  induction ds generalizing l with
  | nil => rfl
  | cons d ds ih => simp only [biphase, List.length_cons, ih]; omega

@[simp] theorem preambleCells_length (pre : Preamble) : pre.cells.length = 8 := by cases pre <;> rfl

@[simp] theorem subframeCells_length (pre : Preamble) (sf : Word) : (subframeCells pre sf).length = 64 := by
  simp [subframeCells]

theorem packCells_length (n : Nat) (cs : List Bool) (h : cs.length = 8 * n) : (packCells cs).length = n := by
  induction n generalizing cs with
  | zero =>
    have : cs = [] := List.eq_nil_of_length_eq_zero (by omega)
    subst this; rfl
  | succ n ih =>
    match cs, h with
    | c0 :: c1 :: c2 :: c3 :: c4 :: c5 :: c6 :: c7 :: rest, h =>
      simp only [packCells, List.length_cons]
      rw [ih rest (by simp only [List.length_cons] at h; omega)]

@[simp] theorem encodeSubframe_length (p : Sample) (vm : BitVec 24) (pre : Preamble) (c : Bool) :
    (encodeSubframe p vm pre c).length = 8 :=
  packCells_length 8 _ (by simp)

/-! ## Undoing the packing and the code -/

theorem cellsOfByte_byteOfCells (c0 c1 c2 c3 c4 c5 c6 c7 : Bool) :
    cellsOfByte (byteOfCells c0 c1 c2 c3 c4 c5 c6 c7) = [c0, c1, c2, c3, c4, c5, c6, c7] := by
  revert c0 c1 c2 c3 c4 c5 c6 c7; decide

/-- Unpacking undoes packing of whole bytes. -/
theorem cellsOfBytes_packCells (n : Nat) (cs : List Bool) (h : cs.length = 8 * n) :
    cellsOfBytes (packCells cs) = cs := by
  induction n generalizing cs with
  | zero =>
    have : cs = [] := List.eq_nil_of_length_eq_zero (by omega)
    subst this; rfl
  | succ n ih =>
    match cs, h with
    | c0 :: c1 :: c2 :: c3 :: c4 :: c5 :: c6 :: c7 :: rest, h =>
      have := ih rest (by simp only [List.length_cons] at h; omega)
      simp only [packCells, cellsOfBytes, List.flatMap_cons, cellsOfByte_byteOfCells] at this ⊢
      simp [this]

/-- The code is undone pair by pair (R136). -/
theorem slotsOfCells_biphase (l : Bool) (ds : List Bool) : slotsOfCells (biphase l ds) = ds := by
  induction ds generalizing l with
  | nil => rfl
  | cons d ds ih =>
    simp only [biphase, slotsOfCells, ih]
    cases l <;> cases d <;> rfl

/-- Slot `i` of a run of slots. -/
theorem slotsFrom_getElem? (sf : Word) (lo n i : Nat) :
    (slotsFrom sf lo n)[i]? = if i < n then some (sf.getLsbD (lo + i)) else none := by
  induction n generalizing lo i with
  | zero => simp [slotsFrom]
  | succ n ih =>
    cases i with
    | zero => simp [slotsFrom]
    | succ i => simp [slotsFrom, ih, Nat.add_assoc, Nat.add_comm 1]

/-- The bits of a number made from bits. -/
theorem natOfBits_testBit (bs : List Bool) (i : Nat) : (natOfBits bs).testBit i = bs[i]?.getD false := by
  induction bs generalizing i with
  | nil => simp [natOfBits]
  | cons b bs ih =>
    cases i with
    | zero => cases b <;> simp [natOfBits, Nat.testBit_zero]
    | succ i =>
      have : (b.toNat + 2 * natOfBits bs) / 2 = natOfBits bs := by cases b <;> simp <;> omega
      simp [natOfBits, Nat.testBit_succ, this, ih]

/-! ## Levels -/

/-- The XOR of a run of slots. -/
def xorAll : List Bool → Bool
  | [] => false
  | d :: ds => d ^^ xorAll ds

/-- The level after the code of `ds`: one toggle per slot and one more per 1 (R131). -/
theorem biphase_getLast? (l : Bool) (d : Bool) (ds : List Bool) :
    (biphase l (d :: ds)).getLast? = some (l ^^ (((d :: ds).length % 2 == 1) ^^ xorAll (d :: ds))) := by
  induction ds generalizing l d with
  | nil => cases l <;> cases d <;> rfl
  | cons e es ih =>
    have h := ih ((!l) ^^ d) e
    have step : (biphase l (d :: e :: es)).getLast? = (biphase ((!l) ^^ d) (e :: es)).getLast? := by
      simp only [biphase, List.getLast?_cons_cons]
    rw [step, h]
    have hl : ((d :: e :: es).length % 2 == 1) = !((e :: es).length % 2 == 1) := by
      simp only [List.length_cons]
      rcases Nat.mod_two_eq_zero_or_one es.length with h | h <;> simp [Nat.add_mod, h]
    rw [hl]
    simp only [xorAll]
    cases l <;> cases d <;> cases ((e :: es).length % 2 == 1) <;> cases e <;> simp

theorem xorAll_slotsFrom (sf : Word) (lo n : Nat) : xorAll (slotsFrom sf lo n) = parityOf sf lo n := by
  have snoc : ∀ (xs : List Bool) (y : Bool), xorAll (xs ++ [y]) = (xorAll xs ^^ y) := by
    intro xs y
    induction xs with
    | nil => cases y <;> rfl
    | cons x xs ih => simp [xorAll, ih]
  have step : ∀ n lo, slotsFrom sf lo (n + 1) = slotsFrom sf lo n ++ [sf.getLsbD (lo + n)] := by
    intro n
    induction n with
    | zero => intro lo; rfl
    | succ n ih =>
      intro lo
      have := ih (lo + 1)
      rw [slotsFrom, this]
      simp [slotsFrom, Nat.add_assoc, Nat.add_comm 1]
  induction n with
  | zero => rfl
  | succ n ih => rw [step, snoc, ih, parityOf, Bool.xor_comm]

/-! ## The logical word -/

/-- The parity of a run of slots depends on those slots alone. -/
theorem parityOf_congr (a b : Word) (lo n : Nat) (h : ∀ i, lo ≤ i → i < lo + n → a.getLsbD i = b.getLsbD i) :
    parityOf a lo n = parityOf b lo n := by
  induction n with
  | zero => rfl
  | succ n ih =>
    rw [parityOf, parityOf, h _ (by omega) (by omega), ih fun i h1 h2 => h i h1 (by omega)]

/-- Below slot 31 the logical word is its body. -/
theorem subframeWord_low (payload : BitVec 24) (c : Bool) (i : Nat) (h : i < 31) :
    (subframeWord payload c).getLsbD i = (subframeBody payload c).getLsbD i := by
  simp only [subframeWord, BitVec.getLsbD_append, h, if_true, BitVec.getLsbD_extractLsb', decide_true,
    Bool.true_and, Nat.zero_add]

/-- Slot 31 is the parity of slots 4..30 (R128). -/
theorem subframeWord_p (payload : BitVec 24) (c : Bool) :
    (subframeWord payload c).getLsbD 31 = parityOf (subframeWord payload c) 4 27 := by
  rw [parityOf_congr _ (subframeBody payload c) 4 27 fun i _ h => subframeWord_low payload c i (by omega)]
  simp only [subframeWord, BitVec.getLsbD_append]
  simp

/-- Slots 4..27 are the payload (R127). -/
theorem subframeBody_payload (payload : BitVec 24) (c : Bool) (i : Nat) (h : i < 24) :
    (subframeBody payload c).getLsbD (4 + i) = payload.getLsbD i := by
  simp only [subframeBody, BitVec.getLsbD_append]
  simp [h, show ¬ (4 + i < 4) by omega]

/-- Slots 0..3, 28, 29 and 30 (R127). -/
theorem subframeBody_fixed (payload : BitVec 24) (c : Bool) :
    (∀ i, i < 4 → (subframeBody payload c).getLsbD i = false) ∧ (subframeBody payload c).getLsbD 28 = false ∧
      (subframeBody payload c).getLsbD 29 = false ∧ (subframeBody payload c).getLsbD 30 = c := by
  refine ⟨fun i h => ?_, ?_, ?_, ?_⟩
  · simp only [subframeBody, BitVec.getLsbD_append, h]
    simp
  · simp only [subframeBody, BitVec.getLsbD_append]
    simp
  · simp only [subframeBody, BitVec.getLsbD_append]
    simp
  · simp only [subframeBody, BitVec.getLsbD_append]
    simp

end Sys2Proof.Machine
end

