-- ==== Sys2Proof/Laws/Memory.lean ====
section
/-!
SUPPORT. The laws of byte memory: read after write, reads elsewhere, the canonical form and the address range.
-/

namespace Sys2Proof.Machine

@[simp] theorem cellsFrom_nil (a : Nat) : cellsFrom a [] = [] := rfl

@[simp] theorem cellsFrom_cons (a : Nat) (b : Byte) (bs : List Byte) :
    cellsFrom a (b :: bs) = (a, b) :: cellsFrom (a + 1) bs := rfl

theorem get_nil (x : Nat) : Memory.get [] x = none := rfl

theorem get_cons (k : Nat) (b : Byte) (m : Memory) (x : Nat) :
    Memory.get ((k, b) :: m) x = if k = x then some b else Memory.get m x := rfl

/-- An address outside an appended part is looked up in the rest. -/
theorem get_append (m n : Memory) (x : Nat) :
    Memory.get (m ++ n) x = (Memory.get m x).or (Memory.get n x) := by
  induction m with
  | nil => simp [get_nil]
  | cons c m ih =>
    obtain ⟨k, b⟩ := c
    simp only [List.cons_append, get_cons]
    split <;> simp [ih]

theorem get_cellsFrom (a : Nat) (bs : List Byte) (x : Nat) :
    Memory.get (cellsFrom a bs) x = if a ≤ x then bs[x - a]? else none := by
  induction bs generalizing a with
  | nil => simp [get_nil]
  | cons b bs ih =>
    simp only [cellsFrom_cons, get_cons, ih]
    by_cases h : a = x
    · subst h; simp
    · by_cases h1 : a ≤ x
      · obtain ⟨n, rfl⟩ : ∃ n, x = a + 1 + n := ⟨x - (a + 1), by omega⟩
        simp [h, h1, show a + 1 + n - a = n + 1 by omega]
      · simp [h, h1, show ¬ a + 1 ≤ x by omega]

theorem get_splice (cells : Memory) (a e x : Nat) (m : Memory)
    (hin : a ≤ x ∧ x < e → (cells.get x).isSome = true) (hout : ¬(a ≤ x ∧ x < e) → cells.get x = none) :
    Memory.get (splice cells a e m) x = if a ≤ x ∧ x < e then cells.get x else m.get x := by
  induction m with
  | nil =>
    rw [splice, get_nil]
    split
    · rfl
    · exact hout ‹_›
  | cons c rest ih =>
    obtain ⟨k, b⟩ := c
    by_cases h1 : k < a
    · rw [splice, if_pos h1, get_cons, get_cons, ih]
      by_cases hk : k = x
      · simp [hk, show ¬ a ≤ x by omega]
      · simp [hk]
    · by_cases h2 : k < e
      · rw [splice, if_neg h1, if_pos h2, get_cons, ih]
        by_cases hk : k = x
        · simp [show a ≤ x by omega, show x < e by omega]
        · simp [hk]
      · rw [splice, if_neg h1, if_neg h2, get_append]
        by_cases hx : a ≤ x ∧ x < e
        · obtain ⟨v, hv⟩ := Option.isSome_iff_exists.mp (hin hx)
          rw [if_pos hx, hv]; rfl
        · rw [if_neg hx, hout hx]; rfl

/-- THE SPEC OF A WRITE: the bytes written from `a` on, every other address as before. -/
theorem get_write (m : Memory) (a : Nat) (bs : List Byte) (x : Nat) :
    (m.write a bs).get x = if a ≤ x ∧ x < a + bs.length then bs[x - a]? else m.get x := by
  rw [Memory.write, get_splice]
  · split
    · rename_i h
      rw [get_cellsFrom, if_pos h.1]
    · rfl
  · intro h
    rw [get_cellsFrom, if_pos h.1, List.getElem?_eq_getElem (by omega)]; rfl
  · intro h
    rw [get_cellsFrom]
    split
    · exact List.getElem?_eq_none (by omega)
    · rfl

theorem get_write_other (m : Memory) (a : Nat) (bs : List Byte) (x : Nat) (h : x < a ∨ a + bs.length ≤ x) :
    (m.write a bs).get x = m.get x := by
  rw [get_write, if_neg (by omega)]

/-- THE SPEC OF A READ of several bytes. -/
theorem read_eq_some (m : Memory) (a n : Nat) (bs : List Byte) :
    m.read a n = some bs ↔ bs.length = n ∧ ∀ i, i < n → m.get (a + i) = bs[i]? := by
  induction n generalizing a bs with
  | zero => cases bs <;> simp [Memory.read]
  | succ n ih =>
    simp only [Memory.read]
    cases bs with
    | nil => cases m.get a <;> cases Memory.read m (a + 1) n <;> simp
    | cons b bs =>
      have key : (∀ i, i < n + 1 → m.get (a + i) = (b :: bs)[i]?) ↔
          (m.get a = some b ∧ ∀ i, i < n → m.get (a + 1 + i) = bs[i]?) := by
        constructor
        · intro h
          refine ⟨by simpa using h 0 (by omega), fun i hi => ?_⟩
          have := h (i + 1) (by omega)
          simpa [Nat.add_assoc, Nat.add_comm 1] using this
        · rintro ⟨h0, h⟩ i hi
          cases i with
          | zero => simpa using h0
          | succ i =>
            have := h i (by omega)
            simpa [Nat.add_assoc, Nat.add_comm 1] using this
      rw [key, List.length_cons, Nat.add_right_cancel_iff]
      cases hg : m.get a with
      | none => simp
      | some b' =>
        cases hr : Memory.read m (a + 1) n with
        | none =>
          simp only [reduceCtorEq, false_iff, Option.some.injEq]
          rintro ⟨hl, -, h⟩
          have := (ih (a + 1) bs).mpr ⟨hl, h⟩
          simp [hr] at this
        | some bs' =>
          simp only [Option.some.injEq, List.cons.injEq]
          have := ih (a + 1) bs
          rw [hr, Option.some.injEq] at this
          rw [this]
          exact and_left_comm

theorem read_length (m : Memory) (a n : Nat) (bs : List Byte) (h : m.read a n = some bs) : bs.length = n :=
  ((read_eq_some m a n bs).mp h).1

/-- A read sees only the bytes it covers. -/
theorem read_congr (m m' : Memory) (a n : Nat) (h : ∀ i, i < n → m.get (a + i) = m'.get (a + i)) :
    m.read a n = m'.read a n := by
  induction n generalizing a with
  | zero => rfl
  | succ n ih =>
    have h0 := h 0 (by omega)
    have := ih (a + 1) (fun i hi => by
      have := h (i + 1) (by omega)
      simpa [Nat.add_assoc, Nat.add_comm 1] using this)
    simp only [Nat.add_zero] at h0
    simp only [Memory.read, h0, this]

theorem read_write_same (m : Memory) (a : Nat) (bs : List Byte) : (m.write a bs).read a bs.length = some bs := by
  rw [read_eq_some]
  refine ⟨rfl, fun i hi => ?_⟩
  rw [get_write, if_pos (by omega), Nat.add_sub_cancel_left]

theorem read_write_other (m : Memory) (a : Nat) (bs : List Byte) (x n : Nat)
    (h : x + n ≤ a ∨ a + bs.length ≤ x) : (m.write a bs).read x n = m.read x n :=
  read_congr _ _ _ _ fun i hi => get_write_other _ _ _ _ (by omega)

/-- A read succeeds exactly when every byte it covers is written. -/
theorem read_isSome (m : Memory) (a n : Nat) :
    (m.read a n).isSome = true ↔ ∀ i, i < n → (m.get (a + i)).isSome = true := by
  induction n generalizing a with
  | zero => simp [Memory.read]
  | succ n ih =>
    have key : (∀ i, i < n + 1 → (m.get (a + i)).isSome = true) ↔
        ((m.get a).isSome = true ∧ ∀ i, i < n → (m.get (a + 1 + i)).isSome = true) := by
      constructor
      · intro h
        refine ⟨by simpa using h 0 (by omega), fun i hi => ?_⟩
        have := h (i + 1) (by omega)
        simpa [Nat.add_assoc, Nat.add_comm 1] using this
      · rintro ⟨h0, h⟩ i hi
        cases i with
        | zero => simpa using h0
        | succ i =>
          have := h i (by omega)
          simpa [Nat.add_assoc, Nat.add_comm 1] using this
    rw [key, ← ih]
    simp only [Memory.read]
    cases m.get a <;> cases Memory.read m (a + 1) n <;> simp

/-! ## The canonical form and the address range -/

theorem mem_cellsFrom (a : Nat) (bs : List Byte) (c : Host.Cell) (h : c ∈ cellsFrom a bs) :
    a ≤ c.1 ∧ c.1 < a + bs.length := by
  induction bs generalizing a with
  | nil => simp at h
  | cons b bs ih =>
    simp only [cellsFrom_cons, List.mem_cons] at h
    rcases h with rfl | h
    · simp
    · have := ih _ h
      simp only [List.length_cons]
      omega

theorem cellsFrom_wf (a : Nat) (bs : List Byte) : (cellsFrom a bs).wf := by
  induction bs generalizing a with
  | nil => exact List.Pairwise.nil
  | cons b bs ih =>
    refine List.Pairwise.cons (fun c hc => ?_) (ih _)
    have := mem_cellsFrom _ _ _ hc
    simp only
    omega

theorem mem_splice (cells : Memory) (a e : Nat) (m : Memory) (c : Host.Cell) (h : c ∈ splice cells a e m) :
    c ∈ cells ∨ c ∈ m := by
  induction m with
  | nil => exact .inl h
  | cons d rest ih =>
    obtain ⟨k, b⟩ := d
    simp only [splice] at h
    split at h
    · rcases List.mem_cons.mp h with h | h
      · exact .inr (List.mem_cons.mpr (.inl h))
      · exact (ih h).imp_right (List.mem_cons_of_mem _)
    · split at h
      · exact (ih h).imp_right (List.mem_cons_of_mem _)
      · exact List.mem_append.mp h

theorem splice_wf (cells : Memory) (a e : Nat) (m : Memory) (hc : cells.wf) (hr : ∀ c ∈ cells, a ≤ c.1 ∧ c.1 < e)
    (h : m.wf) : Memory.wf (splice cells a e m) := by
  induction m with
  | nil => exact hc
  | cons d rest ih =>
    obtain ⟨k, b⟩ := d
    obtain ⟨h1, h2⟩ := List.pairwise_cons.mp h
    simp only [splice]
    split
    · refine List.pairwise_cons.mpr ⟨fun c hm => ?_, ih h2⟩
      rcases mem_splice _ _ _ _ _ hm with hm | hm
      · have := hr c hm
        simp only
        omega
      · exact h1 c hm
    · split
      · exact ih h2
      · refine List.pairwise_append.mpr ⟨hc, h, fun c hm d hd => ?_⟩
        have := hr c hm
        rcases List.mem_cons.mp hd with rfl | hd
        · simp only
          omega
        · have := h1 d hd
          simp only at this
          omega

/-- Every write keeps the canonical form. -/
theorem write_wf (m : Memory) (a : Nat) (bs : List Byte) (h : m.wf) : (m.write a bs).wf :=
  splice_wf _ _ _ _ (cellsFrom_wf a bs) (fun c hc => mem_cellsFrom a bs c hc) h

/-- A write inside a bound keeps every address inside it. -/
theorem write_range (m : Memory) (a : Nat) (bs : List Byte) (bound : Nat) (hb : a + bs.length ≤ bound)
    (h : ∀ c ∈ m, c.1 < bound) : ∀ c ∈ m.write a bs, c.1 < bound := by
  intro c hc
  rcases mem_splice _ _ _ _ _ hc with hc | hc
  · have := mem_cellsFrom _ _ _ hc
    omega
  · exact h c hc

/-- A written byte stays written. -/
theorem get_write_isSome (m : Memory) (a : Nat) (bs : List Byte) (x : Nat) (h : (m.get x).isSome = true) :
    ((m.write a bs).get x).isSome = true := by
  rw [get_write]
  split
  · rw [List.getElem?_eq_getElem (by omega)]; rfl
  · exact h

/-! ## Host writes of PCM memory -/

theorem landWrites_keeps (P : Memory → Prop) (hw : ∀ m (w : PcmWrite), P m → P (m.write w.addr.toNat [w.byte]))
    (m : Memory) (ws : List PcmWrite) (h : P m) : P (landWrites m ws) := by
  induction ws generalizing m with
  | nil => exact h
  | cons w ws ih => exact ih _ (hw _ _ h)

theorem landAll_keeps (P : Memory → Prop) (hw : ∀ m (w : PcmWrite), P m → P (m.write w.addr.toNat [w.byte]))
    (m : Memory) (d : During) (h : P m) : P (landAll m d) := by
  induction d generalizing m with
  | nil => exact h
  | cons ws d ih => exact ih _ (landWrites_keeps P hw m ws h)

@[simp] theorem landAll_nil (m : Memory) : landAll m [] = m := rfl

theorem landAll_append (m : Memory) (d e : During) : landAll m (d ++ e) = landAll (landAll m d) e := by
  simp [landAll, List.foldl_append]

/-- THE SPEC OF A READ WITH HOST WRITES INSIDE IT (20_memory.md R82): byte `i` is what memory holds once the entries up
to `i` have landed; the entries past the last byte are still to land. -/
theorem readPcm_spec (a n : Nat) (d : During) (m : Memory) :
    readPcm a n d m =
      ⟨(List.range n).map (fun i => pcmByte (landAll m (d.take (i + 1))) (a + i)), d.drop n, landAll m (d.take n)⟩ := by
  induction n generalizing a d m with
  | zero => simp [readPcm, landAll]
  | succ n ih =>
    have land (k : Nat) : landAll (landWrites m (d.headD [])) (d.tail.take k) = landAll m (d.take (k + 1)) := by
      cases d <;> simp [landAll, landWrites]
    have rest : d.tail.drop n = d.drop (n + 1) := by cases d <;> simp
    have first : landAll m (d.take 1) = landWrites m (d.headD []) := by
      cases d <;> rfl
    simp only [readPcm, ih, land, rest, List.range_succ_eq_map, List.map_cons, List.map_map, Nat.zero_add, Nat.add_zero,
      first]
    congr 2
    apply List.map_congr_left
    intro i _
    simp [Function.comp, Nat.add_assoc, Nat.add_comm 1]

/-- With no host write inside the step, the bytes are those memory holds and memory stays. -/
theorem readPcm_quiet (a n : Nat) (m : Memory) :
    readPcm a n [] m = ⟨(List.range n).map (fun i => pcmByte m (a + i)), [], m⟩ := by
  simp [readPcm_spec]

theorem landAll_wf (m : Memory) (d : During) (h : m.wf) : (landAll m d).wf :=
  landAll_keeps Memory.wf (fun m _ h => write_wf m _ _ h) m d h

theorem landAll_range (m : Memory) (d : During) (h : ∀ c ∈ m, c.1 < Config.pcmBytes) :
    ∀ c ∈ landAll m d, c.1 < Config.pcmBytes :=
  landAll_keeps (fun m => ∀ c ∈ m, c.1 < Config.pcmBytes)
    (fun m w h => write_range m _ _ _ (by have := w.addr.isLt; simp only [List.length_singleton, Config.pcmBytes]; omega) h)
    m d h

end Sys2Proof.Machine
end

