-- ==== Sys2Proof/Laws/State.lean ====
section
/-!
SUPPORT. What each named update of the state does to each field: true by `rfl`, for `simp`, so that no later proof
unfolds a record update.
-/

namespace Sys2Proof.Machine

variable (s : State)

/-! ## setResult -/

@[simp] theorem setResult_cfgFormat (r : ResultCode) : (s.setResult r).cfgFormat = s.cfgFormat := rfl
@[simp] theorem setResult_cfgRate (r : ResultCode) : (s.setResult r).cfgRate = s.cfgRate := rfl
@[simp] theorem setResult_cfgRingBase (r : ResultCode) : (s.setResult r).cfgRingBase = s.cfgRingBase := rfl
@[simp] theorem setResult_cfgRingFrames (r : ResultCode) : (s.setResult r).cfgRingFrames = s.cfgRingFrames := rfl
@[simp] theorem setResult_cfgPeriodFrames (r : ResultCode) : (s.setResult r).cfgPeriodFrames = s.cfgPeriodFrames := rfl
@[simp] theorem setResult_cfgVmask (r : ResultCode) : (s.setResult r).cfgVmask = s.cfgVmask := rfl
@[simp] theorem setResult_csStage (r : ResultCode) : (s.setResult r).csStage = s.csStage := rfl
@[simp] theorem setResult_configured (r : ResultCode) : (s.setResult r).configured = s.configured := rfl
@[simp] theorem setResult_actFormat (r : ResultCode) : (s.setResult r).actFormat = s.actFormat := rfl
@[simp] theorem setResult_actRate (r : ResultCode) : (s.setResult r).actRate = s.actRate := rfl
@[simp] theorem setResult_actRingBase (r : ResultCode) : (s.setResult r).actRingBase = s.actRingBase := rfl
@[simp] theorem setResult_actRingFrames (r : ResultCode) : (s.setResult r).actRingFrames = s.actRingFrames := rfl
@[simp] theorem setResult_actPeriodFrames (r : ResultCode) : (s.setResult r).actPeriodFrames = s.actPeriodFrames := rfl
@[simp] theorem setResult_actVmask (r : ResultCode) : (s.setResult r).actVmask = s.actVmask := rfl
@[simp] theorem setResult_actCs (r : ResultCode) : (s.setResult r).actCs = s.actCs := rfl
@[simp] theorem setResult_csCursor (r : ResultCode) : (s.setResult r).csCursor = s.csCursor := rfl
@[simp] theorem setResult_pos (r : ResultCode) : (s.setResult r).pos = s.pos := rfl
@[simp] theorem setResult_periodAcc (r : ResultCode) : (s.setResult r).periodAcc = s.periodAcc := rfl
@[simp] theorem setResult_sil (r : ResultCode) : (s.setResult r).sil = s.sil := rfl
@[simp] theorem setResult_silCapture (r : ResultCode) : (s.setResult r).silCapture = s.silCapture := rfl
@[simp] theorem setResult_notifyCount (r : ResultCode) : (s.setResult r).notifyCount = s.notifyCount := rfl
@[simp] theorem setResult_cmdPending (r : ResultCode) : (s.setResult r).cmdPending = s.cmdPending := rfl
@[simp] theorem setResult_cmdLatch (r : ResultCode) : (s.setResult r).cmdLatch = s.cmdLatch := rfl
@[simp] theorem setResult_lastResult (r : ResultCode) : (s.setResult r).lastResult = r := rfl
@[simp] theorem setResult_xferActive (r : ResultCode) : (s.setResult r).xferActive = s.xferActive := rfl
@[simp] theorem setResult_evtPending (r : ResultCode) : (s.setResult r).evtPending = s.evtPending := rfl
@[simp] theorem setResult_evtResidue (r : ResultCode) : (s.setResult r).evtResidue = s.evtResidue := rfl
@[simp] theorem setResult_refillActive (r : ResultCode) : (s.setResult r).refillActive = s.refillActive := rfl
@[simp] theorem setResult_refillHalf (r : ResultCode) : (s.setResult r).refillHalf = s.refillHalf := rfl
@[simp] theorem setResult_refillLive (r : ResultCode) : (s.setResult r).refillLive = s.refillLive := rfl
@[simp] theorem setResult_refillSlot (r : ResultCode) : (s.setResult r).refillSlot = s.refillSlot := rfl
@[simp] theorem setResult_refillSil (r : ResultCode) : (s.setResult r).refillSil = s.refillSil := rfl
@[simp] theorem setResult_outbuf (r : ResultCode) : (s.setResult r).outbuf = s.outbuf := rfl
@[simp] theorem setResult_drain (r : ResultCode) : (s.setResult r).drain = s.drain := rfl
@[simp] theorem setResult_line (r : ResultCode) : (s.setResult r).line = s.line := rfl
@[simp] theorem setResult_notifyLog (r : ResultCode) : (s.setResult r).notifyLog = s.notifyLog := rfl
@[simp] theorem setResult_pcm (r : ResultCode) : (s.setResult r).pcm = s.pcm := rfl
@[simp] theorem setResult_program (r : ResultCode) : (s.setResult r).program = s.program := rfl
@[simp] theorem setResult_ackNext (r : ResultCode) : (s.setResult r).ackNext = s.ackNext := rfl
@[simp] theorem setResult_reads (r : ResultCode) : (s.setResult r).reads = s.reads := rfl
@[simp] theorem setResult_reqs (r : ResultCode) : (s.setResult r).reqs = s.reqs := rfl

/-! ## emitReq -/

@[simp] theorem emitReq_cfgFormat (w : Word) : (s.emitReq w).cfgFormat = s.cfgFormat := rfl
@[simp] theorem emitReq_cfgRate (w : Word) : (s.emitReq w).cfgRate = s.cfgRate := rfl
@[simp] theorem emitReq_cfgRingBase (w : Word) : (s.emitReq w).cfgRingBase = s.cfgRingBase := rfl
@[simp] theorem emitReq_cfgRingFrames (w : Word) : (s.emitReq w).cfgRingFrames = s.cfgRingFrames := rfl
@[simp] theorem emitReq_cfgPeriodFrames (w : Word) : (s.emitReq w).cfgPeriodFrames = s.cfgPeriodFrames := rfl
@[simp] theorem emitReq_cfgVmask (w : Word) : (s.emitReq w).cfgVmask = s.cfgVmask := rfl
@[simp] theorem emitReq_csStage (w : Word) : (s.emitReq w).csStage = s.csStage := rfl
@[simp] theorem emitReq_configured (w : Word) : (s.emitReq w).configured = s.configured := rfl
@[simp] theorem emitReq_actFormat (w : Word) : (s.emitReq w).actFormat = s.actFormat := rfl
@[simp] theorem emitReq_actRate (w : Word) : (s.emitReq w).actRate = s.actRate := rfl
@[simp] theorem emitReq_actRingBase (w : Word) : (s.emitReq w).actRingBase = s.actRingBase := rfl
@[simp] theorem emitReq_actRingFrames (w : Word) : (s.emitReq w).actRingFrames = s.actRingFrames := rfl
@[simp] theorem emitReq_actPeriodFrames (w : Word) : (s.emitReq w).actPeriodFrames = s.actPeriodFrames := rfl
@[simp] theorem emitReq_actVmask (w : Word) : (s.emitReq w).actVmask = s.actVmask := rfl
@[simp] theorem emitReq_actCs (w : Word) : (s.emitReq w).actCs = s.actCs := rfl
@[simp] theorem emitReq_csCursor (w : Word) : (s.emitReq w).csCursor = s.csCursor := rfl
@[simp] theorem emitReq_pos (w : Word) : (s.emitReq w).pos = s.pos := rfl
@[simp] theorem emitReq_periodAcc (w : Word) : (s.emitReq w).periodAcc = s.periodAcc := rfl
@[simp] theorem emitReq_sil (w : Word) : (s.emitReq w).sil = s.sil := rfl
@[simp] theorem emitReq_silCapture (w : Word) : (s.emitReq w).silCapture = s.silCapture := rfl
@[simp] theorem emitReq_notifyCount (w : Word) : (s.emitReq w).notifyCount = s.notifyCount := rfl
@[simp] theorem emitReq_cmdPending (w : Word) : (s.emitReq w).cmdPending = s.cmdPending := rfl
@[simp] theorem emitReq_cmdLatch (w : Word) : (s.emitReq w).cmdLatch = s.cmdLatch := rfl
@[simp] theorem emitReq_lastResult (w : Word) : (s.emitReq w).lastResult = s.lastResult := rfl
@[simp] theorem emitReq_xferActive (w : Word) : (s.emitReq w).xferActive = s.xferActive := rfl
@[simp] theorem emitReq_evtPending (w : Word) : (s.emitReq w).evtPending = s.evtPending := rfl
@[simp] theorem emitReq_evtResidue (w : Word) : (s.emitReq w).evtResidue = s.evtResidue := rfl
@[simp] theorem emitReq_refillActive (w : Word) : (s.emitReq w).refillActive = s.refillActive := rfl
@[simp] theorem emitReq_refillHalf (w : Word) : (s.emitReq w).refillHalf = s.refillHalf := rfl
@[simp] theorem emitReq_refillLive (w : Word) : (s.emitReq w).refillLive = s.refillLive := rfl
@[simp] theorem emitReq_refillSlot (w : Word) : (s.emitReq w).refillSlot = s.refillSlot := rfl
@[simp] theorem emitReq_refillSil (w : Word) : (s.emitReq w).refillSil = s.refillSil := rfl
@[simp] theorem emitReq_outbuf (w : Word) : (s.emitReq w).outbuf = s.outbuf := rfl
@[simp] theorem emitReq_drain (w : Word) : (s.emitReq w).drain = s.drain := rfl
@[simp] theorem emitReq_line (w : Word) : (s.emitReq w).line = s.line := rfl
@[simp] theorem emitReq_notifyLog (w : Word) : (s.emitReq w).notifyLog = s.notifyLog := rfl
@[simp] theorem emitReq_pcm (w : Word) : (s.emitReq w).pcm = s.pcm := rfl
@[simp] theorem emitReq_program (w : Word) : (s.emitReq w).program = s.program := rfl
@[simp] theorem emitReq_ackNext (w : Word) : (s.emitReq w).ackNext = s.ackNext := rfl
@[simp] theorem emitReq_reads (w : Word) : (s.emitReq w).reads = s.reads := rfl
@[simp] theorem emitReq_reqs (w : Word) : (s.emitReq w).reqs = s.reqs ++ [w] := rfl

/-! ## takeAck -/

@[simp] theorem takeAck_cfgFormat : (s.takeAck).cfgFormat = s.cfgFormat := rfl
@[simp] theorem takeAck_cfgRate : (s.takeAck).cfgRate = s.cfgRate := rfl
@[simp] theorem takeAck_cfgRingBase : (s.takeAck).cfgRingBase = s.cfgRingBase := rfl
@[simp] theorem takeAck_cfgRingFrames : (s.takeAck).cfgRingFrames = s.cfgRingFrames := rfl
@[simp] theorem takeAck_cfgPeriodFrames : (s.takeAck).cfgPeriodFrames = s.cfgPeriodFrames := rfl
@[simp] theorem takeAck_cfgVmask : (s.takeAck).cfgVmask = s.cfgVmask := rfl
@[simp] theorem takeAck_csStage : (s.takeAck).csStage = s.csStage := rfl
@[simp] theorem takeAck_configured : (s.takeAck).configured = s.configured := rfl
@[simp] theorem takeAck_actFormat : (s.takeAck).actFormat = s.actFormat := rfl
@[simp] theorem takeAck_actRate : (s.takeAck).actRate = s.actRate := rfl
@[simp] theorem takeAck_actRingBase : (s.takeAck).actRingBase = s.actRingBase := rfl
@[simp] theorem takeAck_actRingFrames : (s.takeAck).actRingFrames = s.actRingFrames := rfl
@[simp] theorem takeAck_actPeriodFrames : (s.takeAck).actPeriodFrames = s.actPeriodFrames := rfl
@[simp] theorem takeAck_actVmask : (s.takeAck).actVmask = s.actVmask := rfl
@[simp] theorem takeAck_actCs : (s.takeAck).actCs = s.actCs := rfl
@[simp] theorem takeAck_csCursor : (s.takeAck).csCursor = s.csCursor := rfl
@[simp] theorem takeAck_pos : (s.takeAck).pos = s.pos := rfl
@[simp] theorem takeAck_periodAcc : (s.takeAck).periodAcc = s.periodAcc := rfl
@[simp] theorem takeAck_sil : (s.takeAck).sil = s.sil := rfl
@[simp] theorem takeAck_silCapture : (s.takeAck).silCapture = s.silCapture := rfl
@[simp] theorem takeAck_notifyCount : (s.takeAck).notifyCount = s.notifyCount := rfl
@[simp] theorem takeAck_cmdPending : (s.takeAck).cmdPending = s.cmdPending := rfl
@[simp] theorem takeAck_cmdLatch : (s.takeAck).cmdLatch = s.cmdLatch := rfl
@[simp] theorem takeAck_lastResult : (s.takeAck).lastResult = s.lastResult := rfl
@[simp] theorem takeAck_xferActive : (s.takeAck).xferActive = s.xferActive := rfl
@[simp] theorem takeAck_evtPending : (s.takeAck).evtPending = s.evtPending := rfl
@[simp] theorem takeAck_evtResidue : (s.takeAck).evtResidue = s.evtResidue := rfl
@[simp] theorem takeAck_refillActive : (s.takeAck).refillActive = s.refillActive := rfl
@[simp] theorem takeAck_refillHalf : (s.takeAck).refillHalf = s.refillHalf := rfl
@[simp] theorem takeAck_refillLive : (s.takeAck).refillLive = s.refillLive := rfl
@[simp] theorem takeAck_refillSlot : (s.takeAck).refillSlot = s.refillSlot := rfl
@[simp] theorem takeAck_refillSil : (s.takeAck).refillSil = s.refillSil := rfl
@[simp] theorem takeAck_outbuf : (s.takeAck).outbuf = s.outbuf := rfl
@[simp] theorem takeAck_drain : (s.takeAck).drain = s.drain := rfl
@[simp] theorem takeAck_line : (s.takeAck).line = s.line := rfl
@[simp] theorem takeAck_notifyLog : (s.takeAck).notifyLog = s.notifyLog := rfl
@[simp] theorem takeAck_pcm : (s.takeAck).pcm = s.pcm := rfl
@[simp] theorem takeAck_program : (s.takeAck).program = s.program := rfl
@[simp] theorem takeAck_ackNext : (s.takeAck).ackNext = true := rfl
@[simp] theorem takeAck_reads : (s.takeAck).reads = s.reads := rfl
@[simp] theorem takeAck_reqs : (s.takeAck).reqs = s.reqs := rfl

/-! ## xchgSil -/

@[simp] theorem xchgSil_cfgFormat (v : Word) : (s.xchgSil v).cfgFormat = s.cfgFormat := rfl
@[simp] theorem xchgSil_cfgRate (v : Word) : (s.xchgSil v).cfgRate = s.cfgRate := rfl
@[simp] theorem xchgSil_cfgRingBase (v : Word) : (s.xchgSil v).cfgRingBase = s.cfgRingBase := rfl
@[simp] theorem xchgSil_cfgRingFrames (v : Word) : (s.xchgSil v).cfgRingFrames = s.cfgRingFrames := rfl
@[simp] theorem xchgSil_cfgPeriodFrames (v : Word) : (s.xchgSil v).cfgPeriodFrames = s.cfgPeriodFrames := rfl
@[simp] theorem xchgSil_cfgVmask (v : Word) : (s.xchgSil v).cfgVmask = s.cfgVmask := rfl
@[simp] theorem xchgSil_csStage (v : Word) : (s.xchgSil v).csStage = s.csStage := rfl
@[simp] theorem xchgSil_configured (v : Word) : (s.xchgSil v).configured = s.configured := rfl
@[simp] theorem xchgSil_actFormat (v : Word) : (s.xchgSil v).actFormat = s.actFormat := rfl
@[simp] theorem xchgSil_actRate (v : Word) : (s.xchgSil v).actRate = s.actRate := rfl
@[simp] theorem xchgSil_actRingBase (v : Word) : (s.xchgSil v).actRingBase = s.actRingBase := rfl
@[simp] theorem xchgSil_actRingFrames (v : Word) : (s.xchgSil v).actRingFrames = s.actRingFrames := rfl
@[simp] theorem xchgSil_actPeriodFrames (v : Word) : (s.xchgSil v).actPeriodFrames = s.actPeriodFrames := rfl
@[simp] theorem xchgSil_actVmask (v : Word) : (s.xchgSil v).actVmask = s.actVmask := rfl
@[simp] theorem xchgSil_actCs (v : Word) : (s.xchgSil v).actCs = s.actCs := rfl
@[simp] theorem xchgSil_csCursor (v : Word) : (s.xchgSil v).csCursor = s.csCursor := rfl
@[simp] theorem xchgSil_pos (v : Word) : (s.xchgSil v).pos = s.pos := rfl
@[simp] theorem xchgSil_periodAcc (v : Word) : (s.xchgSil v).periodAcc = s.periodAcc := rfl
@[simp] theorem xchgSil_sil (v : Word) : (s.xchgSil v).sil = v := rfl
@[simp] theorem xchgSil_silCapture (v : Word) : (s.xchgSil v).silCapture = s.silCapture := rfl
@[simp] theorem xchgSil_notifyCount (v : Word) : (s.xchgSil v).notifyCount = s.notifyCount := rfl
@[simp] theorem xchgSil_cmdPending (v : Word) : (s.xchgSil v).cmdPending = s.cmdPending := rfl
@[simp] theorem xchgSil_cmdLatch (v : Word) : (s.xchgSil v).cmdLatch = s.cmdLatch := rfl
@[simp] theorem xchgSil_lastResult (v : Word) : (s.xchgSil v).lastResult = s.lastResult := rfl
@[simp] theorem xchgSil_xferActive (v : Word) : (s.xchgSil v).xferActive = s.xferActive := rfl
@[simp] theorem xchgSil_evtPending (v : Word) : (s.xchgSil v).evtPending = s.evtPending := rfl
@[simp] theorem xchgSil_evtResidue (v : Word) : (s.xchgSil v).evtResidue = s.evtResidue := rfl
@[simp] theorem xchgSil_refillActive (v : Word) : (s.xchgSil v).refillActive = s.refillActive := rfl
@[simp] theorem xchgSil_refillHalf (v : Word) : (s.xchgSil v).refillHalf = s.refillHalf := rfl
@[simp] theorem xchgSil_refillLive (v : Word) : (s.xchgSil v).refillLive = s.refillLive := rfl
@[simp] theorem xchgSil_refillSlot (v : Word) : (s.xchgSil v).refillSlot = s.refillSlot := rfl
@[simp] theorem xchgSil_refillSil (v : Word) : (s.xchgSil v).refillSil = s.refillSil := rfl
@[simp] theorem xchgSil_outbuf (v : Word) : (s.xchgSil v).outbuf = s.outbuf := rfl
@[simp] theorem xchgSil_drain (v : Word) : (s.xchgSil v).drain = s.drain := rfl
@[simp] theorem xchgSil_line (v : Word) : (s.xchgSil v).line = s.line := rfl
@[simp] theorem xchgSil_notifyLog (v : Word) : (s.xchgSil v).notifyLog = s.notifyLog := rfl
@[simp] theorem xchgSil_pcm (v : Word) : (s.xchgSil v).pcm = s.pcm := rfl
@[simp] theorem xchgSil_program (v : Word) : (s.xchgSil v).program = s.program := rfl
@[simp] theorem xchgSil_ackNext (v : Word) : (s.xchgSil v).ackNext = s.ackNext := rfl
@[simp] theorem xchgSil_reads (v : Word) : (s.xchgSil v).reads = s.reads := rfl
@[simp] theorem xchgSil_reqs (v : Word) : (s.xchgSil v).reqs = s.reqs := rfl

/-! ## casSil -/

@[simp] theorem casSil_cfgFormat (o n : Word) : (s.casSil o n).cfgFormat = s.cfgFormat := rfl
@[simp] theorem casSil_cfgRate (o n : Word) : (s.casSil o n).cfgRate = s.cfgRate := rfl
@[simp] theorem casSil_cfgRingBase (o n : Word) : (s.casSil o n).cfgRingBase = s.cfgRingBase := rfl
@[simp] theorem casSil_cfgRingFrames (o n : Word) : (s.casSil o n).cfgRingFrames = s.cfgRingFrames := rfl
@[simp] theorem casSil_cfgPeriodFrames (o n : Word) : (s.casSil o n).cfgPeriodFrames = s.cfgPeriodFrames := rfl
@[simp] theorem casSil_cfgVmask (o n : Word) : (s.casSil o n).cfgVmask = s.cfgVmask := rfl
@[simp] theorem casSil_csStage (o n : Word) : (s.casSil o n).csStage = s.csStage := rfl
@[simp] theorem casSil_configured (o n : Word) : (s.casSil o n).configured = s.configured := rfl
@[simp] theorem casSil_actFormat (o n : Word) : (s.casSil o n).actFormat = s.actFormat := rfl
@[simp] theorem casSil_actRate (o n : Word) : (s.casSil o n).actRate = s.actRate := rfl
@[simp] theorem casSil_actRingBase (o n : Word) : (s.casSil o n).actRingBase = s.actRingBase := rfl
@[simp] theorem casSil_actRingFrames (o n : Word) : (s.casSil o n).actRingFrames = s.actRingFrames := rfl
@[simp] theorem casSil_actPeriodFrames (o n : Word) : (s.casSil o n).actPeriodFrames = s.actPeriodFrames := rfl
@[simp] theorem casSil_actVmask (o n : Word) : (s.casSil o n).actVmask = s.actVmask := rfl
@[simp] theorem casSil_actCs (o n : Word) : (s.casSil o n).actCs = s.actCs := rfl
@[simp] theorem casSil_csCursor (o n : Word) : (s.casSil o n).csCursor = s.csCursor := rfl
@[simp] theorem casSil_pos (o n : Word) : (s.casSil o n).pos = s.pos := rfl
@[simp] theorem casSil_periodAcc (o n : Word) : (s.casSil o n).periodAcc = s.periodAcc := rfl
@[simp] theorem casSil_sil (o n : Word) : (s.casSil o n).sil = if s.sil = o then n else s.sil := rfl
@[simp] theorem casSil_silCapture (o n : Word) : (s.casSil o n).silCapture = s.silCapture := rfl
@[simp] theorem casSil_notifyCount (o n : Word) : (s.casSil o n).notifyCount = s.notifyCount := rfl
@[simp] theorem casSil_cmdPending (o n : Word) : (s.casSil o n).cmdPending = s.cmdPending := rfl
@[simp] theorem casSil_cmdLatch (o n : Word) : (s.casSil o n).cmdLatch = s.cmdLatch := rfl
@[simp] theorem casSil_lastResult (o n : Word) : (s.casSil o n).lastResult = s.lastResult := rfl
@[simp] theorem casSil_xferActive (o n : Word) : (s.casSil o n).xferActive = s.xferActive := rfl
@[simp] theorem casSil_evtPending (o n : Word) : (s.casSil o n).evtPending = s.evtPending := rfl
@[simp] theorem casSil_evtResidue (o n : Word) : (s.casSil o n).evtResidue = s.evtResidue := rfl
@[simp] theorem casSil_refillActive (o n : Word) : (s.casSil o n).refillActive = s.refillActive := rfl
@[simp] theorem casSil_refillHalf (o n : Word) : (s.casSil o n).refillHalf = s.refillHalf := rfl
@[simp] theorem casSil_refillLive (o n : Word) : (s.casSil o n).refillLive = s.refillLive := rfl
@[simp] theorem casSil_refillSlot (o n : Word) : (s.casSil o n).refillSlot = s.refillSlot := rfl
@[simp] theorem casSil_refillSil (o n : Word) : (s.casSil o n).refillSil = s.refillSil := rfl
@[simp] theorem casSil_outbuf (o n : Word) : (s.casSil o n).outbuf = s.outbuf := rfl
@[simp] theorem casSil_drain (o n : Word) : (s.casSil o n).drain = s.drain := rfl
@[simp] theorem casSil_line (o n : Word) : (s.casSil o n).line = s.line := rfl
@[simp] theorem casSil_notifyLog (o n : Word) : (s.casSil o n).notifyLog = s.notifyLog := rfl
@[simp] theorem casSil_pcm (o n : Word) : (s.casSil o n).pcm = s.pcm := rfl
@[simp] theorem casSil_program (o n : Word) : (s.casSil o n).program = s.program := rfl
@[simp] theorem casSil_ackNext (o n : Word) : (s.casSil o n).ackNext = s.ackNext := rfl
@[simp] theorem casSil_reads (o n : Word) : (s.casSil o n).reads = s.reads := rfl
@[simp] theorem casSil_reqs (o n : Word) : (s.casSil o n).reqs = s.reqs := rfl

/-! ## notifyPeriod -/

@[simp] theorem notifyPeriod_cfgFormat : (s.notifyPeriod).cfgFormat = s.cfgFormat := rfl
@[simp] theorem notifyPeriod_cfgRate : (s.notifyPeriod).cfgRate = s.cfgRate := rfl
@[simp] theorem notifyPeriod_cfgRingBase : (s.notifyPeriod).cfgRingBase = s.cfgRingBase := rfl
@[simp] theorem notifyPeriod_cfgRingFrames : (s.notifyPeriod).cfgRingFrames = s.cfgRingFrames := rfl
@[simp] theorem notifyPeriod_cfgPeriodFrames : (s.notifyPeriod).cfgPeriodFrames = s.cfgPeriodFrames := rfl
@[simp] theorem notifyPeriod_cfgVmask : (s.notifyPeriod).cfgVmask = s.cfgVmask := rfl
@[simp] theorem notifyPeriod_csStage : (s.notifyPeriod).csStage = s.csStage := rfl
@[simp] theorem notifyPeriod_configured : (s.notifyPeriod).configured = s.configured := rfl
@[simp] theorem notifyPeriod_actFormat : (s.notifyPeriod).actFormat = s.actFormat := rfl
@[simp] theorem notifyPeriod_actRate : (s.notifyPeriod).actRate = s.actRate := rfl
@[simp] theorem notifyPeriod_actRingBase : (s.notifyPeriod).actRingBase = s.actRingBase := rfl
@[simp] theorem notifyPeriod_actRingFrames : (s.notifyPeriod).actRingFrames = s.actRingFrames := rfl
@[simp] theorem notifyPeriod_actPeriodFrames : (s.notifyPeriod).actPeriodFrames = s.actPeriodFrames := rfl
@[simp] theorem notifyPeriod_actVmask : (s.notifyPeriod).actVmask = s.actVmask := rfl
@[simp] theorem notifyPeriod_actCs : (s.notifyPeriod).actCs = s.actCs := rfl
@[simp] theorem notifyPeriod_csCursor : (s.notifyPeriod).csCursor = s.csCursor := rfl
@[simp] theorem notifyPeriod_pos : (s.notifyPeriod).pos = s.pos := rfl
@[simp] theorem notifyPeriod_periodAcc : (s.notifyPeriod).periodAcc = s.periodAcc := rfl
@[simp] theorem notifyPeriod_sil : (s.notifyPeriod).sil = s.sil := rfl
@[simp] theorem notifyPeriod_silCapture : (s.notifyPeriod).silCapture = s.silCapture := rfl
@[simp] theorem notifyPeriod_notifyCount : (s.notifyPeriod).notifyCount = s.notifyCount + 1#32 := rfl
@[simp] theorem notifyPeriod_cmdPending : (s.notifyPeriod).cmdPending = s.cmdPending := rfl
@[simp] theorem notifyPeriod_cmdLatch : (s.notifyPeriod).cmdLatch = s.cmdLatch := rfl
@[simp] theorem notifyPeriod_lastResult : (s.notifyPeriod).lastResult = s.lastResult := rfl
@[simp] theorem notifyPeriod_xferActive : (s.notifyPeriod).xferActive = s.xferActive := rfl
@[simp] theorem notifyPeriod_evtPending : (s.notifyPeriod).evtPending = s.evtPending := rfl
@[simp] theorem notifyPeriod_evtResidue : (s.notifyPeriod).evtResidue = s.evtResidue := rfl
@[simp] theorem notifyPeriod_refillActive : (s.notifyPeriod).refillActive = s.refillActive := rfl
@[simp] theorem notifyPeriod_refillHalf : (s.notifyPeriod).refillHalf = s.refillHalf := rfl
@[simp] theorem notifyPeriod_refillLive : (s.notifyPeriod).refillLive = s.refillLive := rfl
@[simp] theorem notifyPeriod_refillSlot : (s.notifyPeriod).refillSlot = s.refillSlot := rfl
@[simp] theorem notifyPeriod_refillSil : (s.notifyPeriod).refillSil = s.refillSil := rfl
@[simp] theorem notifyPeriod_outbuf : (s.notifyPeriod).outbuf = s.outbuf := rfl
@[simp] theorem notifyPeriod_drain : (s.notifyPeriod).drain = s.drain := rfl
@[simp] theorem notifyPeriod_line : (s.notifyPeriod).line = s.line := rfl
@[simp] theorem notifyPeriod_notifyLog : (s.notifyPeriod).notifyLog = s.notifyLog ++ [s.pos] := rfl
@[simp] theorem notifyPeriod_pcm : (s.notifyPeriod).pcm = s.pcm := rfl
@[simp] theorem notifyPeriod_program : (s.notifyPeriod).program = s.program := rfl
@[simp] theorem notifyPeriod_ackNext : (s.notifyPeriod).ackNext = s.ackNext := rfl
@[simp] theorem notifyPeriod_reads : (s.notifyPeriod).reads = s.reads := rfl
@[simp] theorem notifyPeriod_reqs : (s.notifyPeriod).reqs = s.reqs := rfl

/-! ## bufWrite -/

@[simp] theorem bufWrite_cfgFormat (a : Nat) (bs : List Byte) : (s.bufWrite a bs).cfgFormat = s.cfgFormat := rfl
@[simp] theorem bufWrite_cfgRate (a : Nat) (bs : List Byte) : (s.bufWrite a bs).cfgRate = s.cfgRate := rfl
@[simp] theorem bufWrite_cfgRingBase (a : Nat) (bs : List Byte) : (s.bufWrite a bs).cfgRingBase = s.cfgRingBase := rfl
@[simp] theorem bufWrite_cfgRingFrames (a : Nat) (bs : List Byte) : (s.bufWrite a bs).cfgRingFrames = s.cfgRingFrames := rfl
@[simp] theorem bufWrite_cfgPeriodFrames (a : Nat) (bs : List Byte) : (s.bufWrite a bs).cfgPeriodFrames = s.cfgPeriodFrames := rfl
@[simp] theorem bufWrite_cfgVmask (a : Nat) (bs : List Byte) : (s.bufWrite a bs).cfgVmask = s.cfgVmask := rfl
@[simp] theorem bufWrite_csStage (a : Nat) (bs : List Byte) : (s.bufWrite a bs).csStage = s.csStage := rfl
@[simp] theorem bufWrite_configured (a : Nat) (bs : List Byte) : (s.bufWrite a bs).configured = s.configured := rfl
@[simp] theorem bufWrite_actFormat (a : Nat) (bs : List Byte) : (s.bufWrite a bs).actFormat = s.actFormat := rfl
@[simp] theorem bufWrite_actRate (a : Nat) (bs : List Byte) : (s.bufWrite a bs).actRate = s.actRate := rfl
@[simp] theorem bufWrite_actRingBase (a : Nat) (bs : List Byte) : (s.bufWrite a bs).actRingBase = s.actRingBase := rfl
@[simp] theorem bufWrite_actRingFrames (a : Nat) (bs : List Byte) : (s.bufWrite a bs).actRingFrames = s.actRingFrames := rfl
@[simp] theorem bufWrite_actPeriodFrames (a : Nat) (bs : List Byte) : (s.bufWrite a bs).actPeriodFrames = s.actPeriodFrames := rfl
@[simp] theorem bufWrite_actVmask (a : Nat) (bs : List Byte) : (s.bufWrite a bs).actVmask = s.actVmask := rfl
@[simp] theorem bufWrite_actCs (a : Nat) (bs : List Byte) : (s.bufWrite a bs).actCs = s.actCs := rfl
@[simp] theorem bufWrite_csCursor (a : Nat) (bs : List Byte) : (s.bufWrite a bs).csCursor = s.csCursor := rfl
@[simp] theorem bufWrite_pos (a : Nat) (bs : List Byte) : (s.bufWrite a bs).pos = s.pos := rfl
@[simp] theorem bufWrite_periodAcc (a : Nat) (bs : List Byte) : (s.bufWrite a bs).periodAcc = s.periodAcc := rfl
@[simp] theorem bufWrite_sil (a : Nat) (bs : List Byte) : (s.bufWrite a bs).sil = s.sil := rfl
@[simp] theorem bufWrite_silCapture (a : Nat) (bs : List Byte) : (s.bufWrite a bs).silCapture = s.silCapture := rfl
@[simp] theorem bufWrite_notifyCount (a : Nat) (bs : List Byte) : (s.bufWrite a bs).notifyCount = s.notifyCount := rfl
@[simp] theorem bufWrite_cmdPending (a : Nat) (bs : List Byte) : (s.bufWrite a bs).cmdPending = s.cmdPending := rfl
@[simp] theorem bufWrite_cmdLatch (a : Nat) (bs : List Byte) : (s.bufWrite a bs).cmdLatch = s.cmdLatch := rfl
@[simp] theorem bufWrite_lastResult (a : Nat) (bs : List Byte) : (s.bufWrite a bs).lastResult = s.lastResult := rfl
@[simp] theorem bufWrite_xferActive (a : Nat) (bs : List Byte) : (s.bufWrite a bs).xferActive = s.xferActive := rfl
@[simp] theorem bufWrite_evtPending (a : Nat) (bs : List Byte) : (s.bufWrite a bs).evtPending = s.evtPending := rfl
@[simp] theorem bufWrite_evtResidue (a : Nat) (bs : List Byte) : (s.bufWrite a bs).evtResidue = s.evtResidue := rfl
@[simp] theorem bufWrite_refillActive (a : Nat) (bs : List Byte) : (s.bufWrite a bs).refillActive = s.refillActive := rfl
@[simp] theorem bufWrite_refillHalf (a : Nat) (bs : List Byte) : (s.bufWrite a bs).refillHalf = s.refillHalf := rfl
@[simp] theorem bufWrite_refillLive (a : Nat) (bs : List Byte) : (s.bufWrite a bs).refillLive = s.refillLive := rfl
@[simp] theorem bufWrite_refillSlot (a : Nat) (bs : List Byte) : (s.bufWrite a bs).refillSlot = s.refillSlot := rfl
@[simp] theorem bufWrite_refillSil (a : Nat) (bs : List Byte) : (s.bufWrite a bs).refillSil = s.refillSil := rfl
@[simp] theorem bufWrite_outbuf (a : Nat) (bs : List Byte) : (s.bufWrite a bs).outbuf = s.outbuf.write a bs := rfl
@[simp] theorem bufWrite_drain (a : Nat) (bs : List Byte) : (s.bufWrite a bs).drain = s.drain := rfl
@[simp] theorem bufWrite_line (a : Nat) (bs : List Byte) : (s.bufWrite a bs).line = s.line := rfl
@[simp] theorem bufWrite_notifyLog (a : Nat) (bs : List Byte) : (s.bufWrite a bs).notifyLog = s.notifyLog := rfl
@[simp] theorem bufWrite_pcm (a : Nat) (bs : List Byte) : (s.bufWrite a bs).pcm = s.pcm := rfl
@[simp] theorem bufWrite_program (a : Nat) (bs : List Byte) : (s.bufWrite a bs).program = s.program := rfl
@[simp] theorem bufWrite_ackNext (a : Nat) (bs : List Byte) : (s.bufWrite a bs).ackNext = s.ackNext := rfl
@[simp] theorem bufWrite_reads (a : Nat) (bs : List Byte) : (s.bufWrite a bs).reads = s.reads := rfl
@[simp] theorem bufWrite_reqs (a : Nat) (bs : List Byte) : (s.bufWrite a bs).reqs = s.reqs := rfl

/-! ## latchEvent -/

@[simp] theorem latchEvent_cfgFormat (r : BitVec 16) : (s.latchEvent r).cfgFormat = s.cfgFormat := rfl
@[simp] theorem latchEvent_cfgRate (r : BitVec 16) : (s.latchEvent r).cfgRate = s.cfgRate := rfl
@[simp] theorem latchEvent_cfgRingBase (r : BitVec 16) : (s.latchEvent r).cfgRingBase = s.cfgRingBase := rfl
@[simp] theorem latchEvent_cfgRingFrames (r : BitVec 16) : (s.latchEvent r).cfgRingFrames = s.cfgRingFrames := rfl
@[simp] theorem latchEvent_cfgPeriodFrames (r : BitVec 16) : (s.latchEvent r).cfgPeriodFrames = s.cfgPeriodFrames := rfl
@[simp] theorem latchEvent_cfgVmask (r : BitVec 16) : (s.latchEvent r).cfgVmask = s.cfgVmask := rfl
@[simp] theorem latchEvent_csStage (r : BitVec 16) : (s.latchEvent r).csStage = s.csStage := rfl
@[simp] theorem latchEvent_configured (r : BitVec 16) : (s.latchEvent r).configured = s.configured := rfl
@[simp] theorem latchEvent_actFormat (r : BitVec 16) : (s.latchEvent r).actFormat = s.actFormat := rfl
@[simp] theorem latchEvent_actRate (r : BitVec 16) : (s.latchEvent r).actRate = s.actRate := rfl
@[simp] theorem latchEvent_actRingBase (r : BitVec 16) : (s.latchEvent r).actRingBase = s.actRingBase := rfl
@[simp] theorem latchEvent_actRingFrames (r : BitVec 16) : (s.latchEvent r).actRingFrames = s.actRingFrames := rfl
@[simp] theorem latchEvent_actPeriodFrames (r : BitVec 16) : (s.latchEvent r).actPeriodFrames = s.actPeriodFrames := rfl
@[simp] theorem latchEvent_actVmask (r : BitVec 16) : (s.latchEvent r).actVmask = s.actVmask := rfl
@[simp] theorem latchEvent_actCs (r : BitVec 16) : (s.latchEvent r).actCs = s.actCs := rfl
@[simp] theorem latchEvent_csCursor (r : BitVec 16) : (s.latchEvent r).csCursor = s.csCursor := rfl
@[simp] theorem latchEvent_pos (r : BitVec 16) : (s.latchEvent r).pos = s.pos := rfl
@[simp] theorem latchEvent_periodAcc (r : BitVec 16) : (s.latchEvent r).periodAcc = s.periodAcc := rfl
@[simp] theorem latchEvent_sil (r : BitVec 16) : (s.latchEvent r).sil = s.sil := rfl
@[simp] theorem latchEvent_silCapture (r : BitVec 16) : (s.latchEvent r).silCapture = s.silCapture := rfl
@[simp] theorem latchEvent_notifyCount (r : BitVec 16) : (s.latchEvent r).notifyCount = s.notifyCount := rfl
@[simp] theorem latchEvent_cmdPending (r : BitVec 16) : (s.latchEvent r).cmdPending = s.cmdPending := rfl
@[simp] theorem latchEvent_cmdLatch (r : BitVec 16) : (s.latchEvent r).cmdLatch = s.cmdLatch := rfl
@[simp] theorem latchEvent_lastResult (r : BitVec 16) : (s.latchEvent r).lastResult = s.lastResult := rfl
@[simp] theorem latchEvent_xferActive (r : BitVec 16) : (s.latchEvent r).xferActive = s.xferActive := rfl
@[simp] theorem latchEvent_evtPending (r : BitVec 16) : (s.latchEvent r).evtPending = true := rfl
@[simp] theorem latchEvent_evtResidue (r : BitVec 16) : (s.latchEvent r).evtResidue = r := rfl
@[simp] theorem latchEvent_refillActive (r : BitVec 16) : (s.latchEvent r).refillActive = s.refillActive := rfl
@[simp] theorem latchEvent_refillHalf (r : BitVec 16) : (s.latchEvent r).refillHalf = s.refillHalf := rfl
@[simp] theorem latchEvent_refillLive (r : BitVec 16) : (s.latchEvent r).refillLive = s.refillLive := rfl
@[simp] theorem latchEvent_refillSlot (r : BitVec 16) : (s.latchEvent r).refillSlot = s.refillSlot := rfl
@[simp] theorem latchEvent_refillSil (r : BitVec 16) : (s.latchEvent r).refillSil = s.refillSil := rfl
@[simp] theorem latchEvent_outbuf (r : BitVec 16) : (s.latchEvent r).outbuf = s.outbuf := rfl
@[simp] theorem latchEvent_drain (r : BitVec 16) : (s.latchEvent r).drain = s.drain := rfl
@[simp] theorem latchEvent_line (r : BitVec 16) : (s.latchEvent r).line = s.line := rfl
@[simp] theorem latchEvent_notifyLog (r : BitVec 16) : (s.latchEvent r).notifyLog = s.notifyLog := rfl
@[simp] theorem latchEvent_pcm (r : BitVec 16) : (s.latchEvent r).pcm = s.pcm := rfl
@[simp] theorem latchEvent_program (r : BitVec 16) : (s.latchEvent r).program = s.program := rfl
@[simp] theorem latchEvent_ackNext (r : BitVec 16) : (s.latchEvent r).ackNext = s.ackNext := rfl
@[simp] theorem latchEvent_reads (r : BitVec 16) : (s.latchEvent r).reads = s.reads := rfl
@[simp] theorem latchEvent_reqs (r : BitVec 16) : (s.latchEvent r).reqs = s.reqs := rfl

/-! ## openTransfer -/

@[simp] theorem openTransfer_cfgFormat : (s.openTransfer).cfgFormat = s.cfgFormat := rfl
@[simp] theorem openTransfer_cfgRate : (s.openTransfer).cfgRate = s.cfgRate := rfl
@[simp] theorem openTransfer_cfgRingBase : (s.openTransfer).cfgRingBase = s.cfgRingBase := rfl
@[simp] theorem openTransfer_cfgRingFrames : (s.openTransfer).cfgRingFrames = s.cfgRingFrames := rfl
@[simp] theorem openTransfer_cfgPeriodFrames : (s.openTransfer).cfgPeriodFrames = s.cfgPeriodFrames := rfl
@[simp] theorem openTransfer_cfgVmask : (s.openTransfer).cfgVmask = s.cfgVmask := rfl
@[simp] theorem openTransfer_csStage : (s.openTransfer).csStage = s.csStage := rfl
@[simp] theorem openTransfer_configured : (s.openTransfer).configured = s.configured := rfl
@[simp] theorem openTransfer_actFormat : (s.openTransfer).actFormat = s.actFormat := rfl
@[simp] theorem openTransfer_actRate : (s.openTransfer).actRate = s.actRate := rfl
@[simp] theorem openTransfer_actRingBase : (s.openTransfer).actRingBase = s.actRingBase := rfl
@[simp] theorem openTransfer_actRingFrames : (s.openTransfer).actRingFrames = s.actRingFrames := rfl
@[simp] theorem openTransfer_actPeriodFrames : (s.openTransfer).actPeriodFrames = s.actPeriodFrames := rfl
@[simp] theorem openTransfer_actVmask : (s.openTransfer).actVmask = s.actVmask := rfl
@[simp] theorem openTransfer_actCs : (s.openTransfer).actCs = s.actCs := rfl
@[simp] theorem openTransfer_csCursor : (s.openTransfer).csCursor = s.csCursor := rfl
@[simp] theorem openTransfer_pos : (s.openTransfer).pos = s.pos := rfl
@[simp] theorem openTransfer_periodAcc : (s.openTransfer).periodAcc = s.periodAcc := rfl
@[simp] theorem openTransfer_sil : (s.openTransfer).sil = s.sil := rfl
@[simp] theorem openTransfer_silCapture : (s.openTransfer).silCapture = s.silCapture := rfl
@[simp] theorem openTransfer_notifyCount : (s.openTransfer).notifyCount = s.notifyCount := rfl
@[simp] theorem openTransfer_cmdPending : (s.openTransfer).cmdPending = s.cmdPending := rfl
@[simp] theorem openTransfer_cmdLatch : (s.openTransfer).cmdLatch = s.cmdLatch := rfl
@[simp] theorem openTransfer_lastResult : (s.openTransfer).lastResult = s.lastResult := rfl
@[simp] theorem openTransfer_xferActive : (s.openTransfer).xferActive = true := rfl
@[simp] theorem openTransfer_evtPending : (s.openTransfer).evtPending = false := rfl
@[simp] theorem openTransfer_evtResidue : (s.openTransfer).evtResidue = s.evtResidue := rfl
@[simp] theorem openTransfer_refillActive : (s.openTransfer).refillActive = s.refillActive := rfl
@[simp] theorem openTransfer_refillHalf : (s.openTransfer).refillHalf = s.refillHalf := rfl
@[simp] theorem openTransfer_refillLive : (s.openTransfer).refillLive = s.refillLive := rfl
@[simp] theorem openTransfer_refillSlot : (s.openTransfer).refillSlot = s.refillSlot := rfl
@[simp] theorem openTransfer_refillSil : (s.openTransfer).refillSil = s.refillSil := rfl
@[simp] theorem openTransfer_outbuf : (s.openTransfer).outbuf = s.outbuf := rfl
@[simp] theorem openTransfer_drain : (s.openTransfer).drain = 0 := rfl
@[simp] theorem openTransfer_line : (s.openTransfer).line = s.line := rfl
@[simp] theorem openTransfer_notifyLog : (s.openTransfer).notifyLog = s.notifyLog := rfl
@[simp] theorem openTransfer_pcm : (s.openTransfer).pcm = s.pcm := rfl
@[simp] theorem openTransfer_program : (s.openTransfer).program = s.program := rfl
@[simp] theorem openTransfer_ackNext : (s.openTransfer).ackNext = s.ackNext := rfl
@[simp] theorem openTransfer_reads : (s.openTransfer).reads = s.reads := rfl
@[simp] theorem openTransfer_reqs : (s.openTransfer).reqs = s.reqs := rfl

/-! ## closeTransfer -/

@[simp] theorem closeTransfer_cfgFormat : (s.closeTransfer).cfgFormat = s.cfgFormat := rfl
@[simp] theorem closeTransfer_cfgRate : (s.closeTransfer).cfgRate = s.cfgRate := rfl
@[simp] theorem closeTransfer_cfgRingBase : (s.closeTransfer).cfgRingBase = s.cfgRingBase := rfl
@[simp] theorem closeTransfer_cfgRingFrames : (s.closeTransfer).cfgRingFrames = s.cfgRingFrames := rfl
@[simp] theorem closeTransfer_cfgPeriodFrames : (s.closeTransfer).cfgPeriodFrames = s.cfgPeriodFrames := rfl
@[simp] theorem closeTransfer_cfgVmask : (s.closeTransfer).cfgVmask = s.cfgVmask := rfl
@[simp] theorem closeTransfer_csStage : (s.closeTransfer).csStage = s.csStage := rfl
@[simp] theorem closeTransfer_configured : (s.closeTransfer).configured = s.configured := rfl
@[simp] theorem closeTransfer_actFormat : (s.closeTransfer).actFormat = s.actFormat := rfl
@[simp] theorem closeTransfer_actRate : (s.closeTransfer).actRate = s.actRate := rfl
@[simp] theorem closeTransfer_actRingBase : (s.closeTransfer).actRingBase = s.actRingBase := rfl
@[simp] theorem closeTransfer_actRingFrames : (s.closeTransfer).actRingFrames = s.actRingFrames := rfl
@[simp] theorem closeTransfer_actPeriodFrames : (s.closeTransfer).actPeriodFrames = s.actPeriodFrames := rfl
@[simp] theorem closeTransfer_actVmask : (s.closeTransfer).actVmask = s.actVmask := rfl
@[simp] theorem closeTransfer_actCs : (s.closeTransfer).actCs = s.actCs := rfl
@[simp] theorem closeTransfer_csCursor : (s.closeTransfer).csCursor = s.csCursor := rfl
@[simp] theorem closeTransfer_pos : (s.closeTransfer).pos = s.pos := rfl
@[simp] theorem closeTransfer_periodAcc : (s.closeTransfer).periodAcc = s.periodAcc := rfl
@[simp] theorem closeTransfer_sil : (s.closeTransfer).sil = s.sil := rfl
@[simp] theorem closeTransfer_silCapture : (s.closeTransfer).silCapture = s.silCapture := rfl
@[simp] theorem closeTransfer_notifyCount : (s.closeTransfer).notifyCount = s.notifyCount := rfl
@[simp] theorem closeTransfer_cmdPending : (s.closeTransfer).cmdPending = s.cmdPending := rfl
@[simp] theorem closeTransfer_cmdLatch : (s.closeTransfer).cmdLatch = s.cmdLatch := rfl
@[simp] theorem closeTransfer_lastResult : (s.closeTransfer).lastResult = s.lastResult := rfl
@[simp] theorem closeTransfer_xferActive : (s.closeTransfer).xferActive = false := rfl
@[simp] theorem closeTransfer_evtPending : (s.closeTransfer).evtPending = s.evtPending := rfl
@[simp] theorem closeTransfer_evtResidue : (s.closeTransfer).evtResidue = s.evtResidue := rfl
@[simp] theorem closeTransfer_refillActive : (s.closeTransfer).refillActive = s.refillActive := rfl
@[simp] theorem closeTransfer_refillHalf : (s.closeTransfer).refillHalf = s.refillHalf := rfl
@[simp] theorem closeTransfer_refillLive : (s.closeTransfer).refillLive = s.refillLive := rfl
@[simp] theorem closeTransfer_refillSlot : (s.closeTransfer).refillSlot = s.refillSlot := rfl
@[simp] theorem closeTransfer_refillSil : (s.closeTransfer).refillSil = s.refillSil := rfl
@[simp] theorem closeTransfer_outbuf : (s.closeTransfer).outbuf = s.outbuf := rfl
@[simp] theorem closeTransfer_drain : (s.closeTransfer).drain = s.drain := rfl
@[simp] theorem closeTransfer_line : (s.closeTransfer).line = s.line := rfl
@[simp] theorem closeTransfer_notifyLog : (s.closeTransfer).notifyLog = s.notifyLog := rfl
@[simp] theorem closeTransfer_pcm : (s.closeTransfer).pcm = s.pcm := rfl
@[simp] theorem closeTransfer_program : (s.closeTransfer).program = s.program := rfl
@[simp] theorem closeTransfer_ackNext : (s.closeTransfer).ackNext = s.ackNext := rfl
@[simp] theorem closeTransfer_reads : (s.closeTransfer).reads = s.reads := rfl
@[simp] theorem closeTransfer_reqs : (s.closeTransfer).reqs = s.reqs := rfl

/-! ## landPcm -/

@[simp] theorem landPcm_cfgFormat (d : During) : (s.landPcm d).cfgFormat = s.cfgFormat := rfl
@[simp] theorem landPcm_cfgRate (d : During) : (s.landPcm d).cfgRate = s.cfgRate := rfl
@[simp] theorem landPcm_cfgRingBase (d : During) : (s.landPcm d).cfgRingBase = s.cfgRingBase := rfl
@[simp] theorem landPcm_cfgRingFrames (d : During) : (s.landPcm d).cfgRingFrames = s.cfgRingFrames := rfl
@[simp] theorem landPcm_cfgPeriodFrames (d : During) : (s.landPcm d).cfgPeriodFrames = s.cfgPeriodFrames := rfl
@[simp] theorem landPcm_cfgVmask (d : During) : (s.landPcm d).cfgVmask = s.cfgVmask := rfl
@[simp] theorem landPcm_csStage (d : During) : (s.landPcm d).csStage = s.csStage := rfl
@[simp] theorem landPcm_configured (d : During) : (s.landPcm d).configured = s.configured := rfl
@[simp] theorem landPcm_actFormat (d : During) : (s.landPcm d).actFormat = s.actFormat := rfl
@[simp] theorem landPcm_actRate (d : During) : (s.landPcm d).actRate = s.actRate := rfl
@[simp] theorem landPcm_actRingBase (d : During) : (s.landPcm d).actRingBase = s.actRingBase := rfl
@[simp] theorem landPcm_actRingFrames (d : During) : (s.landPcm d).actRingFrames = s.actRingFrames := rfl
@[simp] theorem landPcm_actPeriodFrames (d : During) : (s.landPcm d).actPeriodFrames = s.actPeriodFrames := rfl
@[simp] theorem landPcm_actVmask (d : During) : (s.landPcm d).actVmask = s.actVmask := rfl
@[simp] theorem landPcm_actCs (d : During) : (s.landPcm d).actCs = s.actCs := rfl
@[simp] theorem landPcm_csCursor (d : During) : (s.landPcm d).csCursor = s.csCursor := rfl
@[simp] theorem landPcm_pos (d : During) : (s.landPcm d).pos = s.pos := rfl
@[simp] theorem landPcm_periodAcc (d : During) : (s.landPcm d).periodAcc = s.periodAcc := rfl
@[simp] theorem landPcm_sil (d : During) : (s.landPcm d).sil = s.sil := rfl
@[simp] theorem landPcm_silCapture (d : During) : (s.landPcm d).silCapture = s.silCapture := rfl
@[simp] theorem landPcm_notifyCount (d : During) : (s.landPcm d).notifyCount = s.notifyCount := rfl
@[simp] theorem landPcm_cmdPending (d : During) : (s.landPcm d).cmdPending = s.cmdPending := rfl
@[simp] theorem landPcm_cmdLatch (d : During) : (s.landPcm d).cmdLatch = s.cmdLatch := rfl
@[simp] theorem landPcm_lastResult (d : During) : (s.landPcm d).lastResult = s.lastResult := rfl
@[simp] theorem landPcm_xferActive (d : During) : (s.landPcm d).xferActive = s.xferActive := rfl
@[simp] theorem landPcm_evtPending (d : During) : (s.landPcm d).evtPending = s.evtPending := rfl
@[simp] theorem landPcm_evtResidue (d : During) : (s.landPcm d).evtResidue = s.evtResidue := rfl
@[simp] theorem landPcm_refillActive (d : During) : (s.landPcm d).refillActive = s.refillActive := rfl
@[simp] theorem landPcm_refillHalf (d : During) : (s.landPcm d).refillHalf = s.refillHalf := rfl
@[simp] theorem landPcm_refillLive (d : During) : (s.landPcm d).refillLive = s.refillLive := rfl
@[simp] theorem landPcm_refillSlot (d : During) : (s.landPcm d).refillSlot = s.refillSlot := rfl
@[simp] theorem landPcm_refillSil (d : During) : (s.landPcm d).refillSil = s.refillSil := rfl
@[simp] theorem landPcm_outbuf (d : During) : (s.landPcm d).outbuf = s.outbuf := rfl
@[simp] theorem landPcm_drain (d : During) : (s.landPcm d).drain = s.drain := rfl
@[simp] theorem landPcm_line (d : During) : (s.landPcm d).line = s.line := rfl
@[simp] theorem landPcm_notifyLog (d : During) : (s.landPcm d).notifyLog = s.notifyLog := rfl
@[simp] theorem landPcm_pcm (d : During) : (s.landPcm d).pcm = landAll s.pcm d := rfl
@[simp] theorem landPcm_program (d : During) : (s.landPcm d).program = s.program := rfl
@[simp] theorem landPcm_ackNext (d : During) : (s.landPcm d).ackNext = s.ackNext := rfl
@[simp] theorem landPcm_reads (d : During) : (s.landPcm d).reads = s.reads := rfl
@[simp] theorem landPcm_reqs (d : During) : (s.landPcm d).reqs = s.reqs := rfl

/-! ## advanceCursor -/

@[simp] theorem advanceCursor_cfgFormat : (s.advanceCursor).cfgFormat = s.cfgFormat := rfl
@[simp] theorem advanceCursor_cfgRate : (s.advanceCursor).cfgRate = s.cfgRate := rfl
@[simp] theorem advanceCursor_cfgRingBase : (s.advanceCursor).cfgRingBase = s.cfgRingBase := rfl
@[simp] theorem advanceCursor_cfgRingFrames : (s.advanceCursor).cfgRingFrames = s.cfgRingFrames := rfl
@[simp] theorem advanceCursor_cfgPeriodFrames : (s.advanceCursor).cfgPeriodFrames = s.cfgPeriodFrames := rfl
@[simp] theorem advanceCursor_cfgVmask : (s.advanceCursor).cfgVmask = s.cfgVmask := rfl
@[simp] theorem advanceCursor_csStage : (s.advanceCursor).csStage = s.csStage := rfl
@[simp] theorem advanceCursor_configured : (s.advanceCursor).configured = s.configured := rfl
@[simp] theorem advanceCursor_actFormat : (s.advanceCursor).actFormat = s.actFormat := rfl
@[simp] theorem advanceCursor_actRate : (s.advanceCursor).actRate = s.actRate := rfl
@[simp] theorem advanceCursor_actRingBase : (s.advanceCursor).actRingBase = s.actRingBase := rfl
@[simp] theorem advanceCursor_actRingFrames : (s.advanceCursor).actRingFrames = s.actRingFrames := rfl
@[simp] theorem advanceCursor_actPeriodFrames : (s.advanceCursor).actPeriodFrames = s.actPeriodFrames := rfl
@[simp] theorem advanceCursor_actVmask : (s.advanceCursor).actVmask = s.actVmask := rfl
@[simp] theorem advanceCursor_actCs : (s.advanceCursor).actCs = s.actCs := rfl
@[simp] theorem advanceCursor_csCursor : (s.advanceCursor).csCursor = nextCursor s.csCursor := rfl
@[simp] theorem advanceCursor_pos : (s.advanceCursor).pos = s.pos := rfl
@[simp] theorem advanceCursor_periodAcc : (s.advanceCursor).periodAcc = s.periodAcc := rfl
@[simp] theorem advanceCursor_sil : (s.advanceCursor).sil = s.sil := rfl
@[simp] theorem advanceCursor_silCapture : (s.advanceCursor).silCapture = s.silCapture := rfl
@[simp] theorem advanceCursor_notifyCount : (s.advanceCursor).notifyCount = s.notifyCount := rfl
@[simp] theorem advanceCursor_cmdPending : (s.advanceCursor).cmdPending = s.cmdPending := rfl
@[simp] theorem advanceCursor_cmdLatch : (s.advanceCursor).cmdLatch = s.cmdLatch := rfl
@[simp] theorem advanceCursor_lastResult : (s.advanceCursor).lastResult = s.lastResult := rfl
@[simp] theorem advanceCursor_xferActive : (s.advanceCursor).xferActive = s.xferActive := rfl
@[simp] theorem advanceCursor_evtPending : (s.advanceCursor).evtPending = s.evtPending := rfl
@[simp] theorem advanceCursor_evtResidue : (s.advanceCursor).evtResidue = s.evtResidue := rfl
@[simp] theorem advanceCursor_refillActive : (s.advanceCursor).refillActive = s.refillActive := rfl
@[simp] theorem advanceCursor_refillHalf : (s.advanceCursor).refillHalf = s.refillHalf := rfl
@[simp] theorem advanceCursor_refillLive : (s.advanceCursor).refillLive = s.refillLive := rfl
@[simp] theorem advanceCursor_refillSlot : (s.advanceCursor).refillSlot = s.refillSlot := rfl
@[simp] theorem advanceCursor_refillSil : (s.advanceCursor).refillSil = s.refillSil := rfl
@[simp] theorem advanceCursor_outbuf : (s.advanceCursor).outbuf = s.outbuf := rfl
@[simp] theorem advanceCursor_drain : (s.advanceCursor).drain = s.drain := rfl
@[simp] theorem advanceCursor_line : (s.advanceCursor).line = s.line := rfl
@[simp] theorem advanceCursor_notifyLog : (s.advanceCursor).notifyLog = s.notifyLog := rfl
@[simp] theorem advanceCursor_pcm : (s.advanceCursor).pcm = s.pcm := rfl
@[simp] theorem advanceCursor_program : (s.advanceCursor).program = s.program := rfl
@[simp] theorem advanceCursor_ackNext : (s.advanceCursor).ackNext = s.ackNext := rfl
@[simp] theorem advanceCursor_reads : (s.advanceCursor).reads = s.reads := rfl
@[simp] theorem advanceCursor_reqs : (s.advanceCursor).reqs = s.reqs := rfl

/-! ## emitted -/

@[simp] theorem emitted_cfgFormat (f : List Byte) : (s.emitted f).cfgFormat = s.cfgFormat := rfl
@[simp] theorem emitted_cfgRate (f : List Byte) : (s.emitted f).cfgRate = s.cfgRate := rfl
@[simp] theorem emitted_cfgRingBase (f : List Byte) : (s.emitted f).cfgRingBase = s.cfgRingBase := rfl
@[simp] theorem emitted_cfgRingFrames (f : List Byte) : (s.emitted f).cfgRingFrames = s.cfgRingFrames := rfl
@[simp] theorem emitted_cfgPeriodFrames (f : List Byte) : (s.emitted f).cfgPeriodFrames = s.cfgPeriodFrames := rfl
@[simp] theorem emitted_cfgVmask (f : List Byte) : (s.emitted f).cfgVmask = s.cfgVmask := rfl
@[simp] theorem emitted_csStage (f : List Byte) : (s.emitted f).csStage = s.csStage := rfl
@[simp] theorem emitted_configured (f : List Byte) : (s.emitted f).configured = s.configured := rfl
@[simp] theorem emitted_actFormat (f : List Byte) : (s.emitted f).actFormat = s.actFormat := rfl
@[simp] theorem emitted_actRate (f : List Byte) : (s.emitted f).actRate = s.actRate := rfl
@[simp] theorem emitted_actRingBase (f : List Byte) : (s.emitted f).actRingBase = s.actRingBase := rfl
@[simp] theorem emitted_actRingFrames (f : List Byte) : (s.emitted f).actRingFrames = s.actRingFrames := rfl
@[simp] theorem emitted_actPeriodFrames (f : List Byte) : (s.emitted f).actPeriodFrames = s.actPeriodFrames := rfl
@[simp] theorem emitted_actVmask (f : List Byte) : (s.emitted f).actVmask = s.actVmask := rfl
@[simp] theorem emitted_actCs (f : List Byte) : (s.emitted f).actCs = s.actCs := rfl
@[simp] theorem emitted_csCursor (f : List Byte) : (s.emitted f).csCursor = s.csCursor := rfl
@[simp] theorem emitted_pos (f : List Byte) : (s.emitted f).pos = s.pos := rfl
@[simp] theorem emitted_periodAcc (f : List Byte) : (s.emitted f).periodAcc = s.periodAcc := rfl
@[simp] theorem emitted_sil (f : List Byte) : (s.emitted f).sil = s.sil := rfl
@[simp] theorem emitted_silCapture (f : List Byte) : (s.emitted f).silCapture = s.silCapture := rfl
@[simp] theorem emitted_notifyCount (f : List Byte) : (s.emitted f).notifyCount = s.notifyCount := rfl
@[simp] theorem emitted_cmdPending (f : List Byte) : (s.emitted f).cmdPending = s.cmdPending := rfl
@[simp] theorem emitted_cmdLatch (f : List Byte) : (s.emitted f).cmdLatch = s.cmdLatch := rfl
@[simp] theorem emitted_lastResult (f : List Byte) : (s.emitted f).lastResult = s.lastResult := rfl
@[simp] theorem emitted_xferActive (f : List Byte) : (s.emitted f).xferActive = s.xferActive := rfl
@[simp] theorem emitted_evtPending (f : List Byte) : (s.emitted f).evtPending = s.evtPending := rfl
@[simp] theorem emitted_evtResidue (f : List Byte) : (s.emitted f).evtResidue = s.evtResidue := rfl
@[simp] theorem emitted_refillActive (f : List Byte) : (s.emitted f).refillActive = s.refillActive := rfl
@[simp] theorem emitted_refillHalf (f : List Byte) : (s.emitted f).refillHalf = s.refillHalf := rfl
@[simp] theorem emitted_refillLive (f : List Byte) : (s.emitted f).refillLive = s.refillLive := rfl
@[simp] theorem emitted_refillSlot (f : List Byte) : (s.emitted f).refillSlot = s.refillSlot := rfl
@[simp] theorem emitted_refillSil (f : List Byte) : (s.emitted f).refillSil = s.refillSil := rfl
@[simp] theorem emitted_outbuf (f : List Byte) : (s.emitted f).outbuf = s.outbuf := rfl
@[simp] theorem emitted_drain (f : List Byte) : (s.emitted f).drain = (s.drain + 1) % Config.bufFrames := rfl
@[simp] theorem emitted_line (f : List Byte) : (s.emitted f).line = s.line ++ [f] := rfl
@[simp] theorem emitted_notifyLog (f : List Byte) : (s.emitted f).notifyLog = s.notifyLog := rfl
@[simp] theorem emitted_pcm (f : List Byte) : (s.emitted f).pcm = s.pcm := rfl
@[simp] theorem emitted_program (f : List Byte) : (s.emitted f).program = s.program := rfl
@[simp] theorem emitted_ackNext (f : List Byte) : (s.emitted f).ackNext = s.ackNext := rfl
@[simp] theorem emitted_reads (f : List Byte) : (s.emitted f).reads = s.reads := rfl
@[simp] theorem emitted_reqs (f : List Byte) : (s.emitted f).reqs = s.reqs := rfl

/-! ## observe -/

@[simp] theorem observe_cfgFormat (a : Nat) (w : Word) : (s.observe a w).cfgFormat = s.cfgFormat := rfl
@[simp] theorem observe_cfgRate (a : Nat) (w : Word) : (s.observe a w).cfgRate = s.cfgRate := rfl
@[simp] theorem observe_cfgRingBase (a : Nat) (w : Word) : (s.observe a w).cfgRingBase = s.cfgRingBase := rfl
@[simp] theorem observe_cfgRingFrames (a : Nat) (w : Word) : (s.observe a w).cfgRingFrames = s.cfgRingFrames := rfl
@[simp] theorem observe_cfgPeriodFrames (a : Nat) (w : Word) : (s.observe a w).cfgPeriodFrames = s.cfgPeriodFrames := rfl
@[simp] theorem observe_cfgVmask (a : Nat) (w : Word) : (s.observe a w).cfgVmask = s.cfgVmask := rfl
@[simp] theorem observe_csStage (a : Nat) (w : Word) : (s.observe a w).csStage = s.csStage := rfl
@[simp] theorem observe_configured (a : Nat) (w : Word) : (s.observe a w).configured = s.configured := rfl
@[simp] theorem observe_actFormat (a : Nat) (w : Word) : (s.observe a w).actFormat = s.actFormat := rfl
@[simp] theorem observe_actRate (a : Nat) (w : Word) : (s.observe a w).actRate = s.actRate := rfl
@[simp] theorem observe_actRingBase (a : Nat) (w : Word) : (s.observe a w).actRingBase = s.actRingBase := rfl
@[simp] theorem observe_actRingFrames (a : Nat) (w : Word) : (s.observe a w).actRingFrames = s.actRingFrames := rfl
@[simp] theorem observe_actPeriodFrames (a : Nat) (w : Word) : (s.observe a w).actPeriodFrames = s.actPeriodFrames := rfl
@[simp] theorem observe_actVmask (a : Nat) (w : Word) : (s.observe a w).actVmask = s.actVmask := rfl
@[simp] theorem observe_actCs (a : Nat) (w : Word) : (s.observe a w).actCs = s.actCs := rfl
@[simp] theorem observe_csCursor (a : Nat) (w : Word) : (s.observe a w).csCursor = s.csCursor := rfl
@[simp] theorem observe_pos (a : Nat) (w : Word) : (s.observe a w).pos = s.pos := rfl
@[simp] theorem observe_periodAcc (a : Nat) (w : Word) : (s.observe a w).periodAcc = s.periodAcc := rfl
@[simp] theorem observe_sil (a : Nat) (w : Word) : (s.observe a w).sil = s.sil := rfl
@[simp] theorem observe_silCapture (a : Nat) (w : Word) : (s.observe a w).silCapture = s.silCapture := rfl
@[simp] theorem observe_notifyCount (a : Nat) (w : Word) : (s.observe a w).notifyCount = s.notifyCount := rfl
@[simp] theorem observe_cmdPending (a : Nat) (w : Word) : (s.observe a w).cmdPending = s.cmdPending := rfl
@[simp] theorem observe_cmdLatch (a : Nat) (w : Word) : (s.observe a w).cmdLatch = s.cmdLatch := rfl
@[simp] theorem observe_lastResult (a : Nat) (w : Word) : (s.observe a w).lastResult = s.lastResult := rfl
@[simp] theorem observe_xferActive (a : Nat) (w : Word) : (s.observe a w).xferActive = s.xferActive := rfl
@[simp] theorem observe_evtPending (a : Nat) (w : Word) : (s.observe a w).evtPending = s.evtPending := rfl
@[simp] theorem observe_evtResidue (a : Nat) (w : Word) : (s.observe a w).evtResidue = s.evtResidue := rfl
@[simp] theorem observe_refillActive (a : Nat) (w : Word) : (s.observe a w).refillActive = s.refillActive := rfl
@[simp] theorem observe_refillHalf (a : Nat) (w : Word) : (s.observe a w).refillHalf = s.refillHalf := rfl
@[simp] theorem observe_refillLive (a : Nat) (w : Word) : (s.observe a w).refillLive = s.refillLive := rfl
@[simp] theorem observe_refillSlot (a : Nat) (w : Word) : (s.observe a w).refillSlot = s.refillSlot := rfl
@[simp] theorem observe_refillSil (a : Nat) (w : Word) : (s.observe a w).refillSil = s.refillSil := rfl
@[simp] theorem observe_outbuf (a : Nat) (w : Word) : (s.observe a w).outbuf = s.outbuf := rfl
@[simp] theorem observe_drain (a : Nat) (w : Word) : (s.observe a w).drain = s.drain := rfl
@[simp] theorem observe_line (a : Nat) (w : Word) : (s.observe a w).line = s.line := rfl
@[simp] theorem observe_notifyLog (a : Nat) (w : Word) : (s.observe a w).notifyLog = s.notifyLog := rfl
@[simp] theorem observe_pcm (a : Nat) (w : Word) : (s.observe a w).pcm = s.pcm := rfl
@[simp] theorem observe_program (a : Nat) (w : Word) : (s.observe a w).program = s.program := rfl
@[simp] theorem observe_ackNext (a : Nat) (w : Word) : (s.observe a w).ackNext = s.ackNext := rfl
@[simp] theorem observe_reads (a : Nat) (w : Word) : (s.observe a w).reads = s.reads ++ [(a, w)] := rfl
@[simp] theorem observe_reqs (a : Nat) (w : Word) : (s.observe a w).reqs = s.reqs := rfl

/-! ## closeRefill -/

@[simp] theorem closeRefill_cfgFormat : (s.closeRefill).cfgFormat = s.cfgFormat := rfl
@[simp] theorem closeRefill_cfgRate : (s.closeRefill).cfgRate = s.cfgRate := rfl
@[simp] theorem closeRefill_cfgRingBase : (s.closeRefill).cfgRingBase = s.cfgRingBase := rfl
@[simp] theorem closeRefill_cfgRingFrames : (s.closeRefill).cfgRingFrames = s.cfgRingFrames := rfl
@[simp] theorem closeRefill_cfgPeriodFrames : (s.closeRefill).cfgPeriodFrames = s.cfgPeriodFrames := rfl
@[simp] theorem closeRefill_cfgVmask : (s.closeRefill).cfgVmask = s.cfgVmask := rfl
@[simp] theorem closeRefill_csStage : (s.closeRefill).csStage = s.csStage := rfl
@[simp] theorem closeRefill_configured : (s.closeRefill).configured = s.configured := rfl
@[simp] theorem closeRefill_actFormat : (s.closeRefill).actFormat = s.actFormat := rfl
@[simp] theorem closeRefill_actRate : (s.closeRefill).actRate = s.actRate := rfl
@[simp] theorem closeRefill_actRingBase : (s.closeRefill).actRingBase = s.actRingBase := rfl
@[simp] theorem closeRefill_actRingFrames : (s.closeRefill).actRingFrames = s.actRingFrames := rfl
@[simp] theorem closeRefill_actPeriodFrames : (s.closeRefill).actPeriodFrames = s.actPeriodFrames := rfl
@[simp] theorem closeRefill_actVmask : (s.closeRefill).actVmask = s.actVmask := rfl
@[simp] theorem closeRefill_actCs : (s.closeRefill).actCs = s.actCs := rfl
@[simp] theorem closeRefill_csCursor : (s.closeRefill).csCursor = s.csCursor := rfl
@[simp] theorem closeRefill_pos : (s.closeRefill).pos = s.pos := rfl
@[simp] theorem closeRefill_periodAcc : (s.closeRefill).periodAcc = s.periodAcc := rfl
@[simp] theorem closeRefill_sil : (s.closeRefill).sil = s.sil := rfl
@[simp] theorem closeRefill_silCapture : (s.closeRefill).silCapture = s.silCapture := rfl
@[simp] theorem closeRefill_notifyCount : (s.closeRefill).notifyCount = s.notifyCount := rfl
@[simp] theorem closeRefill_cmdPending : (s.closeRefill).cmdPending = s.cmdPending := rfl
@[simp] theorem closeRefill_cmdLatch : (s.closeRefill).cmdLatch = s.cmdLatch := rfl
@[simp] theorem closeRefill_lastResult : (s.closeRefill).lastResult = s.lastResult := rfl
@[simp] theorem closeRefill_xferActive : (s.closeRefill).xferActive = s.xferActive := rfl
@[simp] theorem closeRefill_evtPending : (s.closeRefill).evtPending = s.evtPending := rfl
@[simp] theorem closeRefill_evtResidue : (s.closeRefill).evtResidue = s.evtResidue := rfl
@[simp] theorem closeRefill_refillActive : (s.closeRefill).refillActive = false := rfl
@[simp] theorem closeRefill_refillHalf : (s.closeRefill).refillHalf = s.refillHalf := rfl
@[simp] theorem closeRefill_refillLive : (s.closeRefill).refillLive = s.refillLive := rfl
@[simp] theorem closeRefill_refillSlot : (s.closeRefill).refillSlot = s.refillSlot := rfl
@[simp] theorem closeRefill_refillSil : (s.closeRefill).refillSil = s.refillSil := rfl
@[simp] theorem closeRefill_outbuf : (s.closeRefill).outbuf = s.outbuf := rfl
@[simp] theorem closeRefill_drain : (s.closeRefill).drain = s.drain := rfl
@[simp] theorem closeRefill_line : (s.closeRefill).line = s.line := rfl
@[simp] theorem closeRefill_notifyLog : (s.closeRefill).notifyLog = s.notifyLog := rfl
@[simp] theorem closeRefill_pcm : (s.closeRefill).pcm = s.pcm := rfl
@[simp] theorem closeRefill_program : (s.closeRefill).program = s.program := rfl
@[simp] theorem closeRefill_ackNext : (s.closeRefill).ackNext = s.ackNext := rfl
@[simp] theorem closeRefill_reads : (s.closeRefill).reads = s.reads := rfl
@[simp] theorem closeRefill_reqs : (s.closeRefill).reqs = s.reqs := rfl

/-! ## setSlot -/

@[simp] theorem setSlot_cfgFormat (j : Nat) : (s.setSlot j).cfgFormat = s.cfgFormat := rfl
@[simp] theorem setSlot_cfgRate (j : Nat) : (s.setSlot j).cfgRate = s.cfgRate := rfl
@[simp] theorem setSlot_cfgRingBase (j : Nat) : (s.setSlot j).cfgRingBase = s.cfgRingBase := rfl
@[simp] theorem setSlot_cfgRingFrames (j : Nat) : (s.setSlot j).cfgRingFrames = s.cfgRingFrames := rfl
@[simp] theorem setSlot_cfgPeriodFrames (j : Nat) : (s.setSlot j).cfgPeriodFrames = s.cfgPeriodFrames := rfl
@[simp] theorem setSlot_cfgVmask (j : Nat) : (s.setSlot j).cfgVmask = s.cfgVmask := rfl
@[simp] theorem setSlot_csStage (j : Nat) : (s.setSlot j).csStage = s.csStage := rfl
@[simp] theorem setSlot_configured (j : Nat) : (s.setSlot j).configured = s.configured := rfl
@[simp] theorem setSlot_actFormat (j : Nat) : (s.setSlot j).actFormat = s.actFormat := rfl
@[simp] theorem setSlot_actRate (j : Nat) : (s.setSlot j).actRate = s.actRate := rfl
@[simp] theorem setSlot_actRingBase (j : Nat) : (s.setSlot j).actRingBase = s.actRingBase := rfl
@[simp] theorem setSlot_actRingFrames (j : Nat) : (s.setSlot j).actRingFrames = s.actRingFrames := rfl
@[simp] theorem setSlot_actPeriodFrames (j : Nat) : (s.setSlot j).actPeriodFrames = s.actPeriodFrames := rfl
@[simp] theorem setSlot_actVmask (j : Nat) : (s.setSlot j).actVmask = s.actVmask := rfl
@[simp] theorem setSlot_actCs (j : Nat) : (s.setSlot j).actCs = s.actCs := rfl
@[simp] theorem setSlot_csCursor (j : Nat) : (s.setSlot j).csCursor = s.csCursor := rfl
@[simp] theorem setSlot_pos (j : Nat) : (s.setSlot j).pos = s.pos := rfl
@[simp] theorem setSlot_periodAcc (j : Nat) : (s.setSlot j).periodAcc = s.periodAcc := rfl
@[simp] theorem setSlot_sil (j : Nat) : (s.setSlot j).sil = s.sil := rfl
@[simp] theorem setSlot_silCapture (j : Nat) : (s.setSlot j).silCapture = s.silCapture := rfl
@[simp] theorem setSlot_notifyCount (j : Nat) : (s.setSlot j).notifyCount = s.notifyCount := rfl
@[simp] theorem setSlot_cmdPending (j : Nat) : (s.setSlot j).cmdPending = s.cmdPending := rfl
@[simp] theorem setSlot_cmdLatch (j : Nat) : (s.setSlot j).cmdLatch = s.cmdLatch := rfl
@[simp] theorem setSlot_lastResult (j : Nat) : (s.setSlot j).lastResult = s.lastResult := rfl
@[simp] theorem setSlot_xferActive (j : Nat) : (s.setSlot j).xferActive = s.xferActive := rfl
@[simp] theorem setSlot_evtPending (j : Nat) : (s.setSlot j).evtPending = s.evtPending := rfl
@[simp] theorem setSlot_evtResidue (j : Nat) : (s.setSlot j).evtResidue = s.evtResidue := rfl
@[simp] theorem setSlot_refillActive (j : Nat) : (s.setSlot j).refillActive = s.refillActive := rfl
@[simp] theorem setSlot_refillHalf (j : Nat) : (s.setSlot j).refillHalf = s.refillHalf := rfl
@[simp] theorem setSlot_refillLive (j : Nat) : (s.setSlot j).refillLive = s.refillLive := rfl
@[simp] theorem setSlot_refillSlot (j : Nat) : (s.setSlot j).refillSlot = j := rfl
@[simp] theorem setSlot_refillSil (j : Nat) : (s.setSlot j).refillSil = s.refillSil := rfl
@[simp] theorem setSlot_outbuf (j : Nat) : (s.setSlot j).outbuf = s.outbuf := rfl
@[simp] theorem setSlot_drain (j : Nat) : (s.setSlot j).drain = s.drain := rfl
@[simp] theorem setSlot_line (j : Nat) : (s.setSlot j).line = s.line := rfl
@[simp] theorem setSlot_notifyLog (j : Nat) : (s.setSlot j).notifyLog = s.notifyLog := rfl
@[simp] theorem setSlot_pcm (j : Nat) : (s.setSlot j).pcm = s.pcm := rfl
@[simp] theorem setSlot_program (j : Nat) : (s.setSlot j).program = s.program := rfl
@[simp] theorem setSlot_ackNext (j : Nat) : (s.setSlot j).ackNext = s.ackNext := rfl
@[simp] theorem setSlot_reads (j : Nat) : (s.setSlot j).reads = s.reads := rfl
@[simp] theorem setSlot_reqs (j : Nat) : (s.setSlot j).reqs = s.reqs := rfl

/-! ## clearCommand -/

@[simp] theorem clearCommand_cfgFormat : (s.clearCommand).cfgFormat = s.cfgFormat := rfl
@[simp] theorem clearCommand_cfgRate : (s.clearCommand).cfgRate = s.cfgRate := rfl
@[simp] theorem clearCommand_cfgRingBase : (s.clearCommand).cfgRingBase = s.cfgRingBase := rfl
@[simp] theorem clearCommand_cfgRingFrames : (s.clearCommand).cfgRingFrames = s.cfgRingFrames := rfl
@[simp] theorem clearCommand_cfgPeriodFrames : (s.clearCommand).cfgPeriodFrames = s.cfgPeriodFrames := rfl
@[simp] theorem clearCommand_cfgVmask : (s.clearCommand).cfgVmask = s.cfgVmask := rfl
@[simp] theorem clearCommand_csStage : (s.clearCommand).csStage = s.csStage := rfl
@[simp] theorem clearCommand_configured : (s.clearCommand).configured = s.configured := rfl
@[simp] theorem clearCommand_actFormat : (s.clearCommand).actFormat = s.actFormat := rfl
@[simp] theorem clearCommand_actRate : (s.clearCommand).actRate = s.actRate := rfl
@[simp] theorem clearCommand_actRingBase : (s.clearCommand).actRingBase = s.actRingBase := rfl
@[simp] theorem clearCommand_actRingFrames : (s.clearCommand).actRingFrames = s.actRingFrames := rfl
@[simp] theorem clearCommand_actPeriodFrames : (s.clearCommand).actPeriodFrames = s.actPeriodFrames := rfl
@[simp] theorem clearCommand_actVmask : (s.clearCommand).actVmask = s.actVmask := rfl
@[simp] theorem clearCommand_actCs : (s.clearCommand).actCs = s.actCs := rfl
@[simp] theorem clearCommand_csCursor : (s.clearCommand).csCursor = s.csCursor := rfl
@[simp] theorem clearCommand_pos : (s.clearCommand).pos = s.pos := rfl
@[simp] theorem clearCommand_periodAcc : (s.clearCommand).periodAcc = s.periodAcc := rfl
@[simp] theorem clearCommand_sil : (s.clearCommand).sil = s.sil := rfl
@[simp] theorem clearCommand_silCapture : (s.clearCommand).silCapture = s.silCapture := rfl
@[simp] theorem clearCommand_notifyCount : (s.clearCommand).notifyCount = s.notifyCount := rfl
@[simp] theorem clearCommand_cmdPending : (s.clearCommand).cmdPending = false := rfl
@[simp] theorem clearCommand_cmdLatch : (s.clearCommand).cmdLatch = s.cmdLatch := rfl
@[simp] theorem clearCommand_lastResult : (s.clearCommand).lastResult = s.lastResult := rfl
@[simp] theorem clearCommand_xferActive : (s.clearCommand).xferActive = s.xferActive := rfl
@[simp] theorem clearCommand_evtPending : (s.clearCommand).evtPending = s.evtPending := rfl
@[simp] theorem clearCommand_evtResidue : (s.clearCommand).evtResidue = s.evtResidue := rfl
@[simp] theorem clearCommand_refillActive : (s.clearCommand).refillActive = s.refillActive := rfl
@[simp] theorem clearCommand_refillHalf : (s.clearCommand).refillHalf = s.refillHalf := rfl
@[simp] theorem clearCommand_refillLive : (s.clearCommand).refillLive = s.refillLive := rfl
@[simp] theorem clearCommand_refillSlot : (s.clearCommand).refillSlot = s.refillSlot := rfl
@[simp] theorem clearCommand_refillSil : (s.clearCommand).refillSil = s.refillSil := rfl
@[simp] theorem clearCommand_outbuf : (s.clearCommand).outbuf = s.outbuf := rfl
@[simp] theorem clearCommand_drain : (s.clearCommand).drain = s.drain := rfl
@[simp] theorem clearCommand_line : (s.clearCommand).line = s.line := rfl
@[simp] theorem clearCommand_notifyLog : (s.clearCommand).notifyLog = s.notifyLog := rfl
@[simp] theorem clearCommand_pcm : (s.clearCommand).pcm = s.pcm := rfl
@[simp] theorem clearCommand_program : (s.clearCommand).program = s.program := rfl
@[simp] theorem clearCommand_ackNext : (s.clearCommand).ackNext = s.ackNext := rfl
@[simp] theorem clearCommand_reads : (s.clearCommand).reads = s.reads := rfl
@[simp] theorem clearCommand_reqs : (s.clearCommand).reqs = s.reqs := rfl

/-! ## dropEvent -/

@[simp] theorem dropEvent_cfgFormat : (s.dropEvent).cfgFormat = s.cfgFormat := rfl
@[simp] theorem dropEvent_cfgRate : (s.dropEvent).cfgRate = s.cfgRate := rfl
@[simp] theorem dropEvent_cfgRingBase : (s.dropEvent).cfgRingBase = s.cfgRingBase := rfl
@[simp] theorem dropEvent_cfgRingFrames : (s.dropEvent).cfgRingFrames = s.cfgRingFrames := rfl
@[simp] theorem dropEvent_cfgPeriodFrames : (s.dropEvent).cfgPeriodFrames = s.cfgPeriodFrames := rfl
@[simp] theorem dropEvent_cfgVmask : (s.dropEvent).cfgVmask = s.cfgVmask := rfl
@[simp] theorem dropEvent_csStage : (s.dropEvent).csStage = s.csStage := rfl
@[simp] theorem dropEvent_configured : (s.dropEvent).configured = s.configured := rfl
@[simp] theorem dropEvent_actFormat : (s.dropEvent).actFormat = s.actFormat := rfl
@[simp] theorem dropEvent_actRate : (s.dropEvent).actRate = s.actRate := rfl
@[simp] theorem dropEvent_actRingBase : (s.dropEvent).actRingBase = s.actRingBase := rfl
@[simp] theorem dropEvent_actRingFrames : (s.dropEvent).actRingFrames = s.actRingFrames := rfl
@[simp] theorem dropEvent_actPeriodFrames : (s.dropEvent).actPeriodFrames = s.actPeriodFrames := rfl
@[simp] theorem dropEvent_actVmask : (s.dropEvent).actVmask = s.actVmask := rfl
@[simp] theorem dropEvent_actCs : (s.dropEvent).actCs = s.actCs := rfl
@[simp] theorem dropEvent_csCursor : (s.dropEvent).csCursor = s.csCursor := rfl
@[simp] theorem dropEvent_pos : (s.dropEvent).pos = s.pos := rfl
@[simp] theorem dropEvent_periodAcc : (s.dropEvent).periodAcc = s.periodAcc := rfl
@[simp] theorem dropEvent_sil : (s.dropEvent).sil = s.sil := rfl
@[simp] theorem dropEvent_silCapture : (s.dropEvent).silCapture = s.silCapture := rfl
@[simp] theorem dropEvent_notifyCount : (s.dropEvent).notifyCount = s.notifyCount := rfl
@[simp] theorem dropEvent_cmdPending : (s.dropEvent).cmdPending = s.cmdPending := rfl
@[simp] theorem dropEvent_cmdLatch : (s.dropEvent).cmdLatch = s.cmdLatch := rfl
@[simp] theorem dropEvent_lastResult : (s.dropEvent).lastResult = s.lastResult := rfl
@[simp] theorem dropEvent_xferActive : (s.dropEvent).xferActive = s.xferActive := rfl
@[simp] theorem dropEvent_evtPending : (s.dropEvent).evtPending = false := rfl
@[simp] theorem dropEvent_evtResidue : (s.dropEvent).evtResidue = s.evtResidue := rfl
@[simp] theorem dropEvent_refillActive : (s.dropEvent).refillActive = s.refillActive := rfl
@[simp] theorem dropEvent_refillHalf : (s.dropEvent).refillHalf = s.refillHalf := rfl
@[simp] theorem dropEvent_refillLive : (s.dropEvent).refillLive = s.refillLive := rfl
@[simp] theorem dropEvent_refillSlot : (s.dropEvent).refillSlot = s.refillSlot := rfl
@[simp] theorem dropEvent_refillSil : (s.dropEvent).refillSil = s.refillSil := rfl
@[simp] theorem dropEvent_outbuf : (s.dropEvent).outbuf = s.outbuf := rfl
@[simp] theorem dropEvent_drain : (s.dropEvent).drain = s.drain := rfl
@[simp] theorem dropEvent_line : (s.dropEvent).line = s.line := rfl
@[simp] theorem dropEvent_notifyLog : (s.dropEvent).notifyLog = s.notifyLog := rfl
@[simp] theorem dropEvent_pcm : (s.dropEvent).pcm = s.pcm := rfl
@[simp] theorem dropEvent_program : (s.dropEvent).program = s.program := rfl
@[simp] theorem dropEvent_ackNext : (s.dropEvent).ackNext = s.ackNext := rfl
@[simp] theorem dropEvent_reads : (s.dropEvent).reads = s.reads := rfl
@[simp] theorem dropEvent_reqs : (s.dropEvent).reqs = s.reqs := rfl

end Sys2Proof.Machine
end

