-- ==== Sys2Proof/Laws/Frame.lean ====
section
/-!
SUPPORT. Laws of the channel-status cycle, the Frame Assembler and the prefill: what each can do, said once.
-/

namespace Sys2Proof.Machine

/-! ## The cycle -/

theorem nextCursor_toNat (k : BitVec 8) : (nextCursor k).toNat = (k.toNat + 1) % 192 := by
  simp only [nextCursor, Config.csBits, BitVec.toNat_ofNat]
  omega

theorem nextCursor_lt (k : BitVec 8) : (nextCursor k).toNat < Config.csBits := by
  rw [nextCursor_toNat]; simp only [Config.csBits]; omega

theorem cycleBit_succ (msg : Vector Byte 24) (k i : Nat) :
    cycleBit msg ((k + 1) % 192) i = cycleBit msg k (i + 1) := by
  have : ((k + 1) % 192 + i) % 192 = (k + (i + 1)) % 192 := by omega
  simp only [cycleBit, Config.csBits, this]

/-- What CS_NEXT_BIT returns is the cycle's bit at the cursor. -/
theorem csNow_eq (s : State) (h : s.csCursor.toNat < 192) : s.csNow = cycleBit s.actCs s.csCursor.toNat 0 := by
  have hb : (s.csCursor == 0#8) = (s.csCursor.toNat == 0) := by
    rw [Bool.eq_iff_iff]
    simp only [beq_iff_eq, ← BitVec.toNat_inj, BitVec.toNat_ofNat, Nat.zero_mod]
  simp only [State.csNow, cycleBit, Config.csBits, Nat.add_zero, Nat.mod_eq_of_lt h, hb]

/-! ## One frame -/

/-- A stereo frame with host writes inside its reads (20_memory.md R82): the left sample from the first SB reads, the
right from the next SB, every write landed after it. -/
theorem readStereo_spec (f : Format) (a : Nat) (d : During) (m : Memory) :
    readStereo f a d m =
      ⟨decodeSample f ((List.range f.sampleBytes).map (fun i => pcmByte (landAll m (d.take (i + 1))) (a + i))),
        decodeSample f ((List.range f.sampleBytes).map (fun i =>
          pcmByte (landAll m (d.take (f.sampleBytes + i + 1))) (a + f.sampleBytes + i))),
        landAll m d⟩ := by
  have land (k : Nat) :
      landAll (landAll m (d.take f.sampleBytes)) ((d.drop f.sampleBytes).take k) = landAll m (d.take (f.sampleBytes + k)) := by
    rw [← landAll_append, List.take_add]
  simp only [readStereo, readPcm_spec, land, ← landAll_append, List.take_append_drop, List.drop_drop]
  simp only [Nat.add_assoc]

@[simp] theorem frameBytesOf_length (l r : Sample) (vm : BitVec 24) (b : CsBit) :
    (frameBytesOf l r vm b).length = 16 := by
  simp [frameBytesOf]

theorem writeFrame_eq (l r : Sample) (k : Nat) (s : State) :
    writeFrame l r k s =
      { s with
        csCursor := nextCursor s.csCursor
        outbuf := s.outbuf.write (16 * k) (frameBytesOf l r s.actVmask s.csNow) } := rfl

/-- THE FRAME of ASSEMBLE_FRAME: only OUTBUF, CS_CURSOR and PCM memory change, the last by the host's own writes. -/
theorem assembleFrame_frame (src : FrameSource) (k : Nat) (d : During) (s : State) :
    assembleFrame src k d s =
      { s with
        csCursor := nextCursor s.csCursor
        outbuf := (assembleFrame src k d s).outbuf
        pcm := landAll s.pcm d } := by
  cases src with
  | silence => rfl
  | pcm f => simp only [assembleFrame, readStereo_spec, writeFrame_eq]

/-- OUTBUF after ASSEMBLE_FRAME: 16 bytes written at the slot. -/
theorem assembleFrame_outbuf (src : FrameSource) (k : Nat) (d : During) (s : State) :
    ∃ bs : List Byte, bs.length = 16 ∧ (assembleFrame src k d s).outbuf = s.outbuf.write (16 * k) bs := by
  cases src with
  | silence => exact ⟨_, frameBytesOf_length 0 0 s.actVmask s.csNow, rfl⟩
  | pcm f =>
    exact ⟨_, frameBytesOf_length (readStereo s.actFormat (frameAddr s f) d s.pcm).left
      (readStereo s.actFormat (frameAddr s f) d s.pcm).right s.actVmask s.csNow, rfl⟩

/-! ## Silence -/

/-- THE SPEC OF A RUN OF SILENCE SLOTS: only OUTBUF and CS_CURSOR change, each slot holds the silence frame of its place
in the cycle, and bytes outside the slots stay. -/
theorem silenceSlots_spec (n first : Nat) (s : State) (h : s.csCursor.toNat < 192) :
    (silenceSlots first n s =
      { s with
        csCursor := (silenceSlots first n s).csCursor
        outbuf := (silenceSlots first n s).outbuf }) ∧
    ((silenceSlots first n s).csCursor.toNat = (s.csCursor.toNat + n) % 192) ∧
    (∀ i, i < n → (silenceSlots first n s).outbuf.read (16 * (first + i)) 16 =
      some (silenceFrame s.actCs s.actVmask s.csCursor.toNat i)) ∧
    (∀ x, x < 16 * first ∨ 16 * (first + n) ≤ x → (silenceSlots first n s).outbuf.get x = s.outbuf.get x) := by
  induction n generalizing first s with
  | zero =>
    refine ⟨rfl, ?_, fun i hi => absurd hi (by omega), fun x _ => rfl⟩
    simp [silenceSlots, Nat.mod_eq_of_lt h]
  | succ n ih =>
    have hs : assembleFrame .silence first [] s =
        { s with
          csCursor := nextCursor s.csCursor
          outbuf := s.outbuf.write (16 * first) (silenceFrame s.actCs s.actVmask s.csCursor.toNat 0) } := by
      simp only [silenceFrame, ← csNow_eq s h]
      rfl
    have hc : (assembleFrame .silence first [] s).csCursor.toNat = (s.csCursor.toNat + 1) % 192 := by
      rw [hs]; exact nextCursor_toNat _
    obtain ⟨h1, h2, h3, h4⟩ := ih (first + 1) (assembleFrame .silence first [] s) (by rw [hc]; omega)
    have e : silenceSlots first (n + 1) s = silenceSlots (first + 1) n (assembleFrame .silence first [] s) := rfl
    rw [← e] at h1 h2 h3 h4
    refine ⟨?_, ?_, ?_, ?_⟩
    · rw [h1, hs]
    · rw [h2, hc]; omega
    · intro i hi
      cases i with
      | zero =>
        rw [read_congr _ (assembleFrame .silence first [] s).outbuf _ _ fun j hj => h4 _ (by omega), hs]
        have := read_write_same s.outbuf (16 * first) (silenceFrame s.actCs s.actVmask s.csCursor.toNat 0)
        simpa [silenceFrame] using this
      | succ i =>
        have := h3 i (by omega)
        rw [hc, silenceFrame, cycleBit_succ] at this
        rw [show 16 * (first + (i + 1)) = 16 * (first + 1 + i) by omega, this, hs]
        rfl
    · intro x hx
      rw [h4 x (by omega), hs]
      exact get_write_other _ _ _ _ (by simp [silenceFrame]; omega)

/-- THE FRAME of a run of silence slots, in every state. -/
theorem silenceSlots_frame (n first : Nat) (s : State) :
    silenceSlots first n s =
      { s with
        csCursor := (silenceSlots first n s).csCursor
        outbuf := (silenceSlots first n s).outbuf } := by
  induction n generalizing first s with
  | zero => rfl
  | succ n ih =>
    have h := ih (first + 1) (assembleFrame .silence first [] s)
    rw [← show silenceSlots first (n + 1) s = silenceSlots (first + 1) n (assembleFrame .silence first [] s) from rfl] at h
    obtain ⟨t, ht⟩ : ∃ t, silenceSlots first (n + 1) s = t := ⟨_, rfl⟩
    rw [ht] at h ⊢
    rw [h]
    rfl

/-- What a run of silence slots keeps of OUTBUF, whatever the cursor. -/
theorem silenceSlots_outbuf_keeps (P : Memory → Prop) (n first : Nat) (s : State)
    (hw : ∀ m k (bs : List Byte), first ≤ k → k < first + n → bs.length = 16 → P m → P (m.write (16 * k) bs))
    (h : P s.outbuf) : P (silenceSlots first n s).outbuf := by
  induction n generalizing first s with
  | zero => exact h
  | succ n ih =>
    obtain ⟨bs, hl, hb⟩ := assembleFrame_outbuf .silence first [] s
    exact ih (first + 1) _ (fun m k bs h1 h2 => hw m k bs (by omega) (by omega))
      (by rw [hb]; exact hw _ _ _ (by omega) (by omega) hl h)

theorem prefill_eq (s : State) : prefill s = silenceSlots 0 192 s := by
  unfold prefill
  exact congrArg (fun n => silenceSlots 0 n s) (show Config.bufFrames = 192 from rfl)

/-- THE SPEC OF PREFILL (43_buffer_controller.md R172, 41_channel_status.md R147 d). -/
theorem prefill_spec (s : State) (h : s.csCursor.toNat < 192) :
    prefill s = { s with outbuf := (prefill s).outbuf } ∧
    SilenceFilled (prefill s).outbuf s.actCs s.actVmask s.csCursor.toNat ∧
    (∀ x, 3072 ≤ x → (prefill s).outbuf.get x = s.outbuf.get x) := by
  obtain ⟨h1, h2, h3, h4⟩ := silenceSlots_spec 192 0 s h
  rw [← prefill_eq] at h1 h2 h3 h4
  refine ⟨?_, fun i hi => ?_, fun x hx => h4 x (by omega)⟩
  · have hc : (prefill s).csCursor = s.csCursor := by
      apply BitVec.eq_of_toNat_eq
      rw [h2]
      omega
    rw [hc] at h1
    exact h1
  · have := h3 i hi
    rwa [Nat.zero_add] at this

theorem prefill_frame (s : State) :
    prefill s = { s with csCursor := (prefill s).csCursor, outbuf := (prefill s).outbuf } := by
  have h := silenceSlots_frame 192 0 s
  rwa [← prefill_eq] at h

theorem prefill_wf (s : State) (h : s.outbuf.wf) : (prefill s).outbuf.wf := by
  rw [prefill_eq]
  exact silenceSlots_outbuf_keeps Memory.wf _ _ s (fun m _ _ _ _ _ hm => write_wf m _ _ hm) h

theorem prefill_range (s : State) (h : ∀ c ∈ s.outbuf, c.1 < Config.bufBytes) :
    ∀ c ∈ (prefill s).outbuf, c.1 < Config.bufBytes := by
  rw [prefill_eq]
  exact silenceSlots_outbuf_keeps (fun m => ∀ c ∈ m, c.1 < Config.bufBytes) _ _ s
    (fun m k bs _ hk hl hm => write_range m _ _ _ (by rw [hl]; simp only [Config.bufBytes]; omega) hm) h

/-- A buffer filled with silence is written whole. -/
theorem silenceFilled_primed (m : Memory) (msg : Vector Byte 24) (vm : BitVec 24) (k : Nat)
    (h : SilenceFilled m msg vm k) : OutbufPrimed m := by
  intro a ha
  simp only [Config.bufBytes] at ha
  obtain ⟨hl, hg⟩ := (read_eq_some _ _ _ _).mp (h (a / 16) (by simp only [Config.bufFrames]; omega))
  have := hg (a % 16) (by simp only [Config.slotBytes]; omega)
  simp only [Config.slotBytes, Nat.div_add_mod] at this
  rw [this, List.getElem?_eq_getElem (by rw [hl]; simp only [Config.slotBytes]; omega)]
  rfl

end Sys2Proof.Machine
end

