-- ==== Sys2Proof/Laws/Transfer.lean ====
section
/-!
SUPPORT. Laws of the submission and of the commands that use it, said once: the whole next state, OUTBUF's contents apart.
-/

namespace Sys2Proof.Machine

/-- THE SPEC OF A REPORTED SUBMISSION (43_buffer_controller.md R169), OUTBUF by name. -/
theorem submitReported_eq (s : State) (h : s.csCursor.toNat < 192) :
    s.submitReported =
      { s with
        outbuf := (prefill s).outbuf
        reqs := s.reqs ++ [0x10000C00#32]
        ackNext := true
        xferActive := s.ackNext || s.xferActive
        drain := if s.ackNext then 0 else s.drain
        evtPending := !s.ackNext && s.evtPending
        lastResult := if s.ackNext then .ok else .errResource } := by
  obtain ⟨p, hp⟩ : ∃ p, prefill s = p := ⟨_, rfl⟩
  have h1 := (prefill_spec s h).1
  rw [hp] at h1
  simp only [State.submitReported, State.submitted, State.submitCode, State.requested, hp]
  generalize p.outbuf = m at h1 ⊢
  subst h1
  clear hp h
  obtain ⟨b, hb⟩ : ∃ b, s.ackNext = b := ⟨_, rfl⟩
  simp only [hb]
  cases b
  · simp [State.setResult, State.emitReq, State.takeAck]
  · simp [State.openTransfer, State.setResult, State.emitReq, State.takeAck]

/-- THE FRAME of a reported submission, in every state. -/
theorem submitReported_frame (s : State) :
    s.submitReported =
      { s with
        csCursor := (prefill s).csCursor
        outbuf := (prefill s).outbuf
        reqs := s.reqs ++ [0x10000C00#32]
        ackNext := true
        xferActive := s.ackNext || s.xferActive
        drain := if s.ackNext then 0 else s.drain
        evtPending := !s.ackNext && s.evtPending
        lastResult := if s.ackNext then .ok else .errResource } := by
  have h1 := prefill_frame s
  obtain ⟨p, hp⟩ : ∃ p, prefill s = p := ⟨_, rfl⟩
  rw [hp] at h1
  simp only [State.submitReported, State.submitted, State.submitCode, State.requested, hp]
  generalize p.outbuf = m at h1 ⊢
  generalize p.csCursor = c at h1 ⊢
  subst h1
  clear hp
  obtain ⟨b, hb⟩ : ∃ b, s.ackNext = b := ⟨_, rfl⟩
  simp only [hb]
  cases b
  · simp [State.setResult, State.emitReq, State.takeAck]
  · simp [State.openTransfer, State.setResult, State.emitReq, State.takeAck]

/-- OUTBUF after a reported submission is the prefilled one. -/
theorem submitReported_outbuf (s : State) : s.submitReported.outbuf = (prefill s).outbuf := by
  obtain ⟨p, hp⟩ : ∃ p, prefill s = p := ⟨_, rfl⟩
  simp only [State.submitReported, State.submitted, State.requested, hp]
  split <;> rfl

/-- START or PREPARE with a transfer running submits nothing. -/
theorem ensureTransfer_active (s : State) (h : s.xferActive = true) :
    s.ensureTransfer = { s with lastResult := .ok } := by
  rw [State.ensureTransfer, if_pos h]; rfl

theorem ensureTransfer_idle (s : State) (h : s.xferActive = false) : s.ensureTransfer = s.submitReported := by
  simp [State.ensureTransfer, h]

theorem formatOf_code (f : Format) : Format.ofCode f.code = some f := by cases f <;> rfl

theorem code_formatOf (c : BitVec 4) (f : Format) (h : Format.ofCode c = some f) : f.code = c := by
  revert h; revert c f
  decide +revert

/-- What PREPARE's validation accepts (43_buffer_controller.md R170). -/
theorem validFormat_eq_some (s : State) (f : Format) :
    s.validFormat = some f ↔
      f.code = s.cfgFormat ∧ s.cfgRate ∈ Config.rates ∧ s.cfgRingFrames ≠ 0#32 ∧ s.cfgPeriodFrames ≠ 0#32 ∧
        s.cfgRingBase.toNat + s.cfgRingFrames.toNat * f.frameBytes ≤ 4294967296 := by
  unfold State.validFormat
  constructor
  · intro h
    split at h
    · exact absurd h (by simp)
    · rename_i g hg
      split at h
      · rename_i hc
        obtain rfl : g = f := by simpa using h
        exact ⟨code_formatOf _ _ hg, hc⟩
      · exact absurd h (by simp)
  · rintro ⟨hc, h⟩
    rw [← hc, formatOf_code]
    exact if_pos h

/-- THE INVERSION of PREPARE: rejected whole, or activated. -/
theorem execPrepare_cases (s : State) :
    (s.validFormat = none ∧ execPrepare s = .next { s with lastResult := .errConfig }) ∨
      ∃ f, s.validFormat = some f ∧ execPrepare s = .next (s.activate f).ensureTransfer := by
  cases h : s.validFormat with
  | none => exact .inl ⟨rfl, by simp only [execPrepare, h]; rfl⟩
  | some f => exact .inr ⟨f, rfl, by simp only [execPrepare, h]⟩

end Sys2Proof.Machine
end

