-- ==== Sys2Proof/Laws/Emission.lean ====
section
/-!
SUPPORT. Laws of XFER: delivery of an event, and what an emission can be.
-/

namespace Sys2Proof.Machine

theorem evtWord_getLsbD (r : BitVec 16) (i : Nat) :
    (encodeWord (.halfConsumed r)).getLsbD i = if i < 16 then r.getLsbD i else (0x1000#16).getLsbD (i - 16) := by
  have e : encodeWord (.halfConsumed r) = 0x1000#16 ++ r := rfl
  rw [e, BitVec.getLsbD_append]

theorem evtWord_kind (r : BitVec 16) : (encodeWord (.halfConsumed r)).extractLsb' 28 4 = 0x1#4 := by
  apply BitVec.eq_of_getLsbD_eq
  intro i hi
  rw [BitVec.getLsbD_extractLsb', evtWord_getLsbD, if_neg (by omega), show 28 + i - 16 = 12 + i by omega]
  revert i
  decide

theorem evtWord_rsv (r : BitVec 16) : (encodeWord (.halfConsumed r)).extractLsb' 16 12 = 0#12 := by
  apply BitVec.eq_of_getLsbD_eq
  intro i hi
  rw [BitVec.getLsbD_extractLsb', evtWord_getLsbD, if_neg (by omega), Nat.add_sub_cancel_left]
  revert i
  decide

theorem evtWord_residue (r : BitVec 16) : (encodeWord (.halfConsumed r)).extractLsb' 0 16 = r := by
  apply BitVec.eq_of_getLsbD_eq
  intro i hi
  rw [BitVec.getLsbD_extractLsb', evtWord_getLsbD, if_pos (by omega)]
  simp [hi]

/-- The word of HALF_CONSUMED, delivered, runs its meaning (43_buffer_controller.md R187). -/
theorem deliverEvent_halfConsumed (r : BitVec 16) (s : State) :
    deliverEvent (encodeWord (.halfConsumed r)) s = execHalfConsumed r s := by
  have h : decodeWord .evt (encodeWord (.halfConsumed r)) = .ok (.halfConsumed r) := by
    unfold decodeWord decodeEvtWord
    simp only [evtWord_kind, evtWord_rsv, evtWord_residue, and_self, if_true]
  rw [deliverEvent, h]
  rfl

/-- THE INVERSION of the boundary event (43_buffer_controller.md R188). -/
theorem boundaryEvent_next (s t : State) (h : boundaryEvent s = .next t) :
    (s.drain = 96 ∧ s.evtPending = false ∧ t = s.latchEvent 1536#16) ∨
    (s.drain = 0 ∧ s.evtPending = false ∧ t = s.latchEvent 3072#16) ∨
    (s.drain ≠ 96 ∧ s.drain ≠ 0 ∧ t = s) := by
  simp only [boundaryEvent, deliverEvent_halfConsumed, execHalfConsumed, Config.halfFrames] at h
  split at h
  · rename_i h1
    split at h
    · exact absurd h (by simp)
    · rename_i h2
      injection h with h
      exact .inl ⟨h1, by simpa using h2, h.symm⟩
  · rename_i h1
    split at h
    · rename_i h2
      split at h
      · exact absurd h (by simp)
      · rename_i h3
        injection h with h
        exact .inr (.inl ⟨h2, by simpa using h3, h.symm⟩)
    · rename_i h2
      injection h with h
      exact .inr (.inr ⟨h1, h2, h.symm⟩)

/-- THE INVERSION of an emission: what it checked and the boundary event it ends in (43_buffer_controller.md R188). -/
theorem emission_next (s t : State) (h : emission s = .next t) :
    s.xferActive = true ∧ (s.refillActive = false ∨ s.drain / 96 ≠ s.refillHalf.toNat) ∧
      ∃ frame, s.outbuf.read (16 * s.drain) 16 = some frame ∧ boundaryEvent (s.emitted frame) = .next t := by
  unfold emission at h
  split at h
  · exact absurd h (by simp)
  · rename_i hr
    cases hf : s.outbuf.read (Config.slotBytes * s.drain) Config.slotBytes with
    | none => rw [hf] at h; exact absurd h (by simp)
    | some f =>
      rw [hf] at h
      by_cases hx : s.xferActive = true
      · simp only [hx, if_true] at h
        refine ⟨hx, ?_, f, hf, h⟩
        simp only [Bool.and_eq_true, beq_iff_eq, Config.halfFrames] at hr
        by_cases ha : s.refillActive = true
        · exact .inr fun e => hr ⟨ha, e⟩
        · exact .inl (by simpa using ha)
      · simp [hx] at h

/-- No race, in the form the emission checks it. -/
theorem noRace (s : State) (hr : s.refillActive = false ∨ s.drain / 96 ≠ s.refillHalf.toNat) :
    (s.refillActive && s.drain / Config.halfFrames == s.refillHalf.toNat) = false := by
  rcases hr with h | h
  · simp [h]
  · simp [h]

/-- An emission, enabled or not, of a slot with a byte never written (20_memory.md R78, 70_reset_and_hazards.md R237). -/
theorem emission_unwritten (s : State) (hr : s.refillActive = false ∨ s.drain / 96 ≠ s.refillHalf.toNat)
    (hf : s.outbuf.read (16 * s.drain) 16 = none) : emission s = .fault .unwrittenRead := by
  have hf' : s.outbuf.read (Config.slotBytes * s.drain) Config.slotBytes = none := hf
  simp only [emission, noRace s hr, hf', Bool.false_eq_true, if_false]

/-- An emission of a written slot with no transfer running (43_buffer_controller.md R190; log 11). -/
theorem emission_notEnabled (s : State) (frame : List Byte) (hx : s.xferActive = false)
    (hr : s.refillActive = false ∨ s.drain / 96 ≠ s.refillHalf.toNat)
    (hf : s.outbuf.read (16 * s.drain) 16 = some frame) : emission s = .refused .emissionNotEnabled := by
  have hf' : s.outbuf.read (Config.slotBytes * s.drain) Config.slotBytes = some frame := hf
  simp only [emission, noRace s hr, hf', hx, Bool.false_eq_true, if_false]

/-- An emission that races with no refill and finds its slot written. -/
theorem emission_eq (s : State) (frame : List Byte) (hx : s.xferActive = true)
    (hr : s.refillActive = false ∨ s.drain / 96 ≠ s.refillHalf.toNat)
    (hf : s.outbuf.read (16 * s.drain) 16 = some frame) : emission s = boundaryEvent (s.emitted frame) := by
  have hf' : s.outbuf.read (Config.slotBytes * s.drain) Config.slotBytes = some frame := hf
  simp only [emission, hx, noRace s hr, hf', Bool.false_eq_true, if_false, if_true]

/-- STOP, whole (43_buffer_controller.md R176). -/
theorem execStop_eq (s : State) :
    execStop s = .next { s with
      xferActive := false, evtPending := false, sil := 1, lastResult := .ok,
      reqs := if s.xferActive then s.reqs ++ [0x20000000#32] else s.reqs } := by
  rw [execStop]
  cases hx : s.xferActive
  · simp [State.dropEvent, State.xchgSil, State.setResult, hx]
  · simp [State.dropEvent, State.xchgSil, State.setResult, State.terminated, State.emitReq, State.closeTransfer]

end Sys2Proof.Machine
end

