-- ==== Sys2Proof/Laws/HostPort.lean ====
section
/-!
SUPPORT. Laws of the register aperture: where each register stands, and what an access of one answers.
-/

namespace Sys2Proof.Machine

/-- Every register stands at its offset (10_state.md R23). -/
theorem regAt_offset (r : Reg) : regAt r.offset = some r := by
  cases r with
  | csStage k => revert k; decide
  | actCs k => revert k; decide
  | outbuf k =>
    have hk := k.isLt
    simp only [Reg.offset]
    rw [regAt, dif_pos ⟨by omega, by omega, by omega⟩]
    congr 2
    exact Fin.ext (by simp only; omega)
  | _ => rfl

theorem lowReg_offset (off : Nat) (r : Reg) (h : lowReg off = some r) : off = r.offset := by
  unfold lowReg at h
  split at h <;> first | (injection h with h; subst h; rfl) | contradiction

/-- No offset names two registers (10_state.md R23). -/
theorem offset_of_regAt (off : Nat) (r : Reg) (h : regAt off = some r) : off = r.offset := by
  unfold regAt at h
  split at h
  · injection h with h
    subst h
    simp only [Reg.offset]
    omega
  · exact lowReg_offset off r h

/-- Every register's offset is an aligned word of the aperture (20_memory.md R80). -/
theorem validAccess_offset (r : Reg) : validAccess 32 r.offset = true := by
  cases r with
  | csStage k => revert k; decide
  | actCs k => revert k; decide
  | outbuf k =>
    have hk := k.isLt
    have h4 : (0x1000 + 4 * k.val) % 4 = 0 := by omega
    simp only [validAccess, Reg.offset, Config.apertureBytes, h4]
    exact decide_eq_true (by omega)
  | _ => rfl

/-- THE SPEC OF A READ of a register. -/
theorem hostRead_reg (r : Reg) (s : State) (w : Word) (h : readReg r s = some w) :
    hostRead 32 r.offset s = .next (s.observe r.offset w) := by
  simp only [hostRead, validAccess_offset, readOffset, regAt_offset, h, if_true]

/-- THE SPEC OF A WRITE of a register. -/
theorem hostWrite_reg (r : Reg) (s : State) (w : Word) : hostWrite 32 r.offset w s = .next (writeReg r w s) := by
  simp only [hostWrite, validAccess_offset, writeOffset, regAt_offset, if_true]

/-- A field narrower than its register reads with zeros above (10_state.md R26, R31, R37, R39). -/
theorem setWidth_eq_append {n : Nat} (m : Nat) (x : BitVec n) : x.setWidth (m + n) = 0#m ++ x := by
  apply BitVec.eq_of_getLsbD_eq
  intro i hi
  rw [BitVec.getLsbD_append, BitVec.getLsbD_setWidth]
  split
  · simp [hi]
  · simpa using fun _ => BitVec.getLsbD_of_ge x i (by omega)

/-- A word is the four bytes cut from it. -/
theorem word_of_parts (w : Word) :
    w.extractLsb' 24 8 ++ w.extractLsb' 16 8 ++ w.extractLsb' 8 8 ++ w.extractLsb' 0 8 = w := by
  apply BitVec.eq_of_getLsbD_eq
  intro i hi
  simp only [BitVec.getLsbD_append, BitVec.getLsbD_extractLsb']
  by_cases h1 : i < 8
  · simp [h1]
  · by_cases h2 : i < 16
    · simp [h1, show i - 8 < 8 by omega, show 8 + (i - 8) = i by omega]
    · by_cases h3 : i < 24
      · simp [h1, show ¬ i - 8 < 8 by omega, show i - 8 - 8 < 8 by omega, show 16 + (i - 8 - 8) = i by omega]
      · simp [h1, show ¬ i - 8 < 8 by omega, show ¬ i - 8 - 8 < 8 by omega, show i - 8 - 8 - 8 < 8 by omega,
          show 24 + (i - 8 - 8 - 8) = i by omega]

/-- CS_STAGEk reads back what was written (10_state.md R32). -/
theorem messageWord_set (v : Vector Byte 24) (k : Fin 6) (w : Word) : messageWord (setMessageWord v k w) k = w := by
  simp [messageWord, setMessageWord, word_of_parts]

/-- Byte `i` of the message after a write of CS_STAGEk (10_state.md R32). -/
theorem getElem_setMessageWord (v : Vector Byte 24) (k : Fin 6) (w : Word) (i : Nat) (h : i < 24) :
    (setMessageWord v k w)[i] = if i / 4 = k.val then w.extractLsb' (8 * (i % 4)) 8 else v[i] := by
  have hi : i % 4 = 0 ∨ i % 4 = 1 ∨ i % 4 = 2 ∨ i % 4 = 3 := by omega
  simp only [setMessageWord, Vector.getElem_set]
  by_cases hk : i / 4 = k.val
  · rw [if_pos hk]
    rcases hi with e | e | e | e <;> rw [e] <;> (repeat' split) <;> first | rfl | omega
  · rw [if_neg hk]
    repeat' split
    all_goals first | rfl | omega

end Sys2Proof.Machine
end

