-- ==== Sys2Proof/Laws/PerInstr.lean ====
section
/-!
SUPPORT. Statements made per instruction, one lemma a constructor.
-/

/-- "Each word is exactly 32 bits" (30_encoding.md R95): the encoding has four bytes, the four of one word. -/
def Sys2Proof.Laws.EncodedLength.Statement (i : Sys2Proof.Instr) : Prop := (Sys2Proof.encode i).length = 4

namespace Sys2Proof.Laws.EncodedLength

theorem prepare : Statement .prepare := rfl

theorem setCs : Statement .setCs := rfl

theorem start : Statement .start := rfl

theorem stop : Statement .stop := rfl

theorem badcmd (rsv : BitVec 28) (op : BitVec 4) : Statement (.badcmd rsv op) := rfl

theorem halfConsumed (residue : BitVec 16) : Statement (.halfConsumed residue) := rfl

theorem submit : Statement .submit := rfl

theorem terminate : Statement .terminate := rfl

end Sys2Proof.Laws.EncodedLength
end

