-- ==== Sys2Proof/Laws/Sequencer.lean ====
section
/-!
SUPPORT. Laws of SEQ: the period accounting in closed form, REFILL_END, and what a SEQ step can be.
-/

namespace Sys2Proof.Machine

theorem notifyPeriod_eq (s : State) :
    s.notifyPeriod = { s with notifyCount := s.notifyCount + 1#32, notifyLog := s.notifyLog ++ [s.pos] } := rfl

/-- THE WHILE LOOP IN CLOSED FORM (43_buffer_controller.md R184): remainder, quotient, one log entry per subtraction. -/
theorem accountPeriods_eq (period : Nat) (hp : 0 < period) (fuel acc : Nat) (hf : acc < fuel) (s : State) :
    accountPeriods period fuel acc s =
      { s with
        periodAcc := BitVec.ofNat 32 (acc % period)
        notifyCount := s.notifyCount + BitVec.ofNat 32 (acc / period)
        notifyLog := s.notifyLog ++ List.replicate (acc / period) s.pos } := by
  induction fuel generalizing acc s with
  | zero => omega
  | succ fuel ih =>
    simp only [accountPeriods]
    split
    · rename_i h
      rw [ih (acc - period) (by omega)]
      have h1 : (acc - period) % period = acc % period := (Nat.mod_eq_sub_mod h.2).symm
      have h2 : acc / period = (acc - period) / period + 1 := Nat.div_eq_sub_div h.1 h.2
      rw [h1, h2, List.replicate_succ]
      simp only [notifyPeriod_eq, List.append_assoc, List.singleton_append, BitVec.add_assoc]
      congr 1
      rw [Nat.add_comm _ 1, BitVec.ofNat_add]
    · rename_i h
      have h1 : acc % period = acc := Nat.mod_eq_of_lt (by omega)
      have h2 : acc / period = 0 := Nat.div_eq_of_lt (by omega)
      rw [h1, h2]
      simp

/-- REFILL_END of a live refill in closed form (43_buffer_controller.md R184, R186). -/
theorem refillEnd_live (s : State) (hl : s.refillLive = true) (hp : 0 < s.actPeriodFrames.toNat) :
    refillEnd s =
      { s with
        pos := BitVec.ofNat 32 ((s.pos.toNat + 96) % s.actRingFrames.toNat)
        periodAcc := BitVec.ofNat 32 ((s.periodAcc.toNat + 96) % s.actPeriodFrames.toNat)
        notifyCount := s.notifyCount + BitVec.ofNat 32 ((s.periodAcc.toNat + 96) / s.actPeriodFrames.toNat)
        notifyLog := s.notifyLog ++ List.replicate ((s.periodAcc.toNat + 96) / s.actPeriodFrames.toNat)
          (BitVec.ofNat 32 ((s.pos.toNat + 96) % s.actRingFrames.toNat))
        refillActive := false } := by
  rw [refillEnd, if_pos hl, accountLive, accountPeriods_eq _ hp _ _ (by omega)]
  rfl

/-- REFILL_END of a silence refill (43_buffer_controller.md R185, R186). -/
theorem refillEnd_silence (s : State) (hl : s.refillLive = false) :
    refillEnd s =
      { s with sil := if s.sil = s.refillSil then silInc s.refillSil else s.sil, refillActive := false } := by
  rw [refillEnd, if_neg (by simp [hl])]
  rfl

/-- THE FRAME of a slot step (43_buffer_controller.md R182, R183). -/
theorem refillSlotStep_frame (d : During) (s : State) :
    refillSlotStep d s =
      { s with
        csCursor := nextCursor s.csCursor
        outbuf := (refillSlotStep d s).outbuf
        pcm := landAll s.pcm d
        refillSlot := s.refillSlot + 1 } := by
  have h := assembleFrame_frame (refillSource s) (Config.halfFrames * s.refillHalf.toNat + s.refillSlot) d s
  rw [refillSlotStep]
  generalize assembleFrame (refillSource s) (Config.halfFrames * s.refillHalf.toNat + s.refillSlot) d s = t at h
  rw [State.setSlot, h]

/-- A slot step writes the 16 bytes of its slot. -/
theorem refillSlotStep_outbuf (d : During) (s : State) :
    ∃ bs : List Byte, bs.length = 16 ∧
      (refillSlotStep d s).outbuf = s.outbuf.write (16 * (96 * s.refillHalf.toNat + s.refillSlot)) bs :=
  assembleFrame_outbuf _ _ d s

/-- A slot step of a silence refill with no host write in it, whole (43_buffer_controller.md R183). -/
theorem refillSlotStep_silence (s : State) (hk : s.csCursor.toNat < 192) (hl : s.refillLive = false) :
    refillSlotStep [] s =
      { s with
        csCursor := nextCursor s.csCursor
        outbuf := s.outbuf.write (16 * (96 * s.refillHalf.toNat + s.refillSlot))
          (silenceFrame s.actCs s.actVmask s.csCursor.toNat 0)
        refillSlot := s.refillSlot + 1 } := by
  have e : refillSource s = .silence := if_neg (by simp [hl])
  rw [refillSlotStep, e, silenceFrame, ← csNow_eq s hk]
  rfl

/-- A slot step of a live refill with no host write in it, whole (43_buffer_controller.md R182). -/
theorem refillSlotStep_live (s : State) (hk : s.csCursor.toNat < 192) (hl : s.refillLive = true) :
    refillSlotStep [] s =
      { s with
        csCursor := nextCursor s.csCursor
        outbuf := s.outbuf.write (16 * (96 * s.refillHalf.toNat + s.refillSlot))
          (liveFrame s ((s.pos.toNat + s.refillSlot) % s.actRingFrames.toNat) s.csCursor.toNat 0)
        refillSlot := s.refillSlot + 1 } := by
  have e : refillSource s = .pcm ((s.pos.toNat + s.refillSlot) % s.actRingFrames.toNat) := if_pos hl
  have em (f a m) : (readStereo f a [] m).mem = m := by simp only [readStereo, readPcm_quiet, landAll_nil]
  rw [refillSlotStep, e, liveFrame, ← csNow_eq s hk]
  simp only [assembleFrame, em]
  rfl

theorem silInc_eq (v : Word) : silInc v = if v = 0xFFFFFFFF#32 then 2#32 else v + 1#32 := by
  have h : v.toNat < 4294967295 ↔ v ≠ 0xFFFFFFFF#32 := by
    rw [Ne, ← BitVec.toNat_inj]
    have := v.isLt
    simp only [BitVec.toNat_ofNat]
    omega
  unfold silInc
  by_cases hv : v = 0xFFFFFFFF#32
  · rw [if_neg (by simp [hv]), if_pos hv]
  · rw [if_pos (h.mpr hv), if_neg hv]

/-- The silence count never counts into streaming (43_buffer_controller.md R185). -/
theorem silInc_ne_zero (v : Word) : silInc v ≠ 0#32 := by
  unfold silInc
  split
  · intro h
    have := congrArg BitVec.toNat h
    simp [BitVec.toNat_add] at this
    omega
  · decide

/-- What the period accounting can change, whatever the period. -/
theorem accountPeriods_frame (period fuel acc : Nat) (s : State) :
    accountPeriods period fuel acc s =
      { s with
        periodAcc := (accountPeriods period fuel acc s).periodAcc
        notifyCount := (accountPeriods period fuel acc s).notifyCount
        notifyLog := (accountPeriods period fuel acc s).notifyLog } := by
  induction fuel generalizing acc s with
  | zero => rfl
  | succ fuel ih =>
    simp only [accountPeriods]
    split
    · have h := ih (acc - period) s.notifyPeriod
      generalize accountPeriods period fuel (acc - period) s.notifyPeriod = t at h
      rw [h]; rfl
    · rfl

theorem accountPeriods_log (period fuel acc : Nat) (s : State) :
    ∃ more, (accountPeriods period fuel acc s).notifyLog = s.notifyLog ++ more := by
  induction fuel generalizing acc s with
  | zero => exact ⟨[], by simp [accountPeriods]⟩
  | succ fuel ih =>
    simp only [accountPeriods]
    split
    · obtain ⟨more, h⟩ := ih (acc - period) s.notifyPeriod
      exact ⟨s.pos :: more, by rw [h]; simp [State.notifyPeriod]⟩
    · exact ⟨[], by simp⟩

/-- THE FRAME of REFILL_END, in every state (43_buffer_controller.md R184 to R186). -/
theorem refillEnd_frame (s : State) :
    refillEnd s =
      { s with
        pos := (refillEnd s).pos
        periodAcc := (refillEnd s).periodAcc
        notifyCount := (refillEnd s).notifyCount
        notifyLog := (refillEnd s).notifyLog
        sil := (refillEnd s).sil
        refillActive := false } := by
  by_cases hl : s.refillLive = true
  · have h := accountPeriods_frame s.actPeriodFrames.toNat (s.periodAcc.toNat + Config.halfFrames + 1)
      (s.periodAcc.toNat + Config.halfFrames) (advancePos s)
    rw [refillEnd, if_pos hl, accountLive]
    generalize accountPeriods s.actPeriodFrames.toNat (s.periodAcc.toNat + Config.halfFrames + 1)
      (s.periodAcc.toNat + Config.halfFrames) (advancePos s) = t at h
    rw [h]; rfl
  · rw [refillEnd, if_neg hl]; rfl

/-- The half register is 0 or 1. -/
theorem refillHalf_lt (s : State) : s.refillHalf.toNat < 2 := s.refillHalf.isLt

/-- THE INVERSION of a SEQ step: its four kinds with their enabling conditions (43_buffer_controller.md R165). -/
theorem seqStep_cases (d : During) (s : State) :
    (s.refillActive = true ∧ s.refillSlot < 96 ∧ seqStep d s = .next (refillSlotStep d s)) ∨
    (s.refillActive = true ∧ s.refillSlot = 96 ∧ seqStep d s = .next (refillEnd (s.landPcm d))) ∨
    (s.refillActive = false ∧ s.cmdPending = true ∧ seqStep d s = execLatched (s.landPcm d)) ∨
    (s.refillActive = false ∧ s.cmdPending = false ∧ s.evtPending = true ∧ s.xferActive = true ∧
      seqStep d s = .next (refillBegin (s.landPcm d))) ∨
    (s.seqMove = none ∧ seqStep d s = .fault .noStep) := by
  cases ha : s.refillActive
  · cases hc : s.cmdPending
    · cases he : s.evtPending <;> cases hx : s.xferActive <;> simp [seqStep, State.seqMove, ha, hc, he, hx]
    · simp [seqStep, State.seqMove, ha, hc]
  · by_cases h1 : s.refillSlot < 96
    · simp [seqStep, State.seqMove, ha, h1]
    · by_cases h2 : s.refillSlot = 96
      · simp [seqStep, State.seqMove, ha, h2]
      · simp [seqStep, State.seqMove, ha, h1, h2]

end Sys2Proof.Machine
end

