-- ==== Sys2Proof/Laws/Run.lean ====
section
/-!
SUPPORT. Laws of a step and of runs: which statement a step takes, and how clean runs compose.
-/

namespace Sys2Proof.Machine

/-- A step with no statement left (60_exceptions.md R226). -/
theorem step_done (s : State) (h : s.program = []) : step s = .next s := by
  simp only [step, advance, h]

/-- A step takes the next statement. -/
theorem step_stmt (s : State) (st : Stmt) (rest : List Stmt) (h : s.program = st :: rest) :
    step s = takeStatement st { s with program := rest } := by
  simp only [step, advance, h]

theorem step_seq (s : State) (d : During) (rest : List Stmt) (h : s.program = .seq d :: rest) :
    step s = seqStep d { s with program := rest } := step_stmt s _ rest h

/-- STATUS bit 0 is CMD_PENDING (10_state.md R24). -/
theorem statusWord_bit0 (s : State) : s.statusWord.getLsbD 0 = s.cmdPending := by
  unfold State.statusWord
  rw [BitVec.getLsbD_append]
  cases s.cmdPending <;> rfl

/-- The last read of `wait` (30_encoding.md R108). -/
theorem waitTurn_done (turns : List (List Turn)) (s : State) (h : s.cmdPending = false) :
    waitTurn turns s = .next (s.observe 0x004 s.statusWord) := by
  simp only [waitTurn, statusWord_bit0, h, Bool.false_eq_true, if_false, Reg.offset]

/-- A read of `wait` that finds a command pending: the other agents' turns, then the loop again (log 24). -/
theorem waitTurn_again (turns : List (List Turn)) (s : State) (h : s.cmdPending = true) :
    waitTurn turns s = .next { s.observe 0x004 s.statusWord with program := waitAgain turns ++ s.program } := by
  simp only [waitTurn, statusWord_bit0, h, if_true, Reg.offset]
  rfl

theorem runSteps_succ (n : Nat) (s t : State) (h : step s = .next t) : runSteps (n + 1) s = runSteps n t := by
  simp only [runSteps, h, Result.andThen]

/-- The first step of a clean run. -/
theorem cleanRun_succ (n : Nat) (s t : State) :
    CleanRun (n + 1) s t ↔ ∃ u, step s = .next u ∧ CleanRun n u t := by
  simp only [CleanRun, runSteps]
  cases h : step s <;> simp [Result.andThen]

theorem cleanRun_add (n k : Nat) (s t u : State) (h : CleanRun n s t) (h' : CleanRun k t u) :
    CleanRun (n + k) s u := by
  induction n generalizing s with
  | zero =>
    simp only [CleanRun, runSteps, Host.Outcome.next.injEq] at h
    rw [h, Nat.zero_add]; exact h'
  | succ n ih =>
    obtain ⟨v, h1, h2⟩ := (cleanRun_succ n s t).mp h
    rw [show n + 1 + k = n + k + 1 by omega, cleanRun_succ]
    exact ⟨v, h1, ih v h2⟩

/-- The runs of this file are the host's. -/
theorem runSteps_eq_core_run (n : Nat) (s : State) : runSteps n s = Sys2Proof.core.run n s := by
  induction n generalizing s with
  | zero => rfl
  | succ n ih =>
    have h : Sys2Proof.core.step s = step s := rfl
    simp only [runSteps, Host.Core.run, h]
    cases step s with
    | next t => exact ih t
    | fault e => rfl
    | refused e => rfl

end Sys2Proof.Machine
end

