-- ==== Sys2Proof/Tests/Slice0.lean ====
section
/-!
SUPPORT. Tests on fixed values, their expected results from 95_test_vectors.md and the rules it names, and one witness for
the hypotheses of every statement that has some.
-/

namespace Sys2Proof.Machine

/-! ## Helpers -/

/-- A check on a next state. -/
def nextIs (r : Result) (f : State → Bool) : Bool :=
  match r with
  | .next s => f s
  | .fault _ => false
  | .refused _ => false

/-- A fault by name. -/
def faultIs (r : Result) (e : Fault) : Bool :=
  match r with
  | .next _ => false
  | .fault f => f == e
  | .refused _ => false

/-- The last value the host read. -/
def lastRead (s : State) : Option (Nat × Word) := s.reads.getLast?

/-- C4 of 95_test_vectors.md: S16_LE, a ring that ends exactly at 2^32. -/
def staged : State :=
  { State.reset with cfgRate := 48000, cfgRingBase := 0xFFFFF000, cfgRingFrames := 1024, cfgPeriodFrames := 192 }

/-- The same configuration, active. -/
def configured : State :=
  { staged with
    actRate := 48000, actRingBase := 0xFFFFF000, actRingFrames := 1024, actPeriodFrames := 192, configured := true }

/-- One slot of zeros at slot 95, the transfer running there. -/
def draining (drain : Nat) : State :=
  { configured with
    outbuf := cellsFrom (16 * drain) (List.replicate 16 0), xferActive := true, drain := drain }

/-- A refill after its 96 slot steps. -/
def refilled (live : Bool) (sil : Word) : State :=
  { configured with refillActive := true, refillSlot := 96, refillLive := live, refillSil := sil, sil := sil }

/-! ## The syntax and the decoder -/

theorem test_wellFormed_refuses_commands :
    WellFormed (.badcmd 0 1) = false ∧ WellFormed (.badcmd 0 2) = false ∧ WellFormed (.badcmd 0 3) = false ∧
    WellFormed (.badcmd 0 4) = false := by decide

theorem test_wellFormed_accepts_illegal_words :
    WellFormed (.badcmd 0 0) = true ∧ WellFormed (.badcmd 0 5) = true ∧ WellFormed (.badcmd 1 1) = true := by decide

/-- 30_encoding.md R96, R97: RSV 31:4 = 0, OP 3:0. -/
theorem test_decode_prepare : decode .cmd [0b00000001, 0, 0, 0] = .ok .prepare := rfl

theorem test_decode_setCs : decode .cmd [0b00000010, 0, 0, 0] = .ok .setCs := rfl

theorem test_decode_start : decode .cmd [0b00000011, 0, 0, 0] = .ok .start := rfl

theorem test_decode_stop : decode .cmd [0b00000100, 0, 0, 0] = .ok .stop := rfl

/-- C8: 0x00000015 has RSV = 1, OP = 5; C9: 0x00000000. -/
theorem test_decode_badcmd :
    decode .cmd [0b00010101, 0, 0, 0] = .ok (.badcmd 1 5) ∧ decode .cmd [0, 0, 0, 0] = .ok (.badcmd 0 0) := ⟨rfl, rfl⟩

/-- C33: 0x10000600 and 0x10000C00. -/
theorem test_decode_halfConsumed :
    decode .evt [0b00000000, 0b00000110, 0b00000000, 0b00010000] = .ok (.halfConsumed 1536) ∧
    decode .evt [0b00000000, 0b00001100, 0b00000000, 0b00010000] = .ok (.halfConsumed 3072) := ⟨rfl, rfl⟩

theorem test_decode_submit : decode .req [0b00000000, 0b00001100, 0b00000000, 0b00010000] = .ok .submit := rfl

theorem test_decode_terminate : decode .req [0, 0, 0, 0b00100000] = .ok .terminate := rfl

/-- X2, and bytes that are no word. -/
theorem test_decode_rejects :
    decode .evt [0, 0, 0x01, 0x10] = .error .badEventWord ∧ decode .evt [0, 0, 0, 0x20] = .error .badEventWord ∧
    decode .req [0, 0, 0, 0x10] = .error .notARequestWord ∧ decode .cmd [1, 0, 0] = .error .notOneWord := ⟨rfl, rfl, rfl, rfl⟩

theorem test_decodeTableWord :
    decodeTableWord 32 1 = some .prepare ∧ decodeTableWord 32 2 = some .setCs ∧ decodeTableWord 32 3 = some .start ∧
    decodeTableWord 32 4 = some .stop ∧ decodeTableWord 32 0 = some (.badcmd 0 0) ∧
    decodeTableWord 32 0x10000600 = some (.halfConsumed 1536) ∧ decodeTableWord 32 0x10000C00 = some .submit ∧
    decodeTableWord 32 0x20000000 = some .terminate := by decide

/-! ## One step of each instruction, from reset -/

/-- C6, and R170 on the reset configuration: ERR_CONFIG. -/
theorem test_step_prepare_rejected :
    nextIs (step (State.reset.withFetchWord 32 1)) (fun s => s.lastResult == .errConfig && !s.configured) = true := by
  decide

/-- C4: OK up to 2^32. C5: one frame more is ERR_CONFIG. -/
theorem test_prepare_bound :
    nextIs (exec .prepare { staged with xferActive := true }) (fun s => s.statusWord == 0x18) = true ∧
    nextIs (exec .prepare { staged with cfgRingFrames := 1025 }) (fun s => s.statusWord == 0x100) = true := by decide

/-- 00_scope.md R7: each of the six rates passes PREPARE's checks; C2: 44000 does not. -/
theorem test_prepare_rates :
    ([44100, 48000, 88200, 96000, 176400, 192000] : List Word).all
      (fun r => { staged with cfgRate := r }.validFormat == some .s16le) = true ∧
    { staged with cfgRate := 44000 }.validFormat = none := by decide

/-- K8. -/
theorem test_step_setCs :
    nextIs (step ({ State.reset with csStage := setMessageWord zeroMessage 0 0x04030201, csCursor := 57 }.withFetchWord 32 2))
      (fun s => s.csCursor == 0 && s.actCs[0] == 1 && s.actCs[3] == 4 && s.lastResult == .ok) = true := by decide

/-- C6: STATUS = 0x00000100. -/
theorem test_step_start_rejected :
    nextIs (step (State.reset.withFetchWord 32 3)) (fun s => s.statusWord == 0x100 && !s.cmdPending) = true := by decide

/-- C26 with a transfer running. -/
theorem test_start_captures :
    nextIs (exec .start { configured with xferActive := true, sil := 5, pos := 7 })
      (fun s => s.silCapture == 5 && s.sil == 0 && s.pos == 0) = true := by decide

/-- X6. -/
theorem test_step_stop :
    nextIs (step ({ configured with xferActive := true, sil := 0, evtPending := true }.withFetchWord 32 4))
      (fun s => s.reqs == [0x20000000] && !s.xferActive && !s.evtPending && s.sil == 1) = true := by decide

/-- C9: ERR_BADCMD. -/
theorem test_step_badcmd :
    nextIs (step (State.reset.withFetchWord 32 0)) (fun s => s.statusWord == 0x300) = true := by decide

/-- X1. -/
theorem test_step_halfConsumed :
    nextIs (step (State.reset.withFetchWord 32 0x10000600)) (fun s => s.evtPending && s.evtResidue == 1536) = true := by
  decide

/-- X7, ACK = 1; C7's ERR_RESOURCE for ACK = 0. -/
theorem test_step_submit :
    nextIs (step (State.reset.withFetchWord 32 0x10000C00))
      (fun s => s.xferActive && s.lastResult == .ok && s.reqs == [0x10000C00]) = true ∧
    nextIs (step ({ State.reset with ackNext := false }.withFetchWord 32 0x10000C00))
      (fun s => !s.xferActive && s.lastResult == .errResource) = true := by decide +kernel

theorem test_step_terminate :
    nextIs (step ({ State.reset with xferActive := true }.withFetchWord 32 0x20000000))
      (fun s => !s.xferActive && s.reqs == [0x20000000]) = true := by decide

/-! ## The encoder, the decoders, the cycle -/

/-- E4, E8, E11, E22. -/
theorem test_encodeSubframe :
    encodeSubframe 0x000000 0xFFFFFF .m true = [0xE2, 0xCC, 0xCC, 0xCC, 0xCC, 0xCC, 0xCC, 0xCA] ∧
    encodeSubframe 0x800000 0xFFFFFF .w false = [0xE4, 0xCC, 0xCC, 0xCC, 0xCC, 0xCC, 0xCD, 0x32] ∧
    encodeSubframe 0x123456 0xFFFFFF .b true = [0xE8, 0xD4, 0xB4, 0xCB, 0x53, 0x2C, 0xB3, 0x34] ∧
    encodeSubframe 0x332211 0xFFFF00 .m false = [0xE2, 0xCC, 0xCC, 0xD3, 0x2C, 0xAC, 0xAC, 0xCC] := by decide +kernel

/-- The words of E11 and E16. -/
theorem test_subframeWord :
    subframeWord 0x123456 true = 0x41234560 ∧ subframeWord 0x7FFFFF true = 0x47FFFFF0 := by decide

/-- D1, D2, D3, D4, D5, D6, D7, D8. -/
theorem test_decodeSample :
    decodeSample .s16le [0x34, 0x12] = 0x123400 ∧ decodeSample .s16le [0xFF, 0xFF] = 0xFFFF00 ∧
    decodeSample .s24le [0x11, 0x22, 0x33, 0x44] = 0x443322 ∧ decodeSample .s24le [0, 0, 0, 0x80] = 0x800000 ∧
    decodeSample .s24le3 [0x11, 0x22, 0x33] = 0x332211 ∧ decodeSample .s24le3 [0xFF, 0xFF, 0x7F] = 0x7FFFFF ∧
    decodeSample .s32le [0, 0, 0, 0x80] = 0x800000 ∧ decodeSample .s32le [0xFF, 0, 0, 0] = 0 := by decide

/-- A1, A3, A4. -/
theorem test_frameAddr :
    frameAddr { State.reset with actRingBase := 0x2000 } 1 = 0x2004 ∧
    frameAddr { State.reset with actRingBase := 0x2001, actFormat := .s24le3 } 2 = 0x200D ∧
    frameAddr { State.reset with actFormat := .s32le } 95 = 0x02F8 := by decide

/-- F3 through PCM memory: S16_LE bytes FF FF 01 00 at frame 1 of a ring at 0x2000, cursor 1. -/
theorem test_assembleFrame_live :
    (assembleFrame (.pcm 1) 0 []
        { State.reset with
          actRingBase := 0x2000, csCursor := 1, pcm := Memory.write [] 0x2004 [0xFF, 0xFF, 0x01, 0x00] }).outbuf.read 0 16 =
      some [0xE2, 0xCC, 0xCC, 0xAA, 0xAA, 0xAA, 0xAA, 0xCC, 0xE4, 0xCC, 0xCC, 0xB3, 0x33, 0x33, 0x33, 0x32] := by decide +kernel

/-- F4: the first silence slot of a block with c = 0. -/
theorem test_assembleFrame_silence :
    (assembleFrame .silence 0 [] State.reset).outbuf.read 0 16 =
      some [0xE8, 0xCC, 0xCC, 0xCC, 0xCC, 0xCC, 0xCC, 0xCC, 0xE4, 0xCC, 0xCC, 0xCC, 0xCC, 0xCC, 0xCC, 0xCC] := by decide +kernel

/-- K1 and K2. -/
theorem test_csNextBit :
    (drawBits 4 { State.reset with actCs := setMessageWord zeroMessage 0 5 }).1 =
      [⟨true, true⟩, ⟨false, false⟩, ⟨true, false⟩, ⟨false, false⟩] ∧
    csNextBit { State.reset with actCs := setMessageWord zeroMessage 5 0x80000000, csCursor := 191 } =
      (⟨true, false⟩, { State.reset with actCs := setMessageWord zeroMessage 5 0x80000000, csCursor := 0 }) := by decide +kernel

/-- 20_memory.md R82: a host write that lands between the two bytes of a sample is seen by the second only. -/
theorem test_readPcm_torn :
    (readPcm 0 2 [[], [⟨0, 0xAA⟩, ⟨1, 0xBB⟩]] [(0, 0x11), (1, 0x22)]).bytes = [0x11, 0xBB] := by decide

/-! ## Refills -/

/-- C23. -/
theorem test_halfOf :
    halfOf 0 = 0 ∧ halfOf 1536 = 0 ∧ halfOf 1537 = 1 ∧ halfOf 3072 = 1 ∧ halfOf 65535 = 1 := by decide

/-- C25. -/
theorem test_silInc : silInc 0xFFFFFFFE = 0xFFFFFFFF ∧ silInc 0xFFFFFFFF = 2 ∧ silInc 1 = 2 := by decide

/-- C17 (period 32: three notifications in one refill) and C12 (capacity 50: POS = 46). -/
theorem test_refillEnd_live :
    (refillEnd { refilled true 0 with actPeriodFrames := 32 }).notifyCount = 3 ∧
    (refillEnd { refilled true 0 with actRingFrames := 50 }).pos = 46 := by decide

/-- C24. -/
theorem test_refillEnd_silence : (refillEnd (refilled false 1)).sil = 2 := by decide

/-! ## The host port -/

/-- X8 and X14. -/
theorem test_faults :
    faultIs (hostRead 32 0x002 State.reset) .badRegisterAccess = true ∧
    faultIs (hostRead 16 0x004 State.reset) .badRegisterAccess = true ∧
    faultIs (hostRead 32 0x1000 State.reset) .unwrittenRead = true ∧
    faultIs (step { State.reset with program := [.seq []] }) .noStep = true := by decide

/-- X9, X10, X11. -/
theorem test_reserved_and_read_only :
    nextIs (hostRead 32 0x058 State.reset) (fun s => lastRead s == some (0x058, 0)) = true ∧
    hostWrite 32 0x040 7 State.reset = .next State.reset ∧
    nextIs (hostRead 32 0x000 State.reset) (fun s => lastRead s == some (0x000, 0)) = true := ⟨by decide, rfl, by decide⟩

/-- X15 and X16. -/
theorem test_narrow_registers :
    nextIs (hostWrite 32 0x008 0xFFFFFFFF State.reset) (fun s => readReg .cfgFormat s == some 0x0000000F) = true ∧
    nextIs (hostWrite 32 0x01C 0xFFFFFFFF State.reset) (fun s => readReg .cfgVmask s == some 0x00FFFFFF) = true := by decide

/-- X13: the window packs little-endian. -/
theorem test_window :
    readReg (.outbuf 0) { State.reset with outbuf := cellsFrom 0 [0xE8, 0xCC, 0xCC, 0xCB] } = some 0xCBCCCCE8 := by decide

/-- C31: the second write of CMD is dropped. -/
theorem test_command_port :
    nextIs (hostWrite 32 0 4 State.reset) (fun s => nextIs (hostWrite 32 0 3 s) (fun t => t.cmdLatch == 4)) = true := by
  decide

/-- 70_reset_and_hazards.md R237: an emission after the hardware reset. -/
theorem test_emit_after_reset :
    faultIs (runSteps 2 { draining 0 with program := [.rst, .emit] }) .unwrittenRead = true := by decide +kernel

/-- 43_buffer_controller.md R190: no emission after STOP, LINE untouched. -/
theorem test_emit_after_stop :
    emission { draining 0 with xferActive := false } = .refused .emissionNotEnabled := rfl

/-- 30_encoding.md R108, 93_implementation_defined.md row 18: STATUS read, the command executed, STATUS read again. -/
theorem test_wait_ends :
    nextIs (runSteps 3 { State.reset with cmdPending := true, cmdLatch := 2, program := [.wait []] })
      (fun s => s.reads == [(0x004, 1), (0x004, 0)] && s.program == []) = true := by decide

/-- R108: `cmd!` executes its command at once outside a refill, and is refused inside one. -/
theorem test_cmdNow :
    nextIs (runSteps 2 { State.reset with program := expandCmdNow 4 }) (fun s => s.sil == 1 && !s.cmdPending) = true ∧
    step { refilled false 1 with program := expandCmdNow 4 } = .refused .commandNowInRefill := ⟨by decide, rfl⟩

/-! ## The transcriber -/

/-- 30_encoding.md R107, R108: the binary forms of 95_test_vectors.md §3. -/
theorem test_transcribe :
    transcribe "ack 0\ncmd! START  ; now\nwr CFG_RATE, 44100\npcm 0x2000, 0x34, 0x12" =
      .ok [.ack false, .cmdNow 3, .seq [], .wr 32 0x00C 0xAC44, .pcm 0x2000 [0x34, 0x12]] := rfl

theorem test_transcribe_rejects :
    transcribe "seq\nbogus" = .error ⟨2, .unknownMnemonic⟩ := rfl

/-! ## Witnesses: states that meet the hypotheses of the statements -/

/-- The invariant at a state whose memories and LINE are empty and whose transfer is stopped. -/
theorem inv_of_empty (s : State) (ho : s.outbuf = []) (hm : s.pcm = []) (hl : s.line = []) (hx : s.xferActive = false)
    (hk : s.csCursor.toNat < 192) (hs : s.refillSlot ≤ 96) (hd : s.drain < 192)
    (hc : s.configured = true → ActiveConfig s) (h0 : s.sil = 0#32 → s.configured = true)
    (hr : s.refillActive = true → s.refillSil = s.sil ∧ s.refillLive = decide (s.refillSil = 0#32)) : Inv s where
  cursor := hk
  slot := hs
  drain := hd
  outbufForm := by rw [ho]; exact List.Pairwise.nil
  outbufRange := by rw [ho]; simp
  pcmForm := by rw [hm]; exact List.Pairwise.nil
  pcmRange := by rw [hm]; simp
  primed := by rw [hx]; simp
  config := hc
  streaming := h0
  refillSil h := (hr h).1
  refillMode h := (hr h).2
  frames := by rw [hl]; simp

theorem witness_activeConfig : ActiveConfig configured := by constructor <;> decide

theorem witness_inv_configured : Inv configured :=
  inv_of_empty _ rfl rfl rfl rfl (by decide) (by decide) (by decide) (fun _ => witness_activeConfig) (fun _ => rfl)
    (by decide)

/-- A transfer runs, as PREPARE's submission leaves it (X7, K9). -/
theorem witness_inv_transferring :
    Inv configured.submitReported ∧ configured.submitReported.xferActive = true := by
  obtain ⟨h1, h2, h3⟩ := prefill_spec configured (by decide)
  have hw := prefill_wf configured List.Pairwise.nil
  have hr := prefill_range configured (fun c hc => absurd hc (by simp [configured, staged, State.reset]))
  have hi := witness_inv_configured
  rw [submitReported_eq configured (by decide)]
  generalize (prefill configured).outbuf = m at h2 hw hr
  have ha := witness_activeConfig
  refine ⟨⟨hi.cursor, hi.slot, show 0 < 192 by decide, hw, hr, hi.pcmForm, hi.pcmRange, fun _ a ha => ?_,
    fun _ => ⟨ha.rate, ha.ringNonempty, ha.ringFits, ha.periodNonzero, ha.posInRing, ha.accInPeriod⟩, fun _ => rfl,
    hi.refillSil, hi.refillMode, hi.frames⟩, rfl⟩
  · simp only [Config.bufBytes] at ha
    have h := (read_eq_some _ _ _ _).mp (h2 (a / 16) (by simp only [Config.bufFrames]; omega))
    have := h.2 (a % 16) (by simp only [Config.slotBytes]; omega)
    simp only [Config.slotBytes, Nat.div_add_mod] at this
    simp only [this, silenceFrame]
    rw [List.getElem?_eq_getElem (by rw [frameBytesOf_length]; omega)]
    rfl

/-- ForeignEventWordFaults, each disjunct (X2). -/
theorem witness_foreignEventWord :
    (0x20000000#32).extractLsb' 28 4 ≠ 0x1#4 ∧ (0x10010000#32).extractLsb' 16 12 ≠ 0#12 := by decide

/-- IllegalCommandWordsOnlyReport, each disjunct at its boundary (R98). -/
theorem witness_illegalCommand :
    ((0#4 = 0#4) ∧ 5 ≤ (5#4).toNat ∧ (1#28 ≠ 0#28)) ∧ ¬ 5 ≤ (4#4).toNat := by decide

theorem witness_wellFormed : WellFormed (.badcmd 0 5) = true ∧ WellFormed (.halfConsumed 0xFFFF) = true := by decide

theorem witness_decodes : decode .evt [0xFF, 0xFF, 0x00, 0x10] = .ok (.halfConsumed 0xFFFF) := rfl

theorem witness_stepRunsLatchedCommand :
    let s := { configured with program := [.seq [[⟨0x2000, 0x55⟩]]], cmdPending := true, cmdLatch := 2 }
    s.program = .seq [[⟨0x2000, 0x55⟩]] :: [] ∧ s.refillActive = false ∧ s.cmdPending = true ∧
    decode .cmd (bytesOfWord s.cmdLatch) = .ok .setCs := ⟨rfl, rfl, rfl, rfl⟩

/-- StepRunsStatement: every statement at the head of a program, the words decoding, `cmd!` in and out of a refill,
`wait` with and without a command pending. -/
theorem witness_stepRunsStatement :
    (∀ st : Stmt, { State.reset with program := [st] }.program = st :: []) ∧
    decode .evt (bytesOfWord 0x10000600) = .ok (.halfConsumed 1536) ∧
    decode .req (bytesOfWord 0x20000000) = .ok .terminate ∧
    (0x10010000#32).extractLsb' 16 12 ≠ 0#12 ∧ 0x10000600#32 ≠ 0x10000C00#32 ∧ 0x10000600#32 ≠ 0x20000000#32 ∧
    State.reset.refillActive = false ∧ (refilled false 1).refillActive = true ∧
    State.reset.cmdPending = false ∧ { State.reset with cmdPending := true }.cmdPending = true :=
  ⟨fun _ => rfl, rfl, rfl, by decide, by decide, by decide, rfl, rfl, rfl, rfl⟩

/-- PrepareRejectsBadConfiguration, each disjunct at its boundary (C1, C2, C3, C5). -/
theorem witness_prepareRejects :
    3 < (4#4).toNat ∧ 44000#32 ∉ ([44100, 48000, 88200, 96000, 176400, 192000] : List Word) ∧ State.reset.cfgRingFrames = 0 ∧ State.reset.cfgPeriodFrames = 0 ∧
    Format.s16le.code = staged.cfgFormat ∧
    4294967296 < staged.cfgRingBase.toNat + (1025#32).toNat * Format.s16le.frameBytes := by decide

/-- PrepareTakesEffect, both clauses, at the bound of C4. -/
theorem witness_prepareAccepts :
    Format.s16le.code = staged.cfgFormat ∧ staged.cfgRate ∈ ([44100, 48000, 88200, 96000, 176400, 192000] : List Word) ∧
    staged.cfgRingFrames ≠ 0 ∧
    staged.cfgPeriodFrames ≠ 0 ∧
    staged.cfgRingBase.toNat + staged.cfgRingFrames.toNat * Format.s16le.frameBytes = 4294967296 ∧
    staged.xferActive = false ∧ { staged with xferActive := true }.xferActive = true := by decide

/-- StartStreams, each clause. -/
theorem witness_start :
    State.reset.configured = false ∧
    (configured.configured = true ∧ { configured with xferActive := true }.xferActive = true) ∧
    (configured.xferActive = false ∧ { configured with csCursor := 191 }.csCursor.toNat < 192) := by decide

theorem witness_halfConsumed :
    State.reset.evtPending = false ∧ { State.reset with evtPending := true }.evtPending = true := by decide

/-- SubmitPrefillsAndAsks, NextBitDrawsAndAdvances, CycleReadsWholeMessage, NoSessionLeak: the last cursor. -/
theorem witness_lastCursor :
    { State.reset with csCursor := 191 }.csCursor.toNat < 192 ∧ { State.reset with csCursor := 191 }.csCursor.toNat / 8 < 24 := by
  decide

theorem witness_payloadRoundTrip : [0x11#8, 0x22, 0x33].length = Format.s24le3.sampleBytes := rfl

/-- RingFramesFitMemory: the last frame of the ring. -/
theorem witness_ringFrames : Inv configured ∧ configured.configured = true ∧ 1023 < configured.actRingFrames.toNat :=
  ⟨witness_inv_configured, rfl, by decide⟩

/-- SequencerPriority: a state for each line. -/
theorem witness_sequencerPriority :
    ({ State.reset with refillActive := true, refillSlot := 95 }).seqMove = some .refillSlot ∧
    ({ State.reset with refillActive := true, refillSlot := 96, cmdPending := true }).seqMove = some .refillEnd ∧
    ({ State.reset with cmdPending := true, evtPending := true, xferActive := true }).seqMove = some .execCmd ∧
    ({ State.reset with evtPending := true, xferActive := true }).seqMove = some .refillBegin ∧
    ({ State.reset with evtPending := true }).seqMove = none := by decide

/-- SequencerPriority, the NoStep clause: no event, and an event with no transfer. -/
theorem witness_noStep :
    (State.reset.refillActive = false ∧ State.reset.cmdPending = false ∧ State.reset.evtPending = false ∧
      State.reset.refillSlot ≤ 96) ∧
    { State.reset with evtPending := true }.xferActive = false := by decide

/-- RefillBeginFixesHalfAndMode: the residues on each side of the boundary (C23). -/
theorem witness_refillBegin :
    let s := { configured with evtPending := true, xferActive := true, evtResidue := 1536 }
    let t := { configured with evtPending := true, xferActive := true, evtResidue := 1537 }
    (s.refillActive = false ∧ s.cmdPending = false ∧ s.evtPending = true ∧ s.xferActive = true ∧ s.evtResidue.toNat ≤ 1536) ∧
    (t.refillActive = false ∧ t.cmdPending = false ∧ t.evtPending = true ∧ t.xferActive = true ∧ ¬ t.evtResidue.toNat ≤ 1536) := by
  decide

theorem witness_liveRefillEnd :
    let s := refilled true 0
    s.refillActive = true ∧ s.refillSlot = 96 ∧ s.refillLive = true ∧ 0 < s.actPeriodFrames.toNat := by decide

theorem inv_refilled (sil : Word) : Inv (refilled (decide (sil = 0#32)) sil) :=
  inv_of_empty _ rfl rfl rfl rfl (show (0#8).toNat < 192 by decide) (Nat.le_refl 96) (show 0 < 192 by decide)
    (fun _ => ⟨witness_activeConfig.rate, witness_activeConfig.ringNonempty, witness_activeConfig.ringFits,
      witness_activeConfig.periodNonzero, witness_activeConfig.posInRing, witness_activeConfig.accInPeriod⟩)
    (fun _ => rfl) (fun _ => ⟨rfl, rfl⟩)

/-- SilenceRefillEndCounts, at both values of the wrap (C25). -/
theorem witness_silenceRefillEnd :
    (Inv (refilled false 0xFFFFFFFF) ∧ (refilled false 0xFFFFFFFF).refillLive = false ∧
      (refilled false 0xFFFFFFFF).refillActive = true ∧ (refilled false 0xFFFFFFFF).refillSlot = 96) ∧
    Inv (refilled false 0xFFFFFFFE) :=
  ⟨⟨inv_refilled 0xFFFFFFFF, rfl, rfl, rfl⟩, inv_refilled 0xFFFFFFFE⟩

/-- StepInsideRefill: a step with a command held, the last slot step, and REFILL_END of each mode. -/
theorem witness_stepInsideRefill :
    (let s := { refilled false 1 with cmdPending := true }
     s.refillActive = true ∧ s.refillSlot = 96 ∧ s.refillLive = false ∧ seqStep [] s = .next (refillEnd s)) ∧
    ({ refilled true 0 with refillSlot := 95 }.refillActive = true ∧ { refilled true 0 with refillSlot := 95 }.refillSlot < 96) ∧
    ((refilled true 0).refillSlot = 96 ∧ (refilled true 0).refillLive = true) :=
  ⟨⟨rfl, rfl, rfl, rfl⟩, ⟨rfl, by decide⟩, rfl, rfl⟩

/-- WholeSilenceRefill. -/
theorem witness_wholeSilenceRefill :
    let s := { configured with program := expandRefill ++ [], evtPending := true, xferActive := true, csCursor := 191 }
    s.program = expandRefill ++ [] ∧ s.refillActive = false ∧ s.cmdPending = false ∧ s.evtPending = true ∧
    s.xferActive = true ∧ s.sil ≠ 0 ∧ s.csCursor.toNat < 192 := ⟨rfl, rfl, rfl, rfl, rfl, by decide, by decide⟩

/-- WholeLiveRefill. -/
theorem witness_wholeLiveRefill :
    let s := { configured with program := expandRefill ++ [], evtPending := true, xferActive := true, sil := 0 }
    s.program = expandRefill ++ [] ∧ s.refillActive = false ∧ s.cmdPending = false ∧ s.evtPending = true ∧
    s.xferActive = true ∧ s.sil = 0 ∧ s.csCursor.toNat < 192 ∧ ActiveConfig s :=
  ⟨rfl, rfl, rfl, rfl, rfl, rfl, by decide, by constructor <;> decide⟩

theorem witness_notifications : (refilled true 0).refillLive = true ∧ ActiveConfig (refilled true 0) :=
  ⟨rfl, by constructor <;> decide⟩

theorem witness_startCaptures :
    configured.sil = 1 ∧ configured.configured = true ∧ 4294967294 + 1 < 4294967296 := by decide

/-- EmissionDrainsSlot, the draining clause: no refill, and a refill of the other half. -/
theorem witness_emission :
    (let s := draining 95
     s.xferActive = true ∧ s.drain < 192 ∧ s.refillActive = false ∧
      s.outbuf.read (16 * s.drain) 16 = some (List.replicate 16 0)) ∧
    (let s := { draining 191 with refillActive := true, refillHalf := 0 }
     s.xferActive = true ∧ s.drain < 192 ∧ s.drain / 96 ≠ s.refillHalf.toNat ∧
      s.outbuf.read (16 * s.drain) 16 = some (List.replicate 16 0)) := by
  decide +kernel

/-- EmissionDrainsSlot, the two faults: slot 96 under a refill of half 1, and a last byte never written. -/
theorem witness_emission_faults :
    (let s := { draining 96 with refillActive := true, refillHalf := 1 }
     s.xferActive = true ∧ s.drain < 192 ∧ s.refillActive = true ∧ s.drain / 96 = s.refillHalf.toNat) ∧
    (let s := { draining 191 with outbuf := cellsFrom (16 * 191) (List.replicate 15 0) }
     s.xferActive = true ∧ s.drain < 192 ∧ s.refillActive = false ∧ s.outbuf.get (16 * s.drain + 15) = none) := by
  decide +kernel

/-- LateUnderrunOverruns, at both boundaries. -/
theorem witness_lateUnderrun :
    (let s := { draining 95 with evtPending := true }
     s.xferActive = true ∧ s.refillActive = false ∧ s.outbuf.read (16 * s.drain) 16 = some (List.replicate 16 0) ∧
      s.evtPending = true ∧ s.drain = 95) ∧
    (let s := { draining 191 with evtPending := true }
     s.xferActive = true ∧ s.refillActive = false ∧ s.outbuf.read (16 * s.drain) 16 = some (List.replicate 16 0) ∧
      s.evtPending = true ∧ s.drain = 191) := by decide +kernel

/-- ResidueSelectsDrainedHalf, at both boundaries. -/
theorem witness_residue :
    nextIs (emission (draining 95)) (fun t => t.evtPending && (draining 95).drain < 192 && !(draining 95).evtPending) = true ∧
    nextIs (emission (draining 191)) (fun t => t.evtPending && (draining 191).drain < 192) = true := by decide +kernel

/-- EmissionNeverReadsUnwritten with no transfer: a slot wholly written, and one whose last byte is not. -/
theorem witness_emissionNotEnabled :
    (let s := { draining 191 with xferActive := false }
     s.xferActive = false ∧ s.refillActive = false ∧ ∀ i, i < 16 → s.outbuf.get (16 * s.drain + i) ≠ none) ∧
    (let s := { draining 191 with xferActive := false, outbuf := cellsFrom (16 * 191) (List.replicate 15 0) }
     s.xferActive = false ∧ s.refillActive = false ∧ s.outbuf.get (16 * s.drain + 15) = none) := by
  decide +kernel

/-- NoSessionLeak, each clause. -/
theorem witness_noSessionLeak :
    configured.csCursor.toNat < 192 ∧ configured.configured = true ∧ staged.validFormat = some .s16le ∧
    { configured with xferActive := true }.xferActive = true := by decide

/-- BadAccessFaults, each disjunct (X8). -/
theorem witness_badAccess : (16 ≠ 32) ∧ 0x002 % 4 ≠ 0 ∧ 0x2000 ≤ 0x2000 := by decide

/-- RegisterMapIsExact: each gap of the map, at its first and last word. -/
theorem witness_reservedOffset (off : Nat)
    (h : off ∈ [0x038, 0x03C, 0x058, 0x05C, 0x078, 0x07C, 0x098, 0xFFC, 0x1C00, 0x1FFC]) :
    off % 4 = 0 ∧ (0x034 < off ∧ off < 0x040 ∨ 0x054 < off ∧ off < 0x060 ∨ 0x074 < off ∧ off < 0x080 ∨
      0x094 < off ∧ off < 0x1000 ∨ 0x1BFC < off ∧ off < 0x2000) := by
  revert off
  decide

/-- HostAccessSideEffects: a read, a write, and ignored writes at each end of the ranges. -/
theorem witness_hostAccess :
    (0x004 % 4 = 0 ∧ 0x038 % 4 = 0 ∧ 0x038 ≤ 0x1FFC ∧ 0x1FFC % 4 = 0 ∧ 0x1FFC < 0x2000) ∧
    hostRead 32 0x000 State.reset = .next { State.reset with reads := [(0, 0)] } ∧
    hostWrite 32 0x000 4 State.reset = .next { State.reset with cmdPending := true, cmdLatch := 4 } :=
  ⟨by decide, rfl, rfl⟩

theorem witness_commandPort :
    State.reset.cmdPending = false ∧ { State.reset with cmdPending := true }.cmdPending = true := by decide

/-- 10_state.md R32: the last register, its bytes at both ends of the word. -/
theorem test_stagedMessage :
    nextIs (hostWrite 32 0x034 0x04030201 State.reset)
      (fun s => s.csStage[20] == 1 && s.csStage[23] == 4 && s.csStage[19] == 0) = true := by decide

/-- WindowReadsOutbuf: the last word, written and unwritten. -/
theorem witness_window :
    767 < 768 ∧
    { State.reset with outbuf := cellsFrom (4 * 767) [1, 2, 3, 4] }.outbuf.read (4 * 767) 4 = some [1, 2, 3, 4] ∧
    { State.reset with outbuf := cellsFrom (4 * 767) [1, 2, 3] }.outbuf.get (4 * 767 + 3) = none := by decide +kernel

/-- HostPcmWritesLand: the last address, and one past it. -/
theorem witness_hostPcm :
    (0xFFFFFFFF#32).toNat + [0x55#8].length ≤ 4294967296 ∧ 4294967296 < (0xFFFFFFFF#32).toNat + [0x55#8, 0xAA].length ∧
    { State.reset with program := [.pcm 0xFFFFFFFF [0x55]] }.program = .pcm 0xFFFFFFFF [0x55] :: [] := by decide

theorem witness_hardwareReset :
    { configured with program := [.rst, .emit] }.program = .rst :: [.emit] ∧ [Stmt.emit] = .emit :: [] := ⟨rfl, rfl⟩

/-- StepKeepsInvariant and LogsOnlyGrow: a step from a state of the invariant. -/
theorem witness_step :
    Inv { configured with program := [.ack false] } ∧
    step { configured with program := [.ack false] } = .next { configured with ackNext := false } ∧
    { configured with program := [.ack false] }.program.head? ≠ some .rst :=
  ⟨inv_of_empty _ rfl rfl rfl rfl (by decide) (by decide) (by decide) (fun _ => by constructor <;> decide) (fun _ => rfl)
    (by decide), rfl, by decide⟩

/-- A command held while the whole of a refill is still to run. -/
def held (p : List Stmt) : State := { refilled false 1 with refillSlot := 0, cmdPending := true, program := p }

theorem inv_held (p : List Stmt) : Inv (held p) :=
  inv_of_empty _ rfl rfl rfl rfl (show (0#8).toNat < 192 by decide) (Nat.zero_le 96) (show 0 < 192 by decide)
    (fun _ => ⟨witness_activeConfig.rate, witness_activeConfig.ringNonempty, witness_activeConfig.ringFits,
      witness_activeConfig.periodNonzero, witness_activeConfig.posInRing, witness_activeConfig.accInPeriod⟩)
    (fun _ => rfl) (fun _ => ⟨rfl, rfl⟩)

/-- PendingCommandIsExecuted, each clause. -/
theorem witness_pendingCommand :
    (Inv (held (List.replicate 98 (.seq []) ++ [])) ∧ (held (List.replicate 98 (.seq []) ++ [])).cmdPending = true) ∧
    (Inv (held [.wait []]) ∧ (held [.wait []]).cmdPending = true ∧ (held [.wait []]).program = .wait [] :: []) :=
  ⟨⟨inv_held _, rfl⟩, inv_held _, rfl, rfl⟩

end Sys2Proof.Machine
end

section
/-!
PROOFS. The register aperture and the state (10_state.md): what an access of one register answers, the fields of STATUS,
what each agent's step does to LINE and NOTIFY_LOG, and the state after reset.
-/

namespace Sys2Proof.Machine

/-! ## Accesses of the aperture -/

/-- A register with an unwritten byte under it faults when read (10_state.md R41). -/
theorem hostRead_reg_unwritten (r : Reg) (s : State) (h : readReg r s = none) :
    hostRead 32 r.offset s = .fault .unwrittenRead := by
  simp only [hostRead, validAccess_offset, readOffset, regAt_offset, h, if_true]

/-- What a completed host read leaves: the observation of one word. -/
theorem hostRead_next (width off : Nat) (s t : State) (h : hostRead width off s = .next t) :
    ∃ w, readOffset off s = some w ∧ t = s.observe off w := by
  unfold hostRead at h
  split at h
  · cases hr : readOffset off s with
    | none => rw [hr] at h; exact absurd h (by simp)
    | some w =>
      rw [hr] at h
      injection h with h
      exact ⟨w, rfl, h.symm⟩
  · exact absurd h (by simp)

/-- What a completed host write leaves. -/
theorem hostWrite_next (width off : Nat) (w : Word) (s t : State) (h : hostWrite width off w s = .next t) :
    t = writeOffset off w s := by
  unfold hostWrite at h
  split at h
  · injection h with h
    exact h.symm
  · exact absurd h (by simp)

/-- THE FRAME of a register write: the command latch and the staging registers (20_memory.md R81). -/
theorem writeReg_frame (r : Reg) (w : Word) (s : State) :
    writeReg r w s =
      { s with
        cmdPending := (writeReg r w s).cmdPending
        cmdLatch := (writeReg r w s).cmdLatch
        cfgFormat := (writeReg r w s).cfgFormat
        cfgRate := (writeReg r w s).cfgRate
        cfgRingBase := (writeReg r w s).cfgRingBase
        cfgRingFrames := (writeReg r w s).cfgRingFrames
        cfgPeriodFrames := (writeReg r w s).cfgPeriodFrames
        cfgVmask := (writeReg r w s).cfgVmask
        csStage := (writeReg r w s).csStage } := by
  cases r with
  | cmd =>
    simp only [writeReg, latchCommand]
    split <;> rfl
  | _ => rfl

/-- THE FRAME of a write at any offset. -/
theorem writeOffset_frame (off : Nat) (w : Word) (s : State) :
    writeOffset off w s =
      { s with
        cmdPending := (writeOffset off w s).cmdPending
        cmdLatch := (writeOffset off w s).cmdLatch
        cfgFormat := (writeOffset off w s).cfgFormat
        cfgRate := (writeOffset off w s).cfgRate
        cfgRingBase := (writeOffset off w s).cfgRingBase
        cfgRingFrames := (writeOffset off w s).cfgRingFrames
        cfgPeriodFrames := (writeOffset off w s).cfgPeriodFrames
        cfgVmask := (writeOffset off w s).cfgVmask
        csStage := (writeOffset off w s).csStage } := by
  unfold writeOffset
  cases regAt off with
  | some r => exact writeReg_frame r w s
  | none => rfl

/-! ## Reserved words (10_state.md R42) -/

/-- The gaps of the register map (10_state.md R23). -/
def ReservedRange (off : Nat) : Prop :=
  0x034 < off ∧ off < 0x040 ∨ 0x054 < off ∧ off < 0x060 ∨ 0x074 < off ∧ off < 0x080 ∨ 0x094 < off ∧ off < 0x1000 ∨
    0x1BFC < off ∧ off < 0x2000

/-- No register stands in a gap. -/
theorem offset_not_reserved (r : Reg) : ¬ ReservedRange r.offset := by
  cases r <;> simp only [ReservedRange, Reg.offset] <;> omega

theorem regAt_reserved (off : Nat) (h : ReservedRange off) : regAt off = none := by
  cases hr : regAt off with
  | none => rfl
  | some r => exact absurd (offset_of_regAt off r hr ▸ h) (offset_not_reserved r)

theorem validAccess_reserved (off : Nat) (ha : off % 4 = 0) (h : ReservedRange off) : validAccess 32 off = true := by
  have hlt : off < 0x2000 := by unfold ReservedRange at h; omega
  simp [validAccess, ha, hlt]

theorem hostRead_reserved (off : Nat) (s : State) (ha : off % 4 = 0) (h : ReservedRange off) :
    hostRead 32 off s = .next (s.observe off 0) := by
  simp only [hostRead, validAccess_reserved off ha h, readOffset, regAt_reserved off h, if_true]

theorem hostWrite_reserved (off : Nat) (w : Word) (s : State) (ha : off % 4 = 0) (h : ReservedRange off) :
    hostWrite 32 off w s = .next s := by
  simp only [hostWrite, validAccess_reserved off ha h, writeOffset, regAt_reserved off h, if_true]

/-- ACT_FORMAT reads as its code with zeros above (10_state.md R39). -/
theorem readReg_actFormat (s : State) :
    readReg .actFormat s = some (match s.actFormat with | .s16le => 0 | .s24le => 1 | .s24le3 => 2 | .s32le => 3) := by
  simp only [readReg]
  cases s.actFormat <;> rfl

/-- Settles O46: each register's clause is regAt_offset, hostRead_reg or the reserved words' lemmas at that register. -/
theorem registerMapIsExact : Obligations.RegisterMapIsExact := by
  refine ⟨?map, fun k => ⟨regAt_offset (.csStage k), regAt_offset (.actCs k)⟩, fun k => regAt_offset (.outbuf k),
    regAt_offset, offset_of_regAt, fun s => ?reads, fun s off w ha h =>
      ⟨hostRead_reserved off s ha h, hostWrite_reserved off w s ha h⟩⟩
  case map =>
    exact ⟨regAt_offset .cmd, regAt_offset .status, regAt_offset .cfgFormat, regAt_offset .cfgRate,
      regAt_offset .cfgRingBase, regAt_offset .cfgRingFrames, regAt_offset .cfgPeriodFrames, regAt_offset .cfgVmask,
      regAt_offset .pos, regAt_offset .periodAcc, regAt_offset .silCount, regAt_offset .silCapture,
      regAt_offset .csCursor, regAt_offset .notifyCount, regAt_offset .actFormat, regAt_offset .actRate,
      regAt_offset .actRingBase, regAt_offset .actRingFrames, regAt_offset .actPeriodFrames, regAt_offset .actVmask⟩
  case reads =>
    exact ⟨hostRead_reg .pos s _ rfl, hostRead_reg .periodAcc s _ rfl, hostRead_reg .silCount s _ rfl,
      hostRead_reg .silCapture s _ rfl, hostRead_reg .csCursor s _ (congrArg some (setWidth_eq_append 24 s.csCursor)),
      hostRead_reg .notifyCount s _ rfl, hostRead_reg .actFormat s _ (readReg_actFormat s),
      hostRead_reg .actRate s _ rfl, hostRead_reg .actRingBase s _ rfl, hostRead_reg .actRingFrames s _ rfl,
      hostRead_reg .actPeriodFrames s _ rfl,
      hostRead_reg .actVmask s _ (congrArg some (setWidth_eq_append 8 s.actVmask)),
      fun k => hostRead_reg (.actCs k) s _ rfl⟩

/-- Settles O51: the message after the write is setMessageWord's. -/
theorem stagedMessagePacking : Obligations.StagedMessagePacking := by
  intro s k w
  refine ⟨setMessageWord s.csStage k w, hostWrite_reg (.csStage k) s w, ?_, getElem_setMessageWord s.csStage k w⟩
  exact hostRead_reg (.csStage k) _ w (congrArg some (messageWord_set s.csStage k w))

/-! ## The OUTBUF window -/

/-- A read fails exactly when a byte it covers holds no value. -/
theorem read_eq_none (m : Memory) (a n : Nat) : m.read a n = none ↔ ∃ i, i < n ∧ m.get (a + i) = none := by
  rw [← Option.not_isSome_iff_eq_none, read_isSome]
  simp only [Classical.not_forall, exists_prop, Option.not_isSome_iff_eq_none]

/-- Settles O52: a window word is the register over four bytes of OUTBUF, its write ignored (10_state.md R41). -/
theorem windowReadsOutbuf : Obligations.WindowReadsOutbuf := by
  intro s k w hk
  refine ⟨fun b0 b1 b2 b3 hr => ?written, fun hu => ?unwritten, hostWrite_reg (.outbuf ⟨k, hk⟩) s w⟩
  case written =>
    have hv : readReg (.outbuf ⟨k, hk⟩) s = some (b3 ++ b2 ++ b1 ++ b0) := by
      simp only [readReg, hr, Option.bind_some, wordOfBytes]
    exact hostRead_reg _ s _ hv
  case unwritten =>
    have hv : readReg (.outbuf ⟨k, hk⟩) s = none := by
      simp only [readReg, (read_eq_none _ _ _).mpr hu, Option.bind_none]
    exact hostRead_reg_unwritten _ s hv

/-! ## LINE and NOTIFY_LOG only grow (10_state.md R47) -/

/-- LINE and NOTIFY_LOG of `t` are those of `s` with more at their ends. -/
def LogsExtend (s t : State) : Prop :=
  (∃ more, t.line = s.line ++ more) ∧ (∃ more, t.notifyLog = s.notifyLog ++ more)

theorem LogsExtend.of_eq {s t : State} (hl : t.line = s.line) (hn : t.notifyLog = s.notifyLog) : LogsExtend s t :=
  ⟨⟨[], by rw [hl, List.append_nil]⟩, ⟨[], by rw [hn, List.append_nil]⟩⟩

theorem LogsExtend.trans {s t u : State} (h : LogsExtend s t) (h' : LogsExtend t u) : LogsExtend s u := by
  obtain ⟨⟨l, hl⟩, ⟨n, hn⟩⟩ := h
  obtain ⟨⟨l', hl'⟩, ⟨n', hn'⟩⟩ := h'
  exact ⟨⟨l ++ l', by rw [hl', hl, List.append_assoc]⟩, ⟨n ++ n', by rw [hn', hn, List.append_assoc]⟩⟩

theorem submitReported_line (s : State) : s.submitReported.line = s.line := by rw [submitReported_frame]

theorem submitReported_notifyLog (s : State) : s.submitReported.notifyLog = s.notifyLog := by
  rw [submitReported_frame]

theorem ensureTransfer_logs (s : State) : LogsExtend s s.ensureTransfer := by
  cases hx : s.xferActive with
  | true => rw [ensureTransfer_active s hx]; exact .of_eq rfl rfl
  | false =>
    rw [ensureTransfer_idle s hx]
    exact .of_eq (submitReported_line s) (submitReported_notifyLog s)

/-- No instruction's meaning shortens a log. -/
theorem exec_logs (i : Instr) (s t : State) (h : exec i s = .next t) : LogsExtend s t := by
  cases i with
  | prepare =>
    have h : execPrepare s = .next t := h
    rcases execPrepare_cases s with ⟨-, e⟩ | ⟨f, -, e⟩ <;> rw [e] at h <;> injection h with h <;> subst h
    · exact .of_eq rfl rfl
    · exact LogsExtend.trans (.of_eq rfl rfl) (ensureTransfer_logs (s.activate f))
  | setCs => cases h; exact .of_eq rfl rfl
  | start =>
    have h : execStart s = .next t := h
    unfold execStart at h
    split at h <;> injection h with h <;> subst h
    · exact LogsExtend.trans (.of_eq rfl rfl) (ensureTransfer_logs s.begin)
    · exact .of_eq rfl rfl
  | stop =>
    have h : execStop s = .next t := h
    rw [execStop_eq] at h
    cases h
    exact .of_eq rfl rfl
  | badcmd rsv op => cases h; exact .of_eq rfl rfl
  | halfConsumed residue =>
    have h : execHalfConsumed residue s = .next t := h
    unfold execHalfConsumed at h
    split at h
    · exact absurd h (by simp)
    · cases h; exact .of_eq rfl rfl
  | submit => cases h; exact .of_eq (submitReported_line s) (submitReported_notifyLog s)
  | terminate => cases h; exact .of_eq rfl rfl

/-- A delivered event that completes ran the instruction of its word. -/
theorem deliverEvent_next (w : Word) (s t : State) (h : deliverEvent w s = .next t) :
    ∃ i, decodeWord .evt w = .ok i ∧ exec i s = .next t := by
  unfold deliverEvent at h
  split at h
  · exact ⟨_, ‹_›, h⟩
  · exact absurd h (by simp)

/-- A driven request that completes ran the instruction of its word. -/
theorem driveRequest_next (w : Word) (s t : State) (h : driveRequest w s = .next t) :
    ∃ i, decodeWord .req w = .ok i ∧ exec i s = .next t := by
  unfold driveRequest at h
  split at h
  · exact ⟨_, ‹_›, h⟩
  · exact absurd h (by simp)

/-- EXEC_CMD that completes ran the latched command and cleared CMD_PENDING (43_buffer_controller.md R167). -/
theorem execLatched_next (s t : State) (h : execLatched s = .next t) :
    ∃ u, exec (decodeCmdWord s.cmdLatch) s = .next u ∧ t = u.clearCommand := by
  unfold execLatched at h
  cases he : exec (decodeCmdWord s.cmdLatch) s with
  | next u =>
    rw [he] at h
    injection h with h
    exact ⟨u, rfl, h.symm⟩
  | fault e => rw [he] at h; exact absurd h (by simp [Result.andThen])
  | refused e => rw [he] at h; exact absurd h (by simp [Result.andThen])

/-- REFILL_END appends the notifications of a live refill and nothing else (43_buffer_controller.md R184, R185). -/
theorem refillEnd_logs (s : State) : LogsExtend s (refillEnd s) := by
  by_cases hl : s.refillLive = true
  · refine ⟨⟨[], by rw [refillEnd_frame, List.append_nil]⟩, ?_⟩
    rw [refillEnd, if_pos hl]
    exact accountPeriods_log s.actPeriodFrames.toNat (s.periodAcc.toNat + Config.halfFrames + 1)
      (s.periodAcc.toNat + Config.halfFrames) (advancePos s)
  · rw [refillEnd, if_neg hl]
    exact .of_eq rfl rfl

theorem refillSlotStep_logs (d : During) (s : State) : LogsExtend s (refillSlotStep d s) := by
  rw [refillSlotStep_frame]
  exact .of_eq rfl rfl

theorem seqStep_logs (d : During) (s t : State) (h : seqStep d s = .next t) : LogsExtend s t := by
  have land : LogsExtend s (s.landPcm d) := .of_eq rfl rfl
  rcases seqStep_cases d s with
    ⟨-, -, e⟩ | ⟨-, -, e⟩ | ⟨-, -, e⟩ | ⟨-, -, -, -, e⟩ | ⟨-, e⟩ <;> rw [e] at h
  · cases h; exact refillSlotStep_logs d s
  · cases h; exact land.trans (refillEnd_logs _)
  · obtain ⟨u, hu, rfl⟩ := execLatched_next _ _ h
    exact (land.trans (exec_logs _ _ _ hu)).trans (.of_eq rfl rfl)
  · cases h; exact .of_eq rfl rfl
  · exact absurd h (by simp)

/-- An emission appends its frame to LINE (43_buffer_controller.md R188). -/
theorem emission_logs (s t : State) (h : emission s = .next t) : LogsExtend s t := by
  obtain ⟨-, -, frame, -, hb⟩ := emission_next s t h
  have appended : LogsExtend s (s.emitted frame) := ⟨⟨[frame], rfl⟩, ⟨[], (List.append_nil _).symm⟩⟩
  rcases boundaryEvent_next _ _ hb with ⟨-, -, rfl⟩ | ⟨-, -, rfl⟩ | ⟨-, -, rfl⟩
  · exact appended.trans (.of_eq rfl rfl)
  · exact appended.trans (.of_eq rfl rfl)
  · exact appended

theorem hostRead_logs (width off : Nat) (s t : State) (h : hostRead width off s = .next t) : LogsExtend s t := by
  obtain ⟨w, -, rfl⟩ := hostRead_next width off s t h
  exact .of_eq rfl rfl

theorem hostWrite_logs (width off : Nat) (w : Word) (s t : State) (h : hostWrite width off w s = .next t) :
    LogsExtend s t := by
  rw [hostWrite_next width off w s t h, writeOffset_frame]
  exact .of_eq rfl rfl

theorem pcmWrites_logs (addr : BitVec 32) (bytes : List Byte) (s t : State) (h : pcmWrites addr bytes s = .next t) :
    LogsExtend s t := by
  unfold pcmWrites at h
  split at h
  · cases h; exact .of_eq rfl rfl
  · exact absurd h (by simp)

theorem commandNow_logs (w : Word) (s t : State) (h : commandNow w s = .next t) : LogsExtend s t := by
  unfold commandNow at h
  split at h
  · exact absurd h (by simp)
  · exact hostWrite_logs _ _ _ _ _ h

theorem waitTurn_logs (turns : List (List Turn)) (s t : State) (h : waitTurn turns s = .next t) : LogsExtend s t := by
  cases hp : s.cmdPending with
  | false => rw [waitTurn_done turns s hp] at h; cases h; exact .of_eq rfl rfl
  | true => rw [waitTurn_again turns s hp] at h; cases h; exact .of_eq rfl rfl

/-- No statement but the hardware reset shortens a log. -/
theorem takeStatement_logs (st : Stmt) (s t : State) (hst : st ≠ .rst) (h : takeStatement st s = .next t) :
    LogsExtend s t := by
  cases st with
  | wr width off imm => exact hostWrite_logs width off imm s t h
  | rd width off => exact hostRead_logs width off s t h
  | pcm addr bytes => exact pcmWrites_logs addr bytes s t h
  | seq d => exact seqStep_logs d s t h
  | emit => exact emission_logs s t h
  | ack v => cases h; exact .of_eq rfl rfl
  | cmdNow w => exact commandNow_logs w s t h
  | wait turns => exact waitTurn_logs turns s t h
  | evt w => obtain ⟨i, -, hi⟩ := deliverEvent_next w s t h; exact exec_logs i s t hi
  | req w => obtain ⟨i, -, hi⟩ := driveRequest_next w s t h; exact exec_logs i s t hi
  | rst => exact absurd rfl hst

theorem step_logs (s t : State) (hst : s.program.head? ≠ some .rst) (h : step s = .next t) : LogsExtend s t := by
  cases hp : s.program with
  | nil => rw [step_done s hp] at h; cases h; exact .of_eq rfl rfl
  | cons st rest =>
    rw [step_stmt s st rest hp] at h
    have hne : st ≠ .rst := fun e => hst (by rw [hp, e]; rfl)
    exact takeStatement_logs st { s with program := rest } t hne h

/-- Settles O58, from the log lemma of each agent's step. -/
theorem logsOnlyGrow : Obligations.LogsOnlyGrow := by
  intro s t hst h
  exact step_logs s t hst h

/-! ## Single registers -/

/-- Settles O48: a write of CMD is latchCommand (10_state.md R25). -/
theorem commandPortLatchesOnce : Obligations.CommandPortLatchesOnce := by
  intro s w
  have hw : hostWrite 32 0x000 w s = .next (latchCommand w s) := hostWrite_reg .cmd s w
  refine ⟨fun hp => ?free, fun hp => ?taken, hostRead_reg .cmd s 0 rfl⟩
  case free => rw [hw, latchCommand, if_neg (by simp [hp])]
  case taken => rw [hw, latchCommand, if_pos hp]

/-- The one-bit fields of STATUS above bit 0 (10_state.md R24); statusWord_bit0 is CMD_PENDING. -/
theorem statusWord_bits (s : State) :
    s.statusWord.getLsbD 1 = s.refillActive ∧ s.statusWord.getLsbD 2 = s.evtPending ∧
      s.statusWord.getLsbD 3 = s.xferActive ∧ s.statusWord.getLsbD 4 = s.configured ∧
      s.statusWord.getLsbD 5 = s.streaming ∧ s.statusWord.getLsbD 13 = s.refillLive := by
  unfold State.statusWord
  refine ⟨?_, ?_, ?_, ?_, ?_, ?_⟩
  all_goals
    repeat rw [BitVec.getLsbD_append, if_neg (by decide)]
    rw [BitVec.getLsbD_append, if_pos (by decide), BitVec.getLsbD_ofBool]
    rfl

/-- The wider fields of STATUS and its zeros (10_state.md R24). -/
theorem statusWord_fields (s : State) :
    s.statusWord.extractLsb' 6 2 = 0#2 ∧ s.statusWord.extractLsb' 8 4 = s.lastResult.code ∧
      s.statusWord.extractLsb' 12 1 = s.refillHalf ∧ s.statusWord.extractLsb' 14 18 = 0#18 := by
  unfold State.statusWord
  refine ⟨?_, ?_, ?_, ?_⟩
  all_goals repeat rw [BitVec.extractLsb'_append_eq_of_le (by decide)]
  · exact BitVec.extractLsb'_append_eq_right
  · exact BitVec.extractLsb'_append_eq_right
  · exact BitVec.extractLsb'_append_eq_right
  · rfl

/-- Settles O49: STATUS reads statusWord, whose fields statusWord_bits and statusWord_fields cut out. -/
theorem statusFields : Obligations.StatusFields := by
  intro s
  obtain ⟨h1, h2, h3, h4, h5, h13⟩ := statusWord_bits s
  obtain ⟨hz, hcode, hhalf, hzz⟩ := statusWord_fields s
  have hresult : (s.statusWord.extractLsb' 8 4).toNat =
      (match s.lastResult with | .ok => 0 | .errConfig => 1 | .errResource => 2 | .errBadcmd => 3) := by
    rw [hcode]
    cases s.lastResult <;> rfl
  exact ⟨hostRead_reg .status s _ rfl, hostWrite_reg .status s, statusWord_bit0 s, h1, h2, h3, h4, h5, hz, hresult,
    hhalf, h13, hzz⟩

/-- Settles O50: each clause is hostWrite_reg or hostRead_reg at its register (10_state.md R26 to R31). -/
theorem stagingRegistersKeepWrites : Obligations.StagingRegistersKeepWrites := by
  intro s w
  exact ⟨hostWrite_reg .cfgFormat s w, hostWrite_reg .cfgRate s w, hostWrite_reg .cfgRingBase s w,
    hostWrite_reg .cfgRingFrames s w, hostWrite_reg .cfgPeriodFrames s w, hostWrite_reg .cfgVmask s w,
    hostRead_reg .cfgFormat s _ (congrArg some (setWidth_eq_append 28 s.cfgFormat)), hostRead_reg .cfgRate s _ rfl,
    hostRead_reg .cfgRingBase s _ rfl, hostRead_reg .cfgRingFrames s _ rfl, hostRead_reg .cfgPeriodFrames s _ rfl,
    hostRead_reg .cfgVmask s _ (congrArg some (setWidth_eq_append 8 s.cfgVmask))⟩

/-! ## The state after reset -/

theorem zeroMessage_getElem (i : Nat) (h : i < 24) : zeroMessage[i] = 0 := by
  decide +revert

/-- Settles O54: the reset state is the table of 10_state.md R52 field by field. -/
theorem resetTable : Obligations.ResetTable :=
  ⟨rfl, rfl, rfl, rfl, rfl, rfl, zeroMessage_getElem, zeroMessage_getElem, rfl, rfl, rfl, rfl, rfl, rfl, rfl, rfl, rfl,
    rfl, rfl, rfl, rfl, rfl, rfl, rfl, rfl, rfl, rfl, rfl, rfl, rfl, rfl, rfl, rfl, get_nil, rfl, rfl, rfl⟩

/-- Settles O56: at reset the memories and the logs are empty, nothing is configured and nothing runs. -/
theorem resetMeetsInvariant : Obligations.ResetMeetsInvariant where
  cursor := by decide
  slot := by decide
  drain := by decide
  outbufForm := List.Pairwise.nil
  outbufRange _ h := absurd h List.not_mem_nil
  pcmForm := List.Pairwise.nil
  pcmRange _ h := absurd h List.not_mem_nil
  primed h := absurd h Bool.false_ne_true
  config h := absurd h Bool.false_ne_true
  streaming h := absurd h (by decide)
  refillSil h := absurd h Bool.false_ne_true
  refillMode h := absurd h Bool.false_ne_true
  frames _ h := absurd h List.not_mem_nil

end Sys2Proof.Machine
end

section
/-!
PROOFS. Memories and their readers (20_memory.md): the number a MemRead gives, host writes inside it, where ring frames
lie, host writes of PCM memory, emissions over OUTBUF, and what accesses of the register aperture change.
-/

namespace Sys2Proof.Machine

/-! ## MemRead (R74, R82) -/

/-- A byte at the higher end of a little-endian number stands shifted above the others (R74). -/
theorem littleEndian_concat (bs : List Byte) (b : Byte) :
    littleEndian (bs ++ [b]) = littleEndian bs + b.toNat <<< (8 * bs.length) := by
  induction bs with
  | nil => simp [littleEndian]
  | cons c bs ih =>
    have hpow : 2 ^ (8 * (bs.length + 1)) = 256 * 2 ^ (8 * bs.length) := by rw [Nat.mul_succ, Nat.pow_add]; omega
    simp only [List.cons_append, littleEndian, ih, List.length_cons, Nat.shiftLeft_eq, hpow]
    rw [Nat.mul_add, Nat.mul_left_comm, Nat.add_assoc]

/-- The little-endian number of `n` bytes is the sum of the bytes, each shifted to its place (R74). -/
theorem littleEndian_map_range (byte : Nat → Byte) (n : Nat) :
    littleEndian ((List.range n).map byte) = ((List.range n).map (fun i => (byte i).toNat <<< (8 * i))).sum := by
  induction n with
  | zero => rfl
  | succ n ih =>
    simp only [List.range_succ, List.map_append, List.map_cons, List.map_nil, littleEndian_concat, ih, List.length_map,
      List.length_range, List.sum_append, List.sum_singleton]

/-- Settles O26: with no host write inside, the bytes read are those of readPcm_quiet. -/
theorem memReadIsLittleEndian : Obligations.MemReadIsLittleEndian := by
  intro m a n
  rw [readPcm_quiet]
  exact littleEndian_map_range (fun i => pcmByte m (a + i)) n

/-- A live frame whole, with host writes inside its reads (42_frame_assembler.md R158): the frame's bytes written at its
slot, the cursor advanced, the host's writes landed. -/
theorem assembleFrame_pcm (f k : Nat) (d : During) (s : State) :
    assembleFrame (.pcm f) k d s =
      { s with
        pcm := landAll s.pcm d
        csCursor := nextCursor s.csCursor
        outbuf := s.outbuf.write (16 * k) (frameBytesOf (readStereo s.actFormat (frameAddr s f) d s.pcm).left
          (readStereo s.actFormat (frameAddr s f) d s.pcm).right s.actVmask s.csNow) } := by
  have landed : (readStereo s.actFormat (frameAddr s f) d s.pcm).mem = landAll s.pcm d := by rw [readStereo_spec]
  rw [← landed]
  rfl

/-- Settles O60: readPcm_spec for one MemRead, readStereo_spec for the two of a frame; silence reads nothing. -/
theorem hostWritesTearMemReads : Obligations.HostWritesTearMemReads := by
  refine ⟨fun m a n d => ?oneRead, fun s f k d => ⟨?live, rfl⟩⟩
  case oneRead =>
    rw [readPcm_spec]
    exact ⟨rfl, rfl, rfl⟩
  case live =>
    rw [assembleFrame_pcm, readStereo_spec]
    simp only [Nat.zero_add, Nat.add_zero]
    rfl

/-! ## Ring frames and host writes of PCM memory (R72, R73) -/

theorem frameBytes_eq (fmt : Format) : fmt.frameBytes = 2 * fmt.sampleBytes := by cases fmt <;> rfl

/-- Every frame of an admitted ring ends inside PCM memory (R73, 43_buffer_controller.md R170). -/
theorem frameAddr_add_frameBytes_le (s : State) (f : Nat) (hc : ActiveConfig s) (hf : f < s.actRingFrames.toNat) :
    frameAddr s f + s.actFormat.frameBytes ≤ 4294967296 :=
  calc frameAddr s f + s.actFormat.frameBytes
      = s.actRingBase.toNat + (f + 1) * s.actFormat.frameBytes := by rw [frameAddr, Nat.succ_mul, Nat.add_assoc]
    _ ≤ s.actRingBase.toNat + s.actRingFrames.toNat * s.actFormat.frameBytes :=
      Nat.add_le_add_left (Nat.mul_le_mul_right _ hf) _
    _ ≤ 4294967296 := hc.ringFits

/-- Settles O27: the invariant's admitted configuration bounds the ring. -/
theorem ringFramesFitMemory : Obligations.RingFramesFitMemory := by
  refine ⟨frameBytes_eq, rfl, rfl, rfl, rfl, fun s f hi hconf hf => ⟨rfl, ?_⟩⟩
  exact frameAddr_add_frameBytes_le s f (hi.config hconf) hf

/-- Byte `i` of the bytes written is found at its address. -/
theorem get_write_at (m : Memory) (a : Nat) (bs : List Byte) (i : Nat) (h : i < bs.length) :
    (m.write a bs).get (a + i) = bs[i]? := by
  rw [get_write, if_pos (by omega), Nat.add_sub_cancel_left]

/-- A `pcm` statement inside the address space (R72). -/
theorem pcmWrites_fits (addr : BitVec 32) (bytes : List Byte) (s : State) (h : addr.toNat + bytes.length ≤ 4294967296) :
    pcmWrites addr bytes s = .next { s with pcm := s.pcm.write addr.toNat bytes } :=
  if_pos h

/-- A `pcm` statement past the last address (log 14). -/
theorem pcmWrites_beyond (addr : BitVec 32) (bytes : List Byte) (s : State)
    (h : 4294967296 < addr.toNat + bytes.length) : pcmWrites addr bytes s = .refused .pcmBeyondMemory :=
  if_neg (Nat.not_le_of_lt h)

/-- Settles O53: the step is pcmWrites, and the laws of Memory.write say what it leaves. -/
theorem hostPcmWritesLand : Obligations.HostPcmWritesLand := by
  intro s addr bytes rest hp
  have hstep : step s = pcmWrites addr bytes { s with program := rest } := step_stmt s _ rest hp
  refine ⟨fun hfit => ⟨s.pcm.write addr.toNat bytes, ?lands, get_write_at s.pcm addr.toNat bytes,
    get_write_other s.pcm addr.toNat bytes⟩, fun hpast => ?refused⟩
  case lands => rw [hstep, pcmWrites_fits addr bytes _ hfit]
  case refused => rw [hstep, pcmWrites_beyond addr bytes _ hpast]

/-! ## Emissions over OUTBUF (R78) -/

/-- An emission from the half an active refill is writing (43_buffer_controller.md R189). -/
theorem emission_race (s : State) (ha : s.refillActive = true) (hh : s.drain / 96 = s.refillHalf.toNat) :
    emission s = .fault .underrunRace := by
  simp [emission, ha, hh]

/-- The one fault of a boundary event (43_buffer_controller.md R187). -/
theorem boundaryEvent_fault (s : State) (e : Fault) (h : boundaryEvent s = .fault e) : e = .eventOverrun := by
  have deliver (r : BitVec 16) (hd : deliverEvent (encodeWord (.halfConsumed r)) s = .fault e) : e = .eventOverrun := by
    rw [deliverEvent_halfConsumed, execHalfConsumed] at hd
    split at hd
    · injection hd with hd
      exact hd.symm
    · exact absurd hd (by simp)
  unfold boundaryEvent at h
  split at h
  · exact deliver _ h
  · split at h
    · exact deliver _ h
    · exact absurd h (by simp)

/-- In a buffer written whole every slot reads. -/
theorem slot_read_of_primed (m : Memory) (k : Nat) (hm : OutbufPrimed m) (hk : k < 192) :
    ∃ frame, m.read (16 * k) 16 = some frame :=
  Option.isSome_iff_exists.mp
    ((read_isSome m (16 * k) 16).mpr fun i _ => hm _ (by simp only [Config.bufBytes]; omega))

/-- An emission of a running transfer over a buffer written whole is no UnwrittenRead. -/
theorem emission_ne_unwrittenRead (s : State) (hx : s.xferActive = true) (hm : OutbufPrimed s.outbuf)
    (hd : s.drain < 192) : emission s ≠ .fault .unwrittenRead := by
  by_cases hr : s.refillActive = false ∨ s.drain / 96 ≠ s.refillHalf.toNat
  · obtain ⟨frame, hframe⟩ := slot_read_of_primed s.outbuf s.drain hm hd
    rw [emission_eq s frame hx hr hframe]
    intro h
    exact absurd (boundaryEvent_fault _ _ h) (by simp)
  · obtain ⟨ha, hh⟩ := not_or.mp hr
    rw [emission_race s (by simpa using ha) (Decidable.not_not.mp hh)]
    simp

/-- Settles O43: a running transfer's buffer is primed by the invariant; with none, emission_unwritten and
emission_notEnabled (log 11). -/
theorem emissionNeverReadsUnwritten : Obligations.EmissionNeverReadsUnwritten := by
  refine fun s => ⟨fun hi hx => ?running, fun hx hr => ⟨fun hu => ?unwritten, fun hw => ?written⟩⟩
  case running => exact emission_ne_unwrittenRead s hx (hi.primed hx) hi.drain
  case unwritten => exact emission_unwritten s hr ((read_eq_none s.outbuf (16 * s.drain) 16).mpr hu)
  case written =>
    obtain ⟨frame, hframe⟩ := Option.isSome_iff_exists.mp
      ((read_isSome s.outbuf (16 * s.drain) 16).mpr fun i hi => Option.isSome_iff_ne_none.mpr (hw i hi))
    exact emission_notEnabled s frame hx hr hframe

/-! ## What accesses of the aperture change (R80, R81) -/

/-- The accesses the aperture admits (R80). -/
theorem validAccess_iff (width off : Nat) :
    validAccess width off = true ↔ width = 32 ∧ off % 4 = 0 ∧ off < 0x2000 := by
  rw [validAccess, Bool.and_eq_true, Bool.and_eq_true, beq_iff_eq, beq_iff_eq, decide_eq_true_iff, and_assoc,
    Config.apertureBytes]

/-- Settles O45: validAccess refuses each of the three (R80). -/
theorem badAccessFaults : Obligations.BadAccessFaults := by
  intro s width off w hbad
  have hv : ¬ validAccess width off = true := by rw [validAccess_iff]; omega
  exact ⟨if_neg hv, if_neg hv⟩

/-- No register reads the observations. -/
theorem readReg_observe (r : Reg) (s : State) (off : Nat) (w : Word) : readReg r (s.observe off w) = readReg r s := by
  cases r <;> rfl

/-- A host read leaves what every offset reads. -/
theorem readOffset_observe (off' : Nat) (s : State) (off : Nat) (w : Word) :
    readOffset off' (s.observe off w) = readOffset off' s := by
  unfold readOffset
  cases regAt off' with
  | some r => exact readReg_observe r s off w
  | none => rfl

/-- STATUS and the registers from 0x038 up ignore writes (10_state.md R23). -/
theorem writeReg_readOnly (r : Reg) (w : Word) (s : State) (h : r.offset = 0x004 ∨ 0x038 ≤ r.offset) :
    writeReg r w s = s := by
  cases r with
  | cmd | cfgFormat | cfgRate | cfgRingBase | cfgRingFrames | cfgPeriodFrames | cfgVmask =>
    exact absurd h (by decide)
  | csStage k => simp only [Reg.offset] at h; omega
  | _ => rfl

/-- STATUS and every offset from 0x038 up, reserved ones too, ignore writes (10_state.md R23, R42). -/
theorem writeOffset_readOnly (off : Nat) (w : Word) (s : State) (h : off = 0x004 ∨ 0x038 ≤ off) :
    writeOffset off w s = s := by
  unfold writeOffset
  cases hr : regAt off with
  | some r => exact writeReg_readOnly r w s (offset_of_regAt off r hr ▸ h)
  | none => rfl

/-- Settles O47: a read only observes, a write has writeOffset_frame, and read-only offsets ignore it (R81). -/
theorem hostAccessSideEffects : Obligations.HostAccessSideEffects := by
  intro s t width off w
  refine ⟨fun h => ?read, fun h => ?write, fun hro ha hlt => ?ignored⟩
  case read =>
    obtain ⟨v, -, rfl⟩ := hostRead_next width off s t h
    exact ⟨rfl, readOffset_observe off s off v⟩
  case write =>
    obtain rfl := hostWrite_next width off w s t h
    exact writeOffset_frame off w s
  case ignored =>
    rw [hostWrite, if_pos ((validAccess_iff 32 off).mpr ⟨rfl, ha, hlt⟩), writeOffset_readOnly off w s hro]

end Sys2Proof.Machine
end

section
/-!
PROOFS. The encodings (30_encoding.md): on each port decoding and encoding are inverse, so every statement about the
opcode tables is a reading of one equivalence; and a step is the step of the statement at the head of the program.
-/

namespace Sys2Proof

/-! ## Words and their bytes -/

/-- The converse of wordOfBytes_bytesOfWord: only a word's own four bytes read as that word (30_encoding.md R95). -/
theorem bytesOfWord_of_wordOfBytes (bytes : List Byte) (w : Word) (h : wordOfBytes bytes = some w) :
    bytesOfWord w = bytes := by
  match bytes, h with
  | [b0, b1, b2, b3], h =>
    obtain rfl : b3 ++ b2 ++ b1 ++ b0 = w := Option.some.inj h
    simp (disch := decide) only [bytesOfWord, BitVec.extractLsb'_append_eq_of_le,
      BitVec.extractLsb'_append_eq_of_add_le, BitVec.extractLsb'_eq_self, Nat.reduceSub]

/-- Bytes decode to an instruction exactly when they are the bytes of a word that does. -/
theorem decode_eq_ok_iff (p : Port) (bytes : List Byte) (i : Instr) :
    decode p bytes = .ok i ↔ ∃ w, bytesOfWord w = bytes ∧ decodeWord p w = .ok i := by
  constructor
  · intro h
    unfold decode at h
    split at h
    next w hw => exact ⟨w, bytesOfWord_of_wordOfBytes bytes w hw, h⟩
    next => exact absurd h (by simp)
  · rintro ⟨w, rfl, h⟩
    rw [decode_bytesOfWord, h]

/-! ## CMD (R97, R98) -/

/-- RSV and OP are all of a CMD word (R96). -/
theorem cmd_fields (w : Word) : w.extractLsb' 4 28 ++ w.extractLsb' 0 4 = w := by
  rw [BitVec.extractLsb'_append_extractLsb'_eq_extractLsb' (by decide), BitVec.extractLsb'_eq_self]

/-- R98 in its own words. -/
theorem illegalCommand_iff (rsv : BitVec 28) (op : BitVec 4) :
    illegalCommand rsv op = true ↔ op = 0 ∨ 5 ≤ op.toNat ∨ rsv ≠ 0 := by
  rw [illegalCommand, Bool.or_eq_true, Bool.or_eq_true, bne_iff_ne, beq_iff_eq, decide_eq_true_iff, or_assoc, or_comm,
    or_assoc]
  rfl

/-- The fields R98 names are those of the words that select no row of R97's map. -/
theorem illegalCommand_iff_no_row (rsv : BitVec 28) (op : BitVec 4) :
    illegalCommand rsv op = true ↔
      rsv ++ op ≠ 1#32 ∧ rsv ++ op ≠ 2#32 ∧ rsv ++ op ≠ 3#32 ∧ rsv ++ op ≠ 4#32 := by
  have hw : (rsv ++ op).toNat = 16 * rsv.toNat + op.toNat := by
    rw [BitVec.toNat_append, ← Nat.shiftLeft_add_eq_or_of_lt op.isLt, Nat.shiftLeft_eq, Nat.mul_comm]
  rw [illegalCommand_iff]
  simp only [ne_eq, ← BitVec.toNat_inj, hw, BitVec.ofNat_eq_ofNat, BitVec.toNat_ofNat]
  have := op.isLt
  omega

/-- An illegal word keeps its two fields. -/
theorem decodeCmdWord_append (rsv : BitVec 28) (op : BitVec 4) (h : illegalCommand rsv op = true) :
    decodeCmdWord (rsv ++ op) = .badcmd rsv op := by
  obtain ⟨h1, h2, h3, h4⟩ := (illegalCommand_iff_no_row rsv op).mp h
  rw [decodeCmdWord, if_neg h1, if_neg h2, if_neg h3, if_neg h4,
    BitVec.extractLsb'_append_eq_of_le (by decide), BitVec.extractLsb'_append_eq_of_add_le (by decide),
    BitVec.extractLsb'_eq_self, BitVec.extractLsb'_eq_self]

/-- Every word on CMD decodes to a well-formed command, whose word it is. -/
theorem encodeWord_decodeCmdWord (w : Word) :
    WellFormed (decodeCmdWord w) = true ∧ portOf (decodeCmdWord w) = .cmd ∧ encodeWord (decodeCmdWord w) = w := by
  unfold decodeCmdWord
  split
  next h => exact ⟨rfl, rfl, h.symm⟩
  split
  next h => exact ⟨rfl, rfl, h.symm⟩
  split
  next h => exact ⟨rfl, rfl, h.symm⟩
  split
  next h => exact ⟨rfl, rfl, h.symm⟩
  next h1 h2 h3 h4 =>
    refine ⟨(illegalCommand_iff_no_row _ _).mpr ?_, rfl, cmd_fields w⟩
    rw [cmd_fields]
    exact ⟨h1, h2, h3, h4⟩

/-- A well-formed command is decoded from its word. -/
theorem decodeCmdWord_encodeWord (i : Instr) (hw : WellFormed i = true) (hp : portOf i = .cmd) :
    decodeCmdWord (encodeWord i) = i := by
  cases i with
  | prepare | setCs | start | stop => rfl
  | badcmd rsv op => exact decodeCmdWord_append rsv op hw
  | halfConsumed | submit | terminate => exact absurd hp (by simp [portOf])

/-! ## DMA_EVT (R100, R101) and DMA_REQ (R103) -/

/-- KIND, RSV and RESIDUE are all of a DMA_EVT word (R96). -/
theorem evt_fields (w : Word) : (w.extractLsb' 28 4 ++ w.extractLsb' 16 12) ++ w.extractLsb' 0 16 = w := by
  rw [BitVec.extractLsb'_append_extractLsb'_eq_extractLsb' (by decide),
    BitVec.extractLsb'_append_extractLsb'_eq_extractLsb' (by decide), BitVec.extractLsb'_eq_self]

/-- The HALF_CONSUMED word carries its residue. -/
theorem decodeEvtWord_halfConsumed (r : BitVec 16) :
    decodeEvtWord ((0x1#4 ++ 0#12) ++ r) = .ok (.halfConsumed r) := by
  have hk : ((0x1#4 ++ 0#12) ++ r).extractLsb' 28 4 = 0x1#4 := by
    rw [BitVec.extractLsb'_append_eq_of_le (by decide)]; rfl
  have hz : ((0x1#4 ++ 0#12) ++ r).extractLsb' 16 12 = 0#12 := by
    rw [BitVec.extractLsb'_append_eq_of_le (by decide)]; rfl
  rw [decodeEvtWord, if_pos ⟨hk, hz⟩, BitVec.extractLsb'_append_eq_of_add_le (by decide), BitVec.extractLsb'_eq_self]

/-- The one word of an instruction that DMA_EVT carries. -/
theorem decodeEvtWord_eq_ok_iff (w : Word) (i : Instr) :
    decodeEvtWord w = .ok i ↔ ∃ r, i = .halfConsumed r ∧ encodeWord i = w := by
  constructor
  · intro h
    unfold decodeEvtWord at h
    split at h
    next hf =>
      obtain ⟨hk, hz⟩ := hf
      obtain rfl := Except.ok.inj h
      refine ⟨_, rfl, ?_⟩
      rw [encodeWord, ← hk, ← hz, evt_fields]
    next => exact absurd h (by simp)
  · rintro ⟨r, rfl, rfl⟩
    exact decodeEvtWord_halfConsumed r

/-- R101: a word with another KIND or a nonzero RSV is outside the handshake. -/
theorem decodeEvtWord_foreign (w : Word) (h : w.extractLsb' 28 4 ≠ 0x1#4 ∨ w.extractLsb' 16 12 ≠ 0#12) :
    decodeEvtWord w = .error .badEventWord :=
  if_neg fun ⟨hk, hz⟩ => h.elim (· hk) (· hz)

/-- The two words of instructions that DMA_REQ carries. -/
theorem decodeReqWord_eq_ok_iff (w : Word) (i : Instr) :
    decodeReqWord w = .ok i ↔ (i = .submit ∨ i = .terminate) ∧ encodeWord i = w := by
  constructor
  · intro h
    unfold decodeReqWord at h
    split at h
    next hw => obtain rfl := Except.ok.inj h; exact ⟨.inl rfl, hw.symm⟩
    split at h
    next hw => obtain rfl := Except.ok.inj h; exact ⟨.inr rfl, hw.symm⟩
    next => exact absurd h (by simp)
  · rintro ⟨rfl | rfl, rfl⟩ <;> rfl

/-- Any other word on DMA_REQ is none of R103's (log 9). -/
theorem decodeReqWord_foreign (w : Word) (hs : w ≠ 0x10000C00#32) (ht : w ≠ 0x20000000#32) :
    decodeReqWord w = .error .notARequestWord := by
  rw [decodeReqWord, if_neg hs, if_neg ht]

/-! ## The three ports together -/

/-- THE DECODER: a word decodes on a port to exactly the well-formed instruction of that port whose word it is. -/
theorem decodeWord_eq_ok_iff (p : Port) (w : Word) (i : Instr) :
    decodeWord p w = .ok i ↔ WellFormed i = true ∧ portOf i = p ∧ encodeWord i = w := by
  cases p with
  | cmd =>
    constructor
    · intro h
      obtain rfl := Except.ok.inj h
      exact encodeWord_decodeCmdWord w
    · rintro ⟨hw, hp, rfl⟩
      exact congrArg Except.ok (decodeCmdWord_encodeWord i hw hp)
  | evt =>
    refine (decodeEvtWord_eq_ok_iff w i).trans ?_
    cases i <;> simp [WellFormed, portOf]
  | req =>
    refine (decodeReqWord_eq_ok_iff w i).trans ?_
    cases i <;> simp [WellFormed, portOf]

/-- The decoder on the bytes of a word. -/
theorem decode_bytesOfWord_eq_ok_iff (p : Port) (w : Word) (i : Instr) :
    decode p (bytesOfWord w) = .ok i ↔ WellFormed i = true ∧ portOf i = p ∧ encodeWord i = w := by
  rw [decode_bytesOfWord, decodeWord_eq_ok_iff]

/-- Settles O6: one direction of the decoder's equivalence. -/
theorem decodeOfEncode : Obligations.DecodeOfEncode := by
  intro i hw
  exact (decode_bytesOfWord_eq_ok_iff (portOf i) (encodeWord i) i).mpr ⟨hw, rfl, rfl⟩

/-- Settles O7: the other direction, the bytes being those of the word decoded. -/
theorem encodeOfDecode : Obligations.EncodeOfDecode := by
  intro p bytes i h
  obtain ⟨w, rfl, hd⟩ := (decode_eq_ok_iff p bytes i).mp h
  obtain ⟨hw, hp, rfl⟩ := (decodeWord_eq_ok_iff p w i).mp hd
  exact ⟨hw, hp, rfl⟩

/-- A word on CMD selects a row with no fields exactly when it is that row's word. -/
theorem decode_cmd_eq_ok_iff (w : Word) (i : Instr) (hw : WellFormed i = true) (hp : portOf i = .cmd) :
    decode .cmd (bytesOfWord w) = .ok i ↔ w = encodeWord i := by
  rw [decode_bytesOfWord_eq_ok_iff]
  exact ⟨fun ⟨_, _, he⟩ => he.symm, fun he => ⟨hw, hp, he.symm⟩⟩

/-- Settles O2: each row's word is decoded to it alone (R97). -/
theorem commandMapIsExact : Obligations.CommandMapIsExact := fun w =>
  ⟨decode_cmd_eq_ok_iff w .prepare rfl rfl, decode_cmd_eq_ok_iff w .setCs rfl rfl,
    decode_cmd_eq_ok_iff w .start rfl rfl, decode_cmd_eq_ok_iff w .stop rfl rfl⟩

/-- Settles O3: R98's fields make BADCMD well-formed, and its meaning sets LAST_RESULT (R177). -/
theorem illegalCommandWordsOnlyReport : Obligations.IllegalCommandWordsOnlyReport := by
  intro rsv op h
  have hw : WellFormed (.badcmd rsv op) = true := (illegalCommand_iff rsv op).mpr h
  exact ⟨decodeOfEncode (.badcmd rsv op) hw, fun _ => rfl⟩

/-- Settles O1: the bytes are those of each instruction's encoding. -/
theorem tableWordsDecode : Obligations.TableWordsDecode :=
  ⟨decodeOfEncode .prepare rfl, decodeOfEncode .setCs rfl, decodeOfEncode .start rfl, decodeOfEncode .stop rfl,
    decodeOfEncode (.badcmd 0x0000001 0x5) rfl, decodeOfEncode (.halfConsumed 1536) rfl, decodeOfEncode .submit rfl,
    decodeOfEncode .terminate rfl⟩

/-- The HALF_CONSUMED word as R100 writes it. -/
theorem encodeWord_halfConsumed (r : BitVec 16) :
    encodeWord (.halfConsumed r) = 0x10000000#32 ||| r.setWidth 32 := by
  rw [encodeWord, BitVec.append_def]
  rfl

/-- Settles O4. -/
theorem eventWordCarriesResidue : Obligations.EventWordCarriesResidue := by
  intro r
  rw [← encodeWord_halfConsumed]
  exact decodeOfEncode (.halfConsumed r) rfl

end Sys2Proof

namespace Sys2Proof.Machine

/-! ## Words delivered and driven -/

/-- A word delivered on DMA_EVT runs the instruction it decodes to (43_buffer_controller.md R187). -/
theorem deliverEvent_of_decode (w : Word) (i : Instr) (s : State) (h : decode .evt (bytesOfWord w) = .ok i) :
    deliverEvent w s = exec i s := by
  rw [decode_bytesOfWord] at h
  rw [deliverEvent, h]

/-- A word driven on DMA_REQ runs the instruction it decodes to (log 9). -/
theorem driveRequest_of_decode (w : Word) (i : Instr) (s : State) (h : decode .req (bytesOfWord w) = .ok i) :
    driveRequest w s = exec i s := by
  rw [decode_bytesOfWord] at h
  rw [driveRequest, h]

/-- Any other word driven on DMA_REQ is refused by name (log 9). -/
theorem driveRequest_foreign (w : Word) (s : State) (hs : w ≠ 0x10000C00#32) (ht : w ≠ 0x20000000#32) :
    driveRequest w s = .refused .notARequestWord := by
  rw [driveRequest, decodeWord, decodeReqWord_foreign w hs ht]

/-- Settles O5: such a word decodes to no event (R101). -/
theorem foreignEventWordFaults : Obligations.ForeignEventWordFaults := by
  intro w s h
  rw [deliverEvent, decodeWord, decodeEvtWord_foreign w h]

/-! ## Statements -/

/-- `cmd!` with no refill active is the CMD write (R108). -/
theorem commandNow_idle (w : Word) (s : State) (h : s.refillActive = false) :
    commandNow w s = hostWrite 32 0x000 w s :=
  if_neg (by simp [h])

/-- `cmd!` inside a refill is refused by name (R108; log 29). -/
theorem commandNow_inRefill (w : Word) (s : State) (h : s.refillActive = true) :
    commandNow w s = .refused .commandNowInRefill :=
  if_pos h

/-- Settles O9: step_stmt takes the statement, and its own law says what it does. -/
theorem stepRunsStatement : Obligations.StepRunsStatement := by
  intro s rest u
  have take : ∀ st, s.program = st :: rest → step s = takeStatement st u := fun st h => step_stmt s st rest h
  refine ⟨?evt, ?req, ?evtForeign, ?reqForeign, ?wr, ?rd, ?seq, ?emit, ?ack, ?cmdNow, ?cmdNowRefused, ?waitDone,
    ?waitSeq, ?waitTurns⟩
  case evt => exact fun w i h hd => (take _ h).trans (deliverEvent_of_decode w i u hd)
  case req => exact fun w i h hd => (take _ h).trans (driveRequest_of_decode w i u hd)
  case evtForeign => exact fun w h hf => (take _ h).trans (foreignEventWordFaults w u hf)
  case reqForeign => exact fun w h hs ht => (take _ h).trans (driveRequest_foreign w u hs ht)
  case wr => exact fun width off w h => take (.wr width off w) h
  case rd => exact fun width off h => take (.rd width off) h
  case seq => exact fun d h => step_seq s d rest h
  case emit => exact fun h => take .emit h
  case ack => exact fun v h => take (.ack v) h
  case cmdNow => exact fun w h ha => (take _ h).trans (commandNow_idle w u ha)
  case cmdNowRefused => exact fun w h ha => (take _ h).trans (commandNow_inRefill w u ha)
  case waitDone => exact fun turns h hp => (take _ h).trans (waitTurn_done turns u hp)
  case waitSeq => exact fun h hp => (take _ h).trans (waitTurn_again [] u hp)
  case waitTurns =>
    intro ts turns h hp
    rw [take _ h, takeStatement, waitTurn_again (ts :: turns) u hp, waitAgain, List.append_assoc]
    rfl

end Sys2Proof.Machine
end

section
/-!
PROOFS. The subframe encoder (40_subframe_encoder.md): the logical word's fields and its parity, the biphase-mark cells,
their packing into bytes, the level a subframe ends on, and R136's decoding as a left inverse of the encoding.
-/

namespace Sys2Proof.Machine

/-! ## The logical word (R127, R128, R135) -/

/-- Settles O18: slot 31 is subframeWord_p, every other slot one of the body's. -/
theorem logicalWordFields : Obligations.LogicalWordFields := by
  intro payload c
  obtain ⟨hpre, hv, hu, hc⟩ := subframeBody_fixed payload c
  refine ⟨fun i h => ?_, fun i h => ?_, ?_, ?_, ?_, subframeWord_p payload c⟩
  · rw [subframeWord_low _ _ _ (by omega), hpre i h]
  · rw [subframeWord_low _ _ _ (by omega), subframeBody_payload _ _ _ h]
  · rw [subframeWord_low _ _ _ (by omega), hv]
  · rw [subframeWord_low _ _ _ (by omega), hu]
  · rw [subframeWord_low _ _ _ (by omega), hc]

/-- The parity bit makes the XOR of slots 4..31 zero (R128). -/
theorem subframeWord_parity (payload : BitVec 24) (c : Bool) : parityOf (subframeWord payload c) 4 28 = false := by
  rw [parityOf, subframeWord_p, Bool.xor_self]

/-- The XOR of a run of slots tells whether the number of ones among them is odd. -/
theorem xorAll_eq_count (ds : List Bool) : xorAll ds = (ds.count true % 2 == 1) := by
  induction ds with
  | nil => rfl
  | cons d ds ih =>
    rw [xorAll, ih]
    cases d with
    | false => simp
    | true => rcases Nat.mod_two_eq_zero_or_one (ds.count true) with h | h <;> simp [Nat.add_mod, h]

/-- Settles O19: the XOR of slots 4..31 is zero. -/
theorem parityIsEven : Obligations.ParityIsEven := by
  intro payload c
  have hxor : xorAll (slotsFrom (subframeWord payload c) 4 28) = false :=
    (xorAll_slotsFrom _ 4 28).trans (subframeWord_parity payload c)
  rw [xorAll_eq_count, beq_eq_false_iff_ne] at hxor
  omega

/-! ## The cells (R129, R131) -/

/-- The biphase rule at slot `i` of a run, counted from the cell before the run (R129). -/
theorem biphase_rule (l : Bool) (ds : List Bool) (i : Nat) (d : Bool) (h : ds[i]? = some d) :
    ∃ a, (l :: biphase l ds)[2 * i]? = some a ∧ (l :: biphase l ds)[2 * i + 1]? = some (!a) ∧
      (l :: biphase l ds)[2 * i + 2]? = some ((!a) ^^ d) := by
  induction ds generalizing l i with
  | nil => simp at h
  | cons e ds ih =>
    cases i with
    | zero =>
      obtain rfl : e = d := by simpa using h
      exact ⟨l, rfl, rfl, rfl⟩
    | succ i => exact ih ((!l) ^^ e) i (by simpa using h)

/-- Cell 7 of every preamble is 0 (R131), so the cells after the first seven are those of a run after a 0 cell. -/
theorem subframeCells_eq_append (pre : Preamble) (sf : Word) :
    subframeCells pre sf = pre.cells.take 7 ++ false :: biphase false (slotsFrom sf 4 28) := by
  cases pre <;> rfl

/-- A cell from cell 7 on. -/
theorem subframeCells_getElem?_add_seven (pre : Preamble) (sf : Word) (n : Nat) :
    (subframeCells pre sf)[7 + n]? = (false :: biphase false (slotsFrom sf 4 28))[n]? := by
  have hlen : (pre.cells.take 7).length = 7 := by simp
  rw [subframeCells_eq_append, List.getElem?_append_right (by omega), hlen, Nat.add_sub_cancel_left]

/-- Settles O20: biphase_rule at slot i, seven cells on. -/
theorem cellsFollowBiphaseRule : Obligations.CellsFollowBiphaseRule := by
  intro pre sf
  refine ⟨subframeCells_length pre sf, fun k h => ?_, fun i h4 h32 => ?_⟩
  · exact List.getElem?_append_left (by rwa [preambleCells_length])
  · obtain ⟨n, rfl⟩ := Nat.exists_eq_add_of_le h4
    have hslot : (slotsFrom sf 4 28)[n]? = some (sf.getLsbD (4 + n)) := by
      rw [slotsFrom_getElem?, if_pos (by omega)]
    obtain ⟨a, h0, h1, h2⟩ := biphase_rule false _ n _ hslot
    rw [← subframeCells_getElem?_add_seven pre] at h0 h1 h2
    refine ⟨a, _, ?_, ?_, ?_, rfl⟩
    · rwa [show 2 * (4 + n) - 1 = 7 + 2 * n by omega]
    · rwa [show 2 * (4 + n) = 7 + (2 * n + 1) by omega]
    · rwa [show 2 * (4 + n) + 1 = 7 + (2 * n + 2) by omega]

/-! ## The bytes (R130) -/

/-- The cells an encoded subframe unpacks to are the encoder's. -/
theorem cellsOfBytes_encodeSubframe (p : Sample) (vm : BitVec 24) (pre : Preamble) (c : Bool) :
    cellsOfBytes (encodeSubframe p vm pre c) = subframeCells pre (subframeWord (p &&& vm) c) :=
  cellsOfBytes_packCells 8 _ (by simp)

/-- Cell `k` of a byte is its bit `7 - k`. -/
theorem cellsOfByte_getElem? (b : Byte) (k : Nat) (h : k < 8) : (cellsOfByte b)[k]? = some (b.getLsbD (7 - k)) :=
  match k, h with
  | 0, _ | 1, _ | 2, _ | 3, _ | 4, _ | 5, _ | 6, _ | 7, _ => rfl

/-- Cell `8j + k` of a run of bytes is bit `7 - k` of byte `j` (R130). -/
theorem cellsOfBytes_getElem? (bytes : List Byte) (j k : Nat) (h : k < 8) :
    (cellsOfBytes bytes)[8 * j + k]? = bytes[j]?.map (fun b => b.getLsbD (7 - k)) := by
  induction bytes generalizing j with
  | nil => rfl
  | cons b bytes ih =>
    have hcons : cellsOfBytes (b :: bytes) = cellsOfByte b ++ cellsOfBytes bytes := rfl
    have hlen : (cellsOfByte b).length = 8 := rfl
    rw [hcons]
    cases j with
    | zero => rw [List.getElem?_append_left (by omega), Nat.mul_zero, Nat.zero_add, cellsOfByte_getElem? b k h]; rfl
    | succ j =>
      rw [List.getElem?_append_right (by omega), hlen, show 8 * (j + 1) + k - 8 = 8 * j + k by omega, ih]
      rfl

/-- Settles O21: unpacking reads cell 8j + k at bit 7 - k of byte j, and it undoes the packing. -/
theorem cellsPackMostSignificantFirst : Obligations.CellsPackMostSignificantFirst := by
  intro p vm pre c
  refine ⟨encodeSubframe_length p vm pre c, fun j k _ hk => ?_⟩
  rw [← cellsOfBytes_getElem? _ j k hk, cellsOfBytes_encodeSubframe]

/-- Settles O22: after the 0 cell of the preamble come 28 slots, an even number of toggles, and an even number of ones. -/
theorem subframeEndsOnZeroCell : Obligations.SubframeEndsOnZeroCell := by
  intro p vm pre c
  have hslots := xorAll_slotsFrom (subframeWord (p &&& vm) c) 4 28
  have hend := biphase_getLast? false ((subframeWord (p &&& vm) c).getLsbD 4)
    (slotsFrom (subframeWord (p &&& vm) c) 5 27)
  rw [← slotsFrom, hslots, subframeWord_parity, slotsFrom_length] at hend
  rw [cellsOfBytes_encodeSubframe, subframeCells, List.getLast?_append, hend]
  rfl

/-! ## Decoding (R136) -/

/-- A preamble packs into one byte, from which R136 takes it back. -/
theorem packCells_preamble (pre : Preamble) (cs : List Bool) :
    ∃ b, packCells (pre.cells ++ cs) = b :: packCells cs ∧ preambleOfByte b = some pre := by
  cases pre <;> exact ⟨_, rfl, rfl⟩

/-- The number of slots 4..31, moved up to slot 4, is the word, where slots 3:0 carry no data. -/
theorem ofNat_slots_eq (sf : Word) (h : ∀ i, i < 4 → sf.getLsbD i = false) :
    BitVec.ofNat 32 (16 * natOfBits (slotsFrom sf 4 28)) = sf := by
  apply BitVec.eq_of_getLsbD_eq
  intro i hi
  rw [BitVec.getLsbD_ofNat, show (16 : Nat) = 2 ^ 4 from rfl, Nat.testBit_two_pow_mul, natOfBits_testBit,
    slotsFrom_getElem?]
  by_cases hlow : i < 4
  · simp [h i hlow, show ¬ 4 ≤ i by omega]
  · simp [hi, show 4 ≤ i by omega, show i - 4 < 28 by omega, show 4 + (i - 4) = i by omega]

/-- Decoding the code of a logical word recovers the preamble and cuts the fields out of that word. -/
theorem recoverSubframe_packCells (pre : Preamble) (sf : Word) (h : ∀ i, i < 4 → sf.getLsbD i = false) :
    recoverSubframe (packCells (subframeCells pre sf)) =
      some ⟨pre, sf.extractLsb' 4 24, sf.getLsbD 28, sf.getLsbD 29, sf.getLsbD 30, sf.getLsbD 31⟩ := by
  obtain ⟨b, hpack, hpre⟩ := packCells_preamble pre (biphase false (slotsFrom sf 4 28))
  have hword : recoverWord (packCells (subframeCells pre sf)) = sf := by
    rw [recoverWord, subframeCells, hpack, List.tail_cons, cellsOfBytes_packCells 7 _ (by simp), slotsOfCells_biphase,
      ofNat_slots_eq sf h]
  have hhead : (packCells (subframeCells pre sf)).head?.bind preambleOfByte = some pre := by
    rw [subframeCells, hpack]; exact hpre
  simp only [recoverSubframe, hhead, hword]

/-- Settles O23: decoding recovers the logical word, whose fields are those of logicalWordFields. -/
theorem encodingIsInvertible : Obligations.EncodingIsInvertible := by
  intro p vm pre c
  obtain ⟨hlow, hpayload, hv, hu, hc, hp⟩ := logicalWordFields (p &&& vm) c
  have hextract : (subframeWord (p &&& vm) c).extractLsb' 4 24 = p &&& vm := by
    apply BitVec.eq_of_getLsbD_eq
    intro i hi
    rw [BitVec.getLsbD_extractLsb', decide_eq_true hi, Bool.true_and, hpayload i hi]
  rw [encodeSubframe, maskSample, recoverSubframe_packCells pre _ hlow, hextract, hv, hu, hc, hp]

end Sys2Proof.Machine
end

section
/-!
PROOFS. The channel-status cycle (41_channel_status.md): what one draw and a run of draws give, the frame ASSEMBLE_FRAME
writes with one draw, and SET_CS.
-/

namespace Sys2Proof.Machine

/-! ## Draws (R141, R142, R148) -/

/-- CSBIT within the message is the bit of its byte (R142). -/
theorem csBit_eq_getElem (msg : Vector Byte 24) (k : Nat) (h : k / 8 < 24) :
    csBit msg k = (msg[k / 8]'h).getLsbD (k % 8) := by
  rw [csBit, Vector.getElem?_eq_getElem h, Option.getD_some]

/-- Settles O28: a draw is csNow and advanceCursor. -/
theorem nextBitDrawsAndAdvances : Obligations.NextBitDrawsAndAdvances :=
  fun s _ => ⟨rfl, rfl, csBit_eq_getElem s.actCs s.csCursor.toNat⟩

/-- The cursor modulo 192 is the cursor. -/
theorem ofNat_toNat_mod_cycle (c : BitVec 8) (h : c.toNat < 192) : BitVec.ofNat 8 (c.toNat % 192) = c := by
  rw [Nat.mod_eq_of_lt h, BitVec.ofNat_toNat, BitVec.setWidth_eq]

/-- `n` draws read `n` bits of the cycle from the cursor on and move the cursor by `n` (R141, R144). -/
theorem drawBits_eq (n : Nat) (s : State) (h : s.csCursor.toNat < 192) :
    drawBits n s =
      ((List.range n).map (cycleBit s.actCs s.csCursor.toNat),
        { s with csCursor := BitVec.ofNat 8 ((s.csCursor.toNat + n) % 192) }) := by
  induction n generalizing s with
  | zero =>
    rw [Nat.add_zero, ofNat_toNat_mod_cycle _ h]
    rfl
  | succ n ih =>
    have hnext : s.advanceCursor.csCursor.toNat = (s.csCursor.toNat + 1) % 192 := nextCursor_toNat s.csCursor
    have hmod : ((s.csCursor.toNat + 1) % 192 + n) % 192 = (s.csCursor.toNat + (n + 1)) % 192 := by omega
    have hbits : cycleBit s.actCs ((s.csCursor.toNat + 1) % 192) = cycleBit s.actCs s.csCursor.toNat ∘ Nat.succ :=
      funext (cycleBit_succ s.actCs s.csCursor.toNat)
    simp only [drawBits, csNextBit]
    rw [ih s.advanceCursor (by omega), hnext, hmod, advanceCursor_actCs, hbits, csNow_eq s h, List.range_succ_eq_map,
      List.map_cons, List.map_map]
    rfl

/-- Of 192 consecutive frames of the cycle exactly one starts a block (R148). -/
theorem countP_blk_cycle (msg : Vector Byte 24) (k : Nat) (h : k < 192) :
    (List.range 192).countP (fun i => (cycleBit msg k i).blk) = 1 := by
  have hstart : ∀ i ∈ List.range 192, (cycleBit msg k i).blk = true ↔ (i == (192 - k) % 192) = true := by
    intro i hi
    simp only [List.mem_range] at hi
    simp only [cycleBit, Config.csBits, beq_iff_eq]
    omega
  rw [List.countP_congr hstart, ← List.count_eq_countP, List.count_range, if_pos (Nat.mod_lt _ (by omega))]

/-- Settles O29: drawBits_eq at 192 draws, the cursor back where it was. -/
theorem cycleReadsWholeMessage : Obligations.CycleReadsWholeMessage := by
  intro s h
  rw [drawBits_eq 192 s h, Nat.add_mod_right, ofNat_toNat_mod_cycle _ h]
  refine ⟨rfl, ?_, rfl⟩
  rw [← List.countP_eq_length_filter, List.countP_map]
  exact countP_blk_cycle s.actCs s.csCursor.toNat h

/-! ## One frame, one command (R143, R145, 42_frame_assembler.md R158, R159) -/

/-- A stereo frame with no host write inside its reads (42_frame_assembler.md R158). -/
theorem readStereo_quiet (f : Format) (a : Nat) (m : Memory) :
    readStereo f a [] m =
      ⟨decodeSample f ((List.range f.sampleBytes).map (fun i => pcmByte m (a + i))),
        decodeSample f ((List.range f.sampleBytes).map (fun i => pcmByte m (a + f.sampleBytes + i))), m⟩ := by
  simp only [readStereo, readPcm_quiet, landAll_nil]

/-- Settles O30: assembleFrame_pcm with no host write inside, the samples readStereo_quiet's; silence reads none. -/
theorem assembleFrameWritesSlot : Obligations.AssembleFrameWritesSlot := by
  intro s f k
  refine ⟨?live, rfl⟩
  case live =>
    rw [assembleFrame_pcm, readStereo_quiet]
    rfl

/-- Settles O12: SET_CS is the record update itself (R143). -/
theorem setCsRestartsCycle : Obligations.SetCsRestartsCycle := fun _ => rfl

end Sys2Proof.Machine
end

section
/-!
PROOFS. The invariant is kept by every step of every agent: one lemma an agent's step, each saying which parts of the
invariant the step touches; the other parts pass over unchanged.
-/

namespace Sys2Proof.Machine

/-- An admitted configuration stays one while its fields stay and the counters stay inside it. -/
theorem ActiveConfig.of_counters {s t : State} (hs : ActiveConfig s) (hformat : t.actFormat = s.actFormat)
    (hrate : t.actRate = s.actRate) (hbase : t.actRingBase = s.actRingBase)
    (hframes : t.actRingFrames = s.actRingFrames) (hperiod : t.actPeriodFrames = s.actPeriodFrames)
    (hpos : t.pos.toNat < s.actRingFrames.toNat) (hacc : t.periodAcc.toNat < s.actPeriodFrames.toNat) :
    ActiveConfig t where
  rate := hrate ▸ hs.rate
  ringNonempty := hframes ▸ hs.ringNonempty
  ringFits := by rw [hbase, hframes, hformat]; exact hs.ringFits
  periodNonzero := hperiod ▸ hs.periodNonzero
  posInRing := hframes ▸ hpos
  accInPeriod := hperiod ▸ hacc

/-- THE UPDATE RULE of the invariant: after a step from `s` to `t` only the parts that the step touches are to be shown.
A part not given is one whose fields are those of `s`. -/
theorem Inv.update {s t : State} (hs : Inv s)
    (cursor : s.csCursor.toNat < Config.csBits → t.csCursor.toNat < Config.csBits := by exact id)
    (slot : s.refillSlot ≤ Config.halfFrames → t.refillSlot ≤ Config.halfFrames := by exact id)
    (drain : s.drain < Config.bufFrames → t.drain < Config.bufFrames := by exact id)
    (outbufForm : s.outbuf.wf → t.outbuf.wf := by exact id)
    (outbufRange : (∀ c ∈ s.outbuf, c.1 < Config.bufBytes) → ∀ c ∈ t.outbuf, c.1 < Config.bufBytes := by
      exact id)
    (pcmForm : s.pcm.wf → t.pcm.wf := by exact id)
    (pcmRange : (∀ c ∈ s.pcm, c.1 < Config.pcmBytes) → ∀ c ∈ t.pcm, c.1 < Config.pcmBytes := by
      exact id)
    (primed : (s.xferActive = true → OutbufPrimed s.outbuf) → t.xferActive = true → OutbufPrimed t.outbuf := by
      exact id)
    (config : (s.configured = true → ActiveConfig s) → t.configured = true → ActiveConfig t := by
      exact fun h hc => (h hc).of_counters rfl rfl rfl rfl rfl (h hc).posInRing (h hc).accInPeriod)
    (streaming : (s.sil = 0#32 → s.configured = true) → t.sil = 0#32 → t.configured = true := by exact id)
    (refillSil : (s.refillActive = true → s.refillSil = s.sil) → t.refillActive = true → t.refillSil = t.sil := by
      exact id)
    (refillMode : (s.refillActive = true → s.refillLive = decide (s.refillSil = 0#32)) →
      t.refillActive = true → t.refillLive = decide (t.refillSil = 0#32) := by exact id)
    (frames : (∀ f ∈ s.line, f.length = Config.slotBytes) → ∀ f ∈ t.line, f.length = Config.slotBytes := by
      exact id) :
    Inv t where
  cursor := cursor hs.cursor
  slot := slot hs.slot
  drain := drain hs.drain
  outbufForm := outbufForm hs.outbufForm
  outbufRange := outbufRange hs.outbufRange
  pcmForm := pcmForm hs.pcmForm
  pcmRange := pcmRange hs.pcmRange
  primed := primed hs.primed
  config := config hs.config
  streaming := streaming hs.streaming
  refillSil := refillSil hs.refillSil
  refillMode := refillMode hs.refillMode
  frames := frames hs.frames

/-! ## Instructions -/

/-- A submission leaves a buffer prefilled whole, so the transfer it opens is primed (43_buffer_controller.md R169). -/
theorem submitReported_inv (s : State) (hs : Inv s) : Inv s.submitReported := by
  obtain ⟨-, hfilled, -⟩ := prefill_spec s hs.cursor
  rw [submitReported_eq s hs.cursor]
  refine hs.update (drain := fun h => ?drain) (outbufForm := prefill_wf s) (outbufRange := prefill_range s)
    (primed := fun _ _ => silenceFilled_primed _ _ _ _ hfilled)
  case drain =>
    show (if s.ackNext then 0 else s.drain) < 192
    split
    · decide
    · exact h

theorem ensureTransfer_inv (s : State) (hs : Inv s) : Inv s.ensureTransfer := by
  cases hx : s.xferActive with
  | true => rw [ensureTransfer_active s hx]; exact hs.update
  | false => rw [ensureTransfer_idle s hx]; exact submitReported_inv s hs

/-- PREPARE's checks give what ActiveConfig asks, its counters at 0 (43_buffer_controller.md R170, R171). -/
theorem activeConfig_activate (s : State) (f : Format) (h : s.validFormat = some f) : ActiveConfig (s.activate f) := by
  obtain ⟨-, hrate, hframes, hperiod, hfits⟩ := (validFormat_eq_some s f).mp h
  have hframes : 0 < s.cfgRingFrames.toNat := Nat.pos_of_ne_zero fun e => hframes (BitVec.eq_of_toNat_eq e)
  have hperiod : 0 < s.cfgPeriodFrames.toNat := Nat.pos_of_ne_zero fun e => hperiod (BitVec.eq_of_toNat_eq e)
  exact ⟨hrate, hframes, hfits, hperiod, hframes, hperiod⟩

/-- PREPARE's effects; no refill runs under a command, so the refill's copy of SIL is free (20_memory.md R85). -/
theorem activate_inv (s : State) (f : Format) (hs : Inv s) (hidle : s.refillActive = false)
    (h : s.validFormat = some f) : Inv (s.activate f) :=
  hs.update (cursor := fun _ => show 0 < 192 by decide) (config := fun _ _ => activeConfig_activate s f h)
    (streaming := fun _ _ => rfl) (refillSil := fun _ ha => absurd (hidle.symm.trans ha) Bool.false_ne_true)

/-- START's effects in a configured block (43_buffer_controller.md R174). -/
theorem begin_inv (s : State) (hs : Inv s) (hidle : s.refillActive = false) (hc : s.configured = true) :
    Inv s.begin := by
  have hconfig := hs.config hc
  exact hs.update
    (config := fun _ _ => hconfig.of_counters rfl rfl rfl rfl rfl hconfig.ringNonempty hconfig.periodNonzero)
    (streaming := fun _ _ => hc) (refillSil := fun _ ha => absurd (hidle.symm.trans ha) Bool.false_ne_true)

/-- The instructions keep the invariant; those of CMD run with no refill active (43_buffer_controller.md R165). -/
theorem exec_inv (i : Instr) (s t : State) (hs : Inv s) (hidle : portOf i = .cmd → s.refillActive = false)
    (h : exec i s = .next t) : Inv t := by
  cases i with
  | prepare =>
    have h : execPrepare s = .next t := h
    rcases execPrepare_cases s with ⟨-, e⟩ | ⟨f, hf, e⟩ <;> rw [e] at h <;> cases h
    · exact hs.update
    · exact ensureTransfer_inv _ (activate_inv s f hs (hidle rfl) hf)
  | setCs => cases h; exact hs.update (cursor := fun _ => show 0 < 192 by decide)
  | start =>
    have h : execStart s = .next t := h
    unfold execStart at h
    split at h <;> cases h
    · exact ensureTransfer_inv _ (begin_inv s hs (hidle rfl) ‹_›)
    · exact hs.update
  | stop =>
    have h : execStop s = .next t := h
    rw [execStop_eq] at h
    cases h
    exact hs.update (primed := fun _ hx => absurd hx Bool.false_ne_true)
      (streaming := fun _ h1 => absurd h1 (show 1#32 ≠ 0#32 by decide))
      (refillSil := fun _ ha => absurd ((hidle rfl).symm.trans ha) Bool.false_ne_true)
  | badcmd rsv op => cases h; exact hs.update
  | halfConsumed residue =>
    have h : execHalfConsumed residue s = .next t := h
    unfold execHalfConsumed at h
    split at h <;> cases h
    exact hs.update
  | submit => cases h; exact submitReported_inv s hs
  | terminate => cases h; exact hs.update (primed := fun _ hx => absurd hx Bool.false_ne_true)

/-! ## SEQ -/

theorem landPcm_inv (d : During) (s : State) (hs : Inv s) : Inv (s.landPcm d) :=
  hs.update (pcmForm := landAll_wf s.pcm d) (pcmRange := landAll_range s.pcm d)

/-- A slot step writes 16 bytes of one of the 192 slots (43_buffer_controller.md R182, R183). -/
theorem refillSlotStep_inv (d : During) (s : State) (hs : Inv s) (hslot : s.refillSlot < 96) :
    Inv (refillSlotStep d s) := by
  obtain ⟨bs, hlen, hbuf⟩ := refillSlotStep_outbuf d s
  have hhalf := refillHalf_lt s
  rw [refillSlotStep_frame, hbuf]
  exact hs.update (cursor := fun _ => nextCursor_lt s.csCursor) (slot := fun _ => hslot)
    (outbufForm := write_wf _ _ _)
    (outbufRange := write_range _ _ _ _ (by rw [hlen]; simp only [Config.bufBytes]; omega))
    (pcmForm := landAll_wf s.pcm d) (pcmRange := landAll_range s.pcm d)
    (primed := fun h hx a ha => get_write_isSome _ _ _ _ (h hx a ha))

/-- A remainder by a word fits a word. -/
theorem toNat_ofNat_mod_lt (n : Nat) (m : Word) (h : 0 < m.toNat) :
    (BitVec.ofNat 32 (n % m.toNat)).toNat < m.toNat := by
  have hlt := Nat.mod_lt n h
  rw [BitVec.toNat_ofNat, Nat.mod_eq_of_lt (Nat.lt_trans hlt m.isLt)]
  exact hlt

/-- A live refill runs in a streaming, so in a configured block (43_buffer_controller.md R180, R181). -/
theorem Inv.configured_of_live {s : State} (hs : Inv s) (ha : s.refillActive = true) (hl : s.refillLive = true) :
    s.configured = true := by
  have hsil : s.refillSil = 0#32 := by simpa [hl] using hs.refillMode ha
  exact hs.streaming ((hs.refillSil ha).symm.trans hsil)

/-- The end of a live refill moves POS and PERIOD_ACC inside the configuration; that of a silence refill counts SIL, not
into streaming (43_buffer_controller.md R184, R185). -/
theorem refillEnd_inv (s : State) (hs : Inv s) (ha : s.refillActive = true) : Inv (refillEnd s) := by
  cases hl : s.refillLive with
  | true =>
    have hconfig := hs.config (hs.configured_of_live ha hl)
    rw [refillEnd_live s hl hconfig.periodNonzero]
    exact hs.update
      (config := fun _ _ => hconfig.of_counters rfl rfl rfl rfl rfl (toNat_ofNat_mod_lt _ _ hconfig.ringNonempty)
        (toNat_ofNat_mod_lt _ _ hconfig.periodNonzero))
      (refillSil := fun _ h => absurd h Bool.false_ne_true) (refillMode := fun _ h => absurd h Bool.false_ne_true)
  | false =>
    rw [refillEnd_silence s hl, if_pos (hs.refillSil ha).symm]
    exact hs.update (streaming := fun _ h => absurd h (silInc_ne_zero _))
      (refillSil := fun _ h => absurd h Bool.false_ne_true) (refillMode := fun _ h => absurd h Bool.false_ne_true)

/-- REFILL_BEGIN loads SIL and fixes the mode from it (43_buffer_controller.md R180). -/
theorem refillBegin_inv (s : State) (hs : Inv s) : Inv (refillBegin s) :=
  hs.update (slot := fun _ => Nat.zero_le _) (refillSil := fun _ _ => rfl) (refillMode := fun _ _ => rfl)

/-- One lemma for each kind of SEQ step; a command is executed with no refill active (43_buffer_controller.md R165). -/
theorem seqStep_inv (d : During) (s t : State) (hs : Inv s) (h : seqStep d s = .next t) : Inv t := by
  have hland := landPcm_inv d s hs
  rcases seqStep_cases d s with
    ⟨-, hslot, e⟩ | ⟨ha, -, e⟩ | ⟨hidle, -, e⟩ | ⟨-, -, -, -, e⟩ | ⟨-, e⟩ <;> rw [e] at h
  · cases h; exact refillSlotStep_inv d s hs hslot
  · cases h; exact refillEnd_inv _ hland ha
  · obtain ⟨u, hu, rfl⟩ := execLatched_next _ _ h
    exact (exec_inv _ _ _ hland (fun _ => hidle) hu).update
  · cases h; exact refillBegin_inv _ hland
  · exact absurd h (by simp)

/-! ## XFER -/

/-- An emission appends the 16 bytes read and moves DRAIN around the slots (43_buffer_controller.md R188). -/
theorem emitted_inv (s : State) (frame : List Byte) (hs : Inv s) (hlen : frame.length = 16) :
    Inv (s.emitted frame) := by
  refine hs.update (drain := fun _ => Nat.mod_lt _ (show 0 < 192 by decide)) (frames := fun h f hf => ?frames)
  case frames =>
    rcases List.mem_append.mp hf with hf | hf
    · exact h f hf
    · rw [List.mem_singleton.mp hf]; exact hlen

theorem emission_inv (s t : State) (hs : Inv s) (h : emission s = .next t) : Inv t := by
  obtain ⟨-, -, frame, hread, hb⟩ := emission_next s t h
  have hemitted := emitted_inv s frame hs (read_length _ _ _ _ hread)
  rcases boundaryEvent_next _ _ hb with ⟨-, -, rfl⟩ | ⟨-, -, rfl⟩ | ⟨-, -, rfl⟩
  · exact hemitted.update
  · exact hemitted.update
  · exact hemitted

/-- A word decoded on DMA_EVT or DMA_REQ is no command, so it runs inside a refill too (log 31). -/
theorem exec_decoded_inv (p : Port) (w : Word) (i : Instr) (s t : State) (hs : Inv s) (hp : p ≠ .cmd)
    (hi : decodeWord p w = .ok i) (h : exec i s = .next t) : Inv t := by
  obtain ⟨-, hport, -⟩ := (decodeWord_eq_ok_iff p w i).mp hi
  exact exec_inv i s t hs (fun hc => absurd (hport.symm.trans hc) hp) h

/-! ## HOST -/

/-- The host writes only the command latch and the staging registers (20_memory.md R81). -/
theorem hostWrite_inv (width off : Nat) (w : Word) (s t : State) (hs : Inv s) (h : hostWrite width off w s = .next t) :
    Inv t := by
  rw [hostWrite_next width off w s t h, writeOffset_frame]
  exact hs.update

theorem hostRead_inv (width off : Nat) (s t : State) (hs : Inv s) (h : hostRead width off s = .next t) : Inv t := by
  obtain ⟨w, -, rfl⟩ := hostRead_next width off s t h
  exact hs.update

theorem pcmWrites_inv (addr : BitVec 32) (bytes : List Byte) (s t : State) (hs : Inv s)
    (h : pcmWrites addr bytes s = .next t) : Inv t := by
  unfold pcmWrites at h
  split at h
  · cases h; exact hs.update (pcmForm := write_wf _ _ _) (pcmRange := write_range _ _ _ _ ‹_›)
  · exact absurd h (by simp)

theorem commandNow_inv (w : Word) (s t : State) (hs : Inv s) (h : commandNow w s = .next t) : Inv t := by
  unfold commandNow at h
  split at h
  · exact absurd h (by simp)
  · exact hostWrite_inv _ _ _ s t hs h

theorem waitTurn_inv (turns : List (List Turn)) (s t : State) (hs : Inv s) (h : waitTurn turns s = .next t) :
    Inv t := by
  cases hp : s.cmdPending with
  | false => rw [waitTurn_done turns s hp] at h; cases h; exact hs.update
  | true => rw [waitTurn_again turns s hp] at h; cases h; exact hs.update

/-! ## The step -/

/-- A hardware reset gives the reset state, PCM memory apart, which it keeps (70_reset_and_hazards.md R235; log 15). -/
theorem hardwareReset_inv (s : State) (hs : Inv s) : Inv s.hardwareReset := by
  have hreset : Inv State.reset := resetMeetsInvariant
  exact hreset.update (pcmForm := fun _ => hs.pcmForm) (pcmRange := fun _ => hs.pcmRange)

theorem takeStatement_inv (st : Stmt) (s t : State) (hs : Inv s) (h : takeStatement st s = .next t) : Inv t := by
  cases st with
  | wr width off imm => exact hostWrite_inv width off imm s t hs h
  | rd width off => exact hostRead_inv width off s t hs h
  | pcm addr bytes => exact pcmWrites_inv addr bytes s t hs h
  | seq d => exact seqStep_inv d s t hs h
  | emit => exact emission_inv s t hs h
  | ack v => cases h; exact hs.update
  | cmdNow w => exact commandNow_inv w s t hs h
  | wait turns => exact waitTurn_inv turns s t hs h
  | evt w =>
    obtain ⟨i, hi, he⟩ := deliverEvent_next w s t h
    exact exec_decoded_inv .evt w i s t hs (by decide) hi he
  | req w =>
    obtain ⟨i, hi, he⟩ := driveRequest_next w s t h
    exact exec_decoded_inv .req w i s t hs (by decide) hi he
  | rst => cases h; exact hardwareReset_inv s hs

/-- Settles O57: a step is that of the statement taken, and no part of the invariant speaks of the program. -/
theorem stepKeepsInvariant : Obligations.StepKeepsInvariant := by
  intro s t hs h
  cases hp : s.program with
  | nil => rw [step_done s hp] at h; cases h; exact hs
  | cons st rest =>
    rw [step_stmt s st rest hp] at h
    exact takeStatement_inv st { s with program := rest } t hs.update h

end Sys2Proof.Machine
end

section
/-!
PROOFS. The frame assembler (42_frame_assembler.md): the bits each sample decoder takes from a sample's bytes, and the
payload recovered from an encoded sample.
-/

namespace Sys2Proof.Machine

/-! ## Decoders (R153 to R156) -/

/-- A little-endian number at a width of one byte more is the number of the later bytes above the first byte
(20_memory.md R74). -/
theorem ofNat_littleEndian_cons (n : Nat) (b : Byte) (bs : List Byte) :
    BitVec.ofNat (n + 8) (littleEndian (b :: bs)) = BitVec.ofNat n (littleEndian bs) ++ b := by
  have hb : b.toNat < 2 ^ 8 := b.isLt
  have hlow : (b.toNat + 2 ^ 8 * littleEndian bs) % 2 ^ 8 = b.toNat := by omega
  have hhigh : (b.toNat + 2 ^ 8 * littleEndian bs) / 2 ^ 8 = littleEndian bs := by omega
  apply BitVec.eq_of_toNat_eq
  calc (BitVec.ofNat (n + 8) (littleEndian (b :: bs))).toNat
      _ = (b.toNat + 2 ^ 8 * littleEndian bs) % (2 ^ 8 * 2 ^ n) := by
        rw [BitVec.toNat_ofNat, littleEndian, Nat.add_comm n, Nat.pow_add, show 256 = 2 ^ 8 from rfl]
      _ = b.toNat + 2 ^ 8 * (littleEndian bs % 2 ^ n) := by rw [Nat.mod_mul, hlow, hhigh]
      _ = (BitVec.ofNat n (littleEndian bs) ++ b).toNat := by
        rw [BitVec.toNat_append, ← Nat.shiftLeft_add_eq_or_of_lt hb, BitVec.toNat_ofNat, Nat.shiftLeft_eq, Nat.mul_comm,
          Nat.add_comm]

theorem ofNat_littleEndian_one (b : Byte) : BitVec.ofNat 8 (littleEndian [b]) = b := by
  simp [littleEndian]

theorem ofNat_littleEndian_two (b0 b1 : Byte) : BitVec.ofNat 16 (littleEndian [b0, b1]) = b1 ++ b0 := by
  rw [ofNat_littleEndian_cons 8, ofNat_littleEndian_one]

theorem ofNat_littleEndian_three (b0 b1 b2 : Byte) :
    BitVec.ofNat 24 (littleEndian [b0, b1, b2]) = b2 ++ b1 ++ b0 := by
  rw [ofNat_littleEndian_cons 16, ofNat_littleEndian_two]

/-- Bits 31:8 of four bytes leave out the first byte, the least significant (R154, R156). -/
theorem extractLsb'_littleEndian_four (b0 b1 b2 b3 : Byte) :
    (BitVec.ofNat 32 (littleEndian [b0, b1, b2, b3])).extractLsb' 8 24 = b3 ++ b2 ++ b1 := by
  rw [ofNat_littleEndian_cons 24, ofNat_littleEndian_three, BitVec.extractLsb'_append_eq_left]

/-- Settles O24: one equation a format, S24_LE and S32_LE taking the same bits of the same number (log 20). -/
theorem decodersSelectBits : Obligations.DecodersSelectBits := by
  intro b0 b1 b2 b3
  refine ⟨?s16, ?s24, ?s24packed, ?s32⟩
  case s16 => rw [decodeSample, decS16, ofNat_littleEndian_two]
  case s24 => exact extractLsb'_littleEndian_four b0 b1 b2 b3
  case s24packed => exact ofNat_littleEndian_three b0 b1 b2
  case s32 => exact extractLsb'_littleEndian_four b0 b1 b2 b3

/-! ## The round trip (R163) -/

/-- Settles O25: encodingIsInvertible at the decoded sample. It holds of every sample, so the format and the number of
bytes play no part. -/
theorem payloadRoundTrip : Obligations.PayloadRoundTrip :=
  fun fmt bytes vm pre c _ => ⟨_, encodingIsInvertible (decodeSample fmt bytes) vm pre c, rfl⟩

end Sys2Proof.Machine
end

section
/-!
PROOFS. The buffer controller (43_buffer_controller.md): its commands, the request words and the event of the DMA handshake,
the step SEQ takes, one step inside a refill, whole refills and their accounting, the emissions of the transfer
collaborator, and that a pending command is executed.
-/

namespace Sys2Proof.Machine

/-! ## Commands and the DMA handshake (R169 to R176, R187) -/

/-- Settles O10: a configuration PREPARE accepts passes all five checks, so one that fails a check is rejected whole. -/
theorem prepareRejectsBadConfiguration : Obligations.PrepareRejectsBadConfiguration := by
  intro s hbad
  rcases execPrepare_cases s with ⟨-, hrejected⟩ | ⟨f, hf, -⟩
  · exact hrejected
  · obtain ⟨hcode, hrate, hframes, hperiod, hfits⟩ := (validFormat_eq_some s f).mp hf
    exfalso
    rcases hbad with h | h | h | h | ⟨g, hg, h⟩
    · have hle : f.code.toNat ≤ 3 := by cases f <;> decide
      rw [hcode] at hle
      omega
    · exact h hrate
    · exact hframes h
    · exact hperiod h
    · have hgf : some g = some f := by rw [← formatOf_code g, ← formatOf_code f, hg, hcode]
      cases hgf
      omega

/-- THE WHOLE SUBMISSION (R169, R172): every field but OUTBUF by name, and what OUTBUF then holds. -/
theorem submitReported_spec (s : State) (hc : s.csCursor.toNat < 192) :
    ∃ m : Memory,
      s.submitReported = { s with
        outbuf := m, reqs := s.reqs ++ [0x10000C00#32], ackNext := true,
        xferActive := if s.ackNext then true else s.xferActive,
        drain := if s.ackNext then 0 else s.drain,
        evtPending := if s.ackNext then false else s.evtPending,
        lastResult := if s.ackNext then .ok else .errResource } ∧
      SilenceFilled m s.actCs s.actVmask s.csCursor.toNat ∧
      ∀ x, 3072 ≤ x → m.get x = s.outbuf.get x := by
  obtain ⟨-, hfilled, habove⟩ := prefill_spec s hc
  refine ⟨(prefill s).outbuf, ?_, hfilled, habove⟩
  rw [submitReported_eq s hc]
  cases s.ackNext <;> rfl

/-- A command that submits because no transfer runs (R171, R174): ENV's answer is the new XFER_ACTIVE. -/
theorem ensureTransfer_idle_spec (s : State) (hx : s.xferActive = false) (hc : s.csCursor.toNat < 192) :
    ∃ m : Memory,
      s.ensureTransfer = { s with
        outbuf := m, reqs := s.reqs ++ [0x10000C00#32], ackNext := true, xferActive := s.ackNext,
        drain := if s.ackNext then 0 else s.drain,
        evtPending := if s.ackNext then false else s.evtPending,
        lastResult := if s.ackNext then .ok else .errResource } ∧
      SilenceFilled m s.actCs s.actVmask s.csCursor.toNat ∧
      ∀ x, 3072 ≤ x → m.get x = s.outbuf.get x := by
  obtain ⟨m, hm, hfilled, habove⟩ := submitReported_spec s hc
  refine ⟨m, ?_, hfilled, habove⟩
  rw [ensureTransfer_idle s hx, hm, hx]
  cases s.ackNext <;> rfl

/-- PREPARE once its checks pass (R171). -/
theorem exec_prepare_valid (s : State) (f : Format) (h : s.validFormat = some f) :
    exec .prepare s = .next (s.activate f).ensureTransfer := by
  show execPrepare s = _
  rw [execPrepare, h]

/-- Settles O11: the activated state, then ensureTransfer with a transfer running or not. -/
theorem prepareTakesEffect : Obligations.PrepareTakesEffect := by
  intro s f hcode hrate hframes hperiod hfits
  have hexec := exec_prepare_valid s f ((validFormat_eq_some s f).mpr ⟨hcode, hrate, hframes, hperiod, hfits⟩)
  refine ⟨fun hx => ?running, fun hx => ?idle⟩
  case running => rw [hexec, ensureTransfer_active (s.activate f) hx]; rfl
  case idle =>
    obtain ⟨m, hm, hfilled, habove⟩ := ensureTransfer_idle_spec (s.activate f) hx (show 0 < 192 by decide)
    exact ⟨m, by rw [hexec, hm]; rfl, hfilled, habove⟩

/-- START of a configured block (R174). -/
theorem exec_start_configured (s : State) (h : s.configured = true) : exec .start s = .next s.begin.ensureTransfer :=
  if_pos h

/-- Settles O13: START's own effects, then ensureTransfer with a transfer running or not. -/
theorem startStreams : Obligations.StartStreams := by
  intro s
  refine ⟨fun hconf => ?unconfigured, fun hconf hx => ?running, fun hconf hx hc => ?idle⟩
  case unconfigured => exact if_neg (by simp [hconf])
  case running => rw [exec_start_configured s hconf, ensureTransfer_active s.begin hx]; rfl
  case idle =>
    obtain ⟨m, hm, hfilled, habove⟩ := ensureTransfer_idle_spec s.begin hx hc
    exact ⟨m, by rw [exec_start_configured s hconf, hm]; rfl, hfilled, habove⟩

/-- Settles O16: SUBMIT is the reported submission. -/
theorem submitPrefillsAndAsks : Obligations.SubmitPrefillsAndAsks := by
  intro s hc
  obtain ⟨m, hm, hfilled, habove⟩ := submitReported_spec s hc
  exact ⟨m, congrArg Host.Outcome.next hm, hfilled, habove⟩

/-- Settles O14: execStop_eq is the statement. -/
theorem stopEndsTransfer : Obligations.StopEndsTransfer := execStop_eq

/-- Settles O17: TERMINATE is the record update itself. -/
theorem terminateClearsTransfer : Obligations.TerminateClearsTransfer := fun _ => rfl

/-- Settles O15: the two branches of HALF_CONSUMED. -/
theorem halfConsumedLatchesOrOverruns : Obligations.HalfConsumedLatchesOrOverruns := by
  intro s r
  exact ⟨fun h => if_neg (by simp [h]), fun h => if_pos h⟩

/-! ## The step SEQ takes (R165, R167, R180) -/

section
variable (d : During) (s : State)

theorem seqStep_refillSlot (ha : s.refillActive = true) (hj : s.refillSlot < 96) :
    seqStep d s = .next (refillSlotStep d s) := by
  simp [seqStep, State.seqMove, ha, hj]

theorem seqStep_refillEnd (ha : s.refillActive = true) (hj : s.refillSlot = 96) :
    seqStep d s = .next (refillEnd (s.landPcm d)) := by
  simp [seqStep, State.seqMove, ha, hj]

theorem seqStep_execCmd (ha : s.refillActive = false) (hp : s.cmdPending = true) :
    seqStep d s = execLatched (s.landPcm d) := by
  simp [seqStep, State.seqMove, ha, hp]

theorem seqStep_refillBegin (ha : s.refillActive = false) (hp : s.cmdPending = false) (he : s.evtPending = true)
    (hx : s.xferActive = true) : seqStep d s = .next (refillBegin (s.landPcm d)) := by
  simp [seqStep, State.seqMove, ha, hp, he, hx]

end

/-- THE FIVE CASES of SEQ (R165): each candidate with its condition, or none. -/
theorem seqMove_cases (s : State) (h : s.refillSlot ≤ 96) :
    (s.refillActive = true ∧ s.refillSlot < 96 ∧ s.seqMove = some .refillSlot) ∨
    (s.refillActive = true ∧ s.refillSlot = 96 ∧ s.seqMove = some .refillEnd) ∨
    (s.refillActive = false ∧ s.cmdPending = true ∧ s.seqMove = some .execCmd) ∨
    (s.refillActive = false ∧ s.cmdPending = false ∧ s.evtPending = true ∧ s.xferActive = true ∧
      s.seqMove = some .refillBegin) ∨
    (s.refillActive = false ∧ s.cmdPending = false ∧ (s.evtPending = false ∨ s.xferActive = false) ∧
      s.seqMove = none) := by
  cases ha : s.refillActive with
  | true =>
    rcases Nat.lt_or_eq_of_le h with hj | hj
    · exact .inl ⟨rfl, hj, by simp [State.seqMove, ha, hj]⟩
    · exact .inr (.inl ⟨rfl, hj, by simp [State.seqMove, ha, hj]⟩)
  | false =>
    cases hp : s.cmdPending with
    | true => exact .inr (.inr (.inl ⟨rfl, rfl, by simp [State.seqMove, ha, hp]⟩))
    | false => cases he : s.evtPending <;> cases hx : s.xferActive <;> simp [State.seqMove, ha, hp, he, hx]

/-- Settles O31: the conditions of the five cases exclude each other, so each case decides every equivalence. -/
theorem sequencerPriority : Obligations.SequencerPriority := by
  intro s h
  refine ⟨fun d ha hp hex => ?noStep, ?moves⟩
  case noStep =>
    rcases seqStep_cases d s with ⟨ha', -⟩ | ⟨ha', -⟩ | ⟨-, hp', -⟩ | ⟨-, -, he, hx, -⟩ | ⟨-, e⟩
    · simp [ha] at ha'
    · simp [ha] at ha'
    · simp [hp] at hp'
    · simp [he, hx] at hex
    · exact e
  case moves =>
    rcases seqMove_cases s h with
      ⟨ha, hj, e⟩ | ⟨ha, hj, e⟩ | ⟨ha, hp, e⟩ | ⟨ha, hp, he, hx, e⟩ | ⟨ha, hp, hex, e⟩
    · simp [e, ha, hj, Nat.ne_of_lt hj]
    · simp [e, ha, hj]
    · simp [e, ha, hp]
    · simp [e, ha, hp, he, hx]
    · rcases hex with hex | hex <;> simp [e, ha, hp, hex]

/-- Settles O8: the decoder of CMD is total, so the decoded instruction is the one EXEC_CMD runs. -/
theorem stepRunsLatchedCommand : Obligations.StepRunsLatchedCommand := by
  intro s d rest i hprog ha hp hi
  rw [decode_bytesOfWord] at hi
  obtain rfl : decodeCmdWord s.cmdLatch = i := Except.ok.inj hi
  rw [step_seq s d rest hprog, seqStep_execCmd d { s with program := rest } ha hp, execLatched]
  rfl

/-- REFILL_BEGIN with SIL at 0 (R180). -/
theorem refillBegin_live (s : State) (h : s.sil = 0) :
    refillBegin s = { s with
      evtPending := false, refillActive := true, refillHalf := halfOf s.evtResidue, refillLive := true,
      refillSil := 0, refillSlot := 0 } := by
  rw [refillBegin, show s.streaming = true from beq_iff_eq.mpr h, h]

/-- REFILL_BEGIN in the silence regime (R180). -/
theorem refillBegin_silence (s : State) (h : s.sil ≠ 0) :
    refillBegin s = { s with
      evtPending := false, refillActive := true, refillHalf := halfOf s.evtResidue, refillLive := false,
      refillSil := s.sil, refillSlot := 0 } := by
  rw [refillBegin, show s.streaming = false from beq_eq_false_iff_ne.mpr h]

/-- Settles O32: the step is REFILL_BEGIN, which is the record update itself. -/
theorem refillBeginFixesHalfAndMode : Obligations.RefillBeginFixesHalfAndMode := by
  intro s ha hp he hx
  rw [seqStep_refillBegin [] s ha hp he hx]
  rfl

/-! ## REFILL_END (R184 to R186) -/

/-- REFILL_END of a live refill, the notifications counted as a number (R184). -/
theorem refillEnd_accounts (s : State) (hl : s.refillLive = true) (hp : 0 < s.actPeriodFrames.toNat) :
    refillEnd s = { s with
      pos := BitVec.ofNat 32 ((s.pos.toNat + 96) % s.actRingFrames.toNat)
      periodAcc := BitVec.ofNat 32 ((s.periodAcc.toNat + 96) % s.actPeriodFrames.toNat)
      notifyCount := BitVec.ofNat 32 (s.notifyCount.toNat + (s.periodAcc.toNat + 96) / s.actPeriodFrames.toNat)
      notifyLog := s.notifyLog ++ List.replicate ((s.periodAcc.toNat + 96) / s.actPeriodFrames.toNat)
        (BitVec.ofNat 32 ((s.pos.toNat + 96) % s.actRingFrames.toNat))
      refillActive := false } := by
  rw [refillEnd_live s hl hp, BitVec.ofNat_add s.notifyCount.toNat, BitVec.ofNat_toNat, BitVec.setWidth_eq]

/-- Settles O33: the step is REFILL_END. -/
theorem liveRefillEndAccounts : Obligations.LiveRefillEndAccounts := by
  intro s ha hj hl hp
  rw [seqStep_refillEnd [] s ha hj]
  exact congrArg Host.Outcome.next (refillEnd_accounts s hl hp)

/-- REFILL_END of a silence refill where SIL still holds what REFILL_BEGIN loaded: the CAS succeeds (R185). -/
theorem refillEnd_counts (s : State) (hl : s.refillLive = false) (hsil : s.sil = s.refillSil) :
    refillEnd s = { s with sil := silInc s.sil, refillActive := false } := by
  rw [refillEnd_silence s hl, if_pos hsil, hsil]

/-- Settles O34: by the invariant SIL still holds what REFILL_BEGIN loaded (20_memory.md R85). -/
theorem silenceRefillEndCounts : Obligations.SilenceRefillEndCounts := by
  intro s hs ha hj hl
  have hcounts := refillEnd_counts s hl (hs.refillSil ha).symm
  have hnonzero := silInc_ne_zero s.sil
  rw [silInc_eq] at hcounts hnonzero
  exact ⟨(seqStep_refillEnd [] s ha hj).trans (congrArg Host.Outcome.next hcounts), hnonzero⟩

/-- A live REFILL_END leaves SIL, whatever the period (R184). -/
theorem refillEnd_live_sil (s : State) (hl : s.refillLive = true) : (refillEnd s).sil = s.sil := by
  rw [refillEnd, if_pos hl, accountLive, accountPeriods_frame]
  rfl

/-- REFILL_END counts no slot and draws no bit, and what it leaves of the counts depends on the mode (R184 to R186). -/
theorem refillEnd_spec (s : State) :
    refillEnd s = { s with
      pos := (refillEnd s).pos, periodAcc := (refillEnd s).periodAcc, sil := (refillEnd s).sil,
      notifyCount := (refillEnd s).notifyCount, notifyLog := (refillEnd s).notifyLog, refillActive := false } ∧
    (s.refillLive = true → (refillEnd s).sil = s.sil) ∧
    (s.refillLive = false → (refillEnd s).pos = s.pos ∧ (refillEnd s).periodAcc = s.periodAcc ∧
      (refillEnd s).notifyCount = s.notifyCount ∧ (refillEnd s).notifyLog = s.notifyLog) := by
  refine ⟨refillEnd_frame s, refillEnd_live_sil s, fun hl => ?_⟩
  rw [refillEnd_silence s hl]
  exact ⟨rfl, rfl, rfl, rfl⟩

/-! ## One step inside a refill (R165, R178, R182, R183) -/

/-- The sample a slot step encodes from the step's reads `first` on, the host's writes landing among them (20_memory.md
R82): of its ring frame if the refill is live, zero if it is silence. -/
def refillSample (s : State) (d : During) (first : Nat) : Sample :=
  if s.refillLive then
    decodeSample s.actFormat ((List.range s.actFormat.sampleBytes).map (fun i =>
      pcmByte (landAll s.pcm (d.take (first + i + 1)))
        (frameAddr s ((s.pos.toNat + s.refillSlot) % s.actRingFrames.toNat) + first + i)))
  else 0

/-- THE SLOT STEP WHOLE (R182, R183), with host writes inside it. -/
theorem refillSlotStep_eq (d : During) (s : State) :
    refillSlotStep d s = { s with
      pcm := landAll s.pcm d
      csCursor := nextCursor s.csCursor
      outbuf := s.outbuf.write (16 * (96 * s.refillHalf.toNat + s.refillSlot))
        (frameBytesOf (refillSample s d 0) (refillSample s d s.actFormat.sampleBytes) s.actVmask s.csNow)
      refillSlot := s.refillSlot + 1 } := by
  by_cases hl : s.refillLive = true
  · rw [refillSlotStep, refillSource, if_pos hl, assembleFrame_pcm, readStereo_spec]
    simp only [refillSample, if_pos hl, Nat.zero_add, Nat.add_zero]
    rfl
  · rw [refillSlotStep, refillSource, if_neg hl]
    simp only [refillSample, if_neg hl]
    rfl

/-- Settles O35: with a refill active the step is a slot step or REFILL_END, each with its own frame. -/
theorem stepInsideRefill : Obligations.StepInsideRefill := by
  intro s d ha
  refine ⟨fun t ht => ?frame, fun hj => ?slot, fun hj => ?refillEnd⟩
  case frame =>
    rcases seqStep_cases d s with ⟨-, -, e⟩ | ⟨-, -, e⟩ | ⟨ha', -⟩ | ⟨ha', -⟩ | ⟨-, e⟩
    · rw [e] at ht; cases ht; rw [refillSlotStep_frame]
    · rw [e] at ht; cases ht; rw [refillEnd_frame]; rfl
    · simp [ha] at ha'
    · simp [ha] at ha'
    · rw [e] at ht; cases ht
  case slot =>
    rw [seqStep_refillSlot d s ha hj, refillSlotStep_eq]
    rfl
  case refillEnd => exact ⟨refillEnd (s.landPcm d), seqStep_refillEnd d s ha hj, refillEnd_spec (s.landPcm d)⟩

/-! ## Whole refills (R178, R182, R183, R186; 30_encoding.md R108) -/

/-- The frame of the slot `i` places after REFILL_SLOT, the cycle as many draws on: its ring frame if the refill is live,
else silence. -/
def refillFrame (s : State) (i : Nat) : List Byte :=
  if s.refillLive then liveFrame s ((s.pos.toNat + s.refillSlot + i) % s.actRingFrames.toNat) s.csCursor.toNat i
  else silenceFrame s.actCs s.actVmask s.csCursor.toNat i

/-- The state `n` slot steps on, the statements left and OUTBUF by name. -/
def State.afterSlots (s : State) (rest : List Stmt) (n : Nat) (m : Memory) : State :=
  { s with
    program := rest
    csCursor := BitVec.ofNat 8 ((s.csCursor.toNat + n) % 192)
    outbuf := m
    refillSlot := s.refillSlot + n }

theorem afterSlots_csCursor_toNat (s : State) (rest : List Stmt) (n : Nat) (m : Memory) :
    (s.afterSlots rest n m).csCursor.toNat = (s.csCursor.toNat + n) % 192 := by
  simp only [State.afterSlots, BitVec.toNat_ofNat]
  omega

theorem afterSlots_zero (s : State) (h : s.csCursor.toNat < 192) : s.afterSlots s.program 0 s.outbuf = s := by
  rw [State.afterSlots, Nat.add_zero, ofNat_toNat_mod_cycle _ h]
  rfl

theorem afterSlots_afterSlots (s : State) (rest rest' : List Stmt) (n k : Nat) (m m' : Memory) :
    (s.afterSlots rest n m).afterSlots rest' k m' = s.afterSlots rest' (n + k) m' := by
  have hcursor : ((s.csCursor.toNat + n) % 192 + k) % 192 = (s.csCursor.toNat + (n + k)) % 192 := by omega
  rw [State.afterSlots, afterSlots_csCursor_toNat, hcursor]
  simp only [State.afterSlots, Nat.add_assoc]

@[simp] theorem refillFrame_length (s : State) (i : Nat) : (refillFrame s i).length = 16 := by
  unfold refillFrame
  split <;> simp [liveFrame, silenceFrame]

/-- A slot step moves REFILL_SLOT and CS_CURSOR on together, so the frames to come stay the same. -/
theorem refillFrame_afterSlots_one (s : State) (rest : List Stmt) (m : Memory) (i : Nat) :
    refillFrame (s.afterSlots rest 1 m) i = refillFrame s (i + 1) := by
  have hcycle := cycleBit_succ s.actCs s.csCursor.toNat i
  have hslot : s.pos.toNat + (s.refillSlot + 1) + i = s.pos.toNat + s.refillSlot + (i + 1) := by omega
  simp only [refillFrame, liveFrame, silenceFrame, afterSlots_csCursor_toNat, ← hcycle, ← hslot]
  rfl

/-- One slot step with no host write in it, whatever the mode (R182, R183). -/
theorem refillSlotStep_quiet (s : State) (hk : s.csCursor.toNat < 192) :
    refillSlotStep [] s =
      s.afterSlots s.program 1
        (s.outbuf.write (16 * (96 * s.refillHalf.toNat + s.refillSlot)) (refillFrame s 0)) := by
  by_cases hl : s.refillLive = true
  · rw [refillSlotStep_live s hk hl, refillFrame, if_pos hl]
    rfl
  · rw [refillSlotStep_silence s hk (by simpa using hl), refillFrame, if_neg hl]
    rfl

/-- A `seq` that begins a refill. -/
theorem step_refillBegin (s : State) (rest : List Stmt) (hprog : s.program = .seq [] :: rest)
    (ha : s.refillActive = false) (hp : s.cmdPending = false) (he : s.evtPending = true) (hx : s.xferActive = true) :
    step s = .next { refillBegin s with program := rest } := by
  rw [step_seq s [] rest hprog, seqStep_refillBegin [] { s with program := rest } ha hp he hx]
  rfl

/-- A `seq` that takes a slot step. -/
theorem step_refillSlot (s : State) (rest : List Stmt) (hprog : s.program = .seq [] :: rest)
    (ha : s.refillActive = true) (hj : s.refillSlot < 96) (hk : s.csCursor.toNat < 192) :
    step s = .next (s.afterSlots rest 1
      (s.outbuf.write (16 * (96 * s.refillHalf.toNat + s.refillSlot)) (refillFrame s 0))) := by
  rw [step_seq s [] rest hprog, seqStep_refillSlot [] { s with program := rest } ha hj,
    refillSlotStep_quiet { s with program := rest } hk]
  rfl

/-- A `seq` that ends a refill. -/
theorem step_refillEnd (s : State) (rest : List Stmt) (hprog : s.program = .seq [] :: rest)
    (ha : s.refillActive = true) (hj : s.refillSlot = 96) : step s = .next (refillEnd { s with program := rest }) :=
  (step_seq s [] rest hprog).trans (seqStep_refillEnd [] { s with program := rest } ha hj)

/-- A RUN OF SLOT STEPS from slot `k` of OUTBUF: `n` `seq` statements write the next `n` slots, in rising order, and no
other byte of it. -/
theorem cleanRun_refillSlots (n k : Nat) (s : State) (rest : List Stmt)
    (hprog : s.program = List.replicate n (.seq []) ++ rest) (ha : s.refillActive = true)
    (hj : s.refillSlot + n ≤ 96) (hslot : 96 * s.refillHalf.toNat + s.refillSlot = k) (hc : s.csCursor.toNat < 192) :
    ∃ m : Memory,
      CleanRun n s (s.afterSlots rest n m) ∧
      (∀ i, i < n → m.read (16 * (k + i)) 16 = some (refillFrame s i)) ∧
      ∀ x, (x < 16 * k ∨ 16 * (k + n) ≤ x) → m.get x = s.outbuf.get x := by
  induction n generalizing k s with
  | zero =>
    have hdone : s.afterSlots rest 0 s.outbuf = s := by
      rw [← show s.program = rest from hprog]
      exact afterSlots_zero s hc
    exact ⟨s.outbuf, congrArg Host.Outcome.next hdone.symm, fun i hi => absurd hi (Nat.not_lt_zero i), fun x _ => rfl⟩
  | succ n ih =>
    rw [List.replicate_succ, List.cons_append] at hprog
    have hstep := step_refillSlot s _ hprog ha (by omega) hc
    rw [hslot] at hstep
    obtain ⟨m, hrun, hread, hout⟩ := ih (k + 1)
      (s.afterSlots (List.replicate n (.seq []) ++ rest) 1 (s.outbuf.write (16 * k) (refillFrame s 0))) rfl ha
      (show s.refillSlot + 1 + n ≤ 96 by omega) (by rw [← hslot]; rfl) (by rw [afterSlots_csCursor_toNat]; omega)
    rw [afterSlots_afterSlots, Nat.add_comm 1 n] at hrun
    have hout (x : Nat) (hx : x < 16 * (k + 1) ∨ 16 * (k + 1 + n) ≤ x) :
        m.get x = (s.outbuf.write (16 * k) (refillFrame s 0)).get x := hout x hx
    refine ⟨m, (cleanRun_succ n s _).mpr ⟨_, hstep, hrun⟩, fun i hi => ?written, fun x hx => ?other⟩
    case written =>
      cases i with
      | zero =>
        rw [read_congr m _ (16 * (k + 0)) 16 fun j hj => hout _ (by omega)]
        simpa using read_write_same s.outbuf (16 * k) (refillFrame s 0)
      | succ i =>
        have h := hread i (by omega)
        rwa [refillFrame_afterSlots_one, Nat.add_assoc, Nat.add_comm 1 i] at h
    case other => rw [hout x (by omega), get_write_other _ _ _ _ (by rw [refillFrame_length]; omega)]

/-- THE RUN OF `refill`: REFILL_BEGIN, 96 slot steps, REFILL_END. The half the event's residue selects holds the frames of
the mode SIL selects; the rest of OUTBUF stays. -/
theorem cleanRun_refill (s : State) (rest : List Stmt) (hprog : s.program = expandRefill ++ rest)
    (ha : s.refillActive = false) (hp : s.cmdPending = false) (he : s.evtPending = true) (hx : s.xferActive = true)
    (hc : s.csCursor.toNat < 192) :
    ∃ m : Memory,
      CleanRun 98 s (refillEnd ((refillBegin s).afterSlots rest 96 m)) ∧
      (∀ i, i < 96 → m.read (1536 * (halfOf s.evtResidue).toNat + 16 * i) 16 =
        some (refillFrame (refillBegin s) i)) ∧
      ∀ x, (x < 1536 * (halfOf s.evtResidue).toNat ∨ 1536 * (halfOf s.evtResidue).toNat + 1536 ≤ x) →
        m.get x = s.outbuf.get x := by
  have hprog : s.program = .seq [] :: (List.replicate 96 (.seq []) ++ .seq [] :: rest) := hprog
  have hbegin := step_refillBegin s _ hprog ha hp he hx
  obtain ⟨m, hslots, hread, hout⟩ := cleanRun_refillSlots 96 (96 * (halfOf s.evtResidue).toNat)
    { refillBegin s with program := List.replicate 96 (.seq []) ++ .seq [] :: rest } (.seq [] :: rest) rfl rfl
    (Nat.le_refl 96) rfl hc
  have hend : step ((refillBegin s).afterSlots (.seq [] :: rest) 96 m) =
      .next (refillEnd ((refillBegin s).afterSlots rest 96 m)) := step_refillEnd _ rest rfl rfl rfl
  refine ⟨m, ?run, fun i hi => ?written, fun x hx => hout x (by omega)⟩
  case run =>
    have hlast : CleanRun 1 _ _ := (cleanRun_succ 0 _ _).mpr ⟨_, hend, rfl⟩
    exact (cleanRun_succ 97 s _).mpr ⟨_, hbegin, cleanRun_add 96 1 _ _ _ hslots hlast⟩
  case written =>
    have h := hread i hi
    rw [show 16 * (96 * (halfOf s.evtResidue).toNat + i) = 1536 * (halfOf s.evtResidue).toNat + 16 * i by omega] at h
    exact h

/-- Settles O36: the run of `refill` in silence; its REFILL_END finds SIL as REFILL_BEGIN loaded it. -/
theorem wholeSilenceRefill : Obligations.WholeSilenceRefill := by
  intro s rest hprog ha hp he hx hsil hc
  obtain ⟨m, hrun, hread, hout⟩ := cleanRun_refill s rest hprog ha hp he hx hc
  rw [refillBegin_silence s hsil] at hrun hread
  refine ⟨m, ?run, hread, hout⟩
  case run =>
    rw [refillEnd_counts _ rfl rfl] at hrun
    rw [ha]
    exact hrun

/-- Settles O37: the run of `refill` live from ring frame POS on, ended by R184's accounting. -/
theorem wholeLiveRefill : Obligations.WholeLiveRefill := by
  intro s rest hprog ha hp he hx hsil hc hconf
  obtain ⟨m, hrun, hread, hout⟩ := cleanRun_refill s rest hprog ha hp he hx hc
  rw [refillBegin_live s hsil] at hrun hread
  refine ⟨m, ?run, hread, hout⟩
  case run =>
    rw [refillEnd_accounts] at hrun
    · rw [ha]
      exact hrun
    · rfl
    · exact hconf.periodNonzero

/-! ## Refills in a row (R175, R184) -/

/-- A total counted in two parts by a period: what is left of the first part is counted on in the second. -/
theorem div_add_div_of_mod (a b p : Nat) (hp : 0 < p) : a / p + (a % p + b) / p = (a + b) / p := by
  have h : a + b = (a % p + b) + p * (a / p) := by have := Nat.mod_add_div a p; omega
  rw [h, Nat.add_mul_div_left _ _ hp, Nat.add_comm]

/-- `t` is `s` after live refills that brought `frames` frames: POS and the period accounting in closed form, the ring, the
period and the mode as they were (R184). -/
structure LiveTotals (s t : State) (frames : Nat) : Prop where
  live : t.refillLive = true
  ring : t.actRingFrames = s.actRingFrames
  period : t.actPeriodFrames = s.actPeriodFrames
  pos : t.pos.toNat = (s.pos.toNat + frames) % s.actRingFrames.toNat
  acc : t.periodAcc.toNat = (s.periodAcc.toNat + frames) % s.actPeriodFrames.toNat
  log : t.notifyLog.length = s.notifyLog.length + (s.periodAcc.toNat + frames) / s.actPeriodFrames.toNat
  count : t.notifyCount = s.notifyCount + BitVec.ofNat 32 ((s.periodAcc.toNat + frames) / s.actPeriodFrames.toNat)

/-- No refill: POS lies in the ring and PERIOD_ACC in the period (10_state.md R33, R34). -/
theorem LiveTotals.zero (s : State) (hl : s.refillLive = true) (hconf : ActiveConfig s) : LiveTotals s s 0 where
  live := hl
  ring := rfl
  period := rfl
  pos := (Nat.mod_eq_of_lt hconf.posInRing).symm
  acc := (Nat.mod_eq_of_lt hconf.accInPeriod).symm
  log := by rw [Nat.add_zero, Nat.div_eq_of_lt hconf.accInPeriod, Nat.add_zero]
  count := by rw [Nat.add_zero, Nat.div_eq_of_lt hconf.accInPeriod, BitVec.add_zero]

/-- A remainder by a word is a word. -/
theorem toNat_ofNat_mod (n : Nat) (m : Word) (h : 0 < m.toNat) :
    (BitVec.ofNat 32 (n % m.toNat)).toNat = n % m.toNat := by
  rw [BitVec.toNat_ofNat, Nat.mod_eq_of_lt (Nat.lt_trans (Nat.mod_lt n h) m.isLt)]

/-- One more live REFILL_END brings 96 frames more (R184). -/
theorem LiveTotals.succ {s t : State} {frames : Nat} (hconf : ActiveConfig s) (h : LiveTotals s t frames) :
    LiveTotals s (refillEnd t) (frames + 96) := by
  have hring : 0 < t.actRingFrames.toNat := h.ring ▸ hconf.ringNonempty
  have hperiod : 0 < t.actPeriodFrames.toNat := h.period ▸ hconf.periodNonzero
  have htotal := div_add_div_of_mod (s.periodAcc.toNat + frames) 96 _ hconf.periodNonzero
  rw [refillEnd_live t h.live hperiod]
  constructor
  case live => exact h.live
  case ring => exact h.ring
  case period => exact h.period
  case pos => simp only [toNat_ofNat_mod _ _ hring]; rw [h.ring, h.pos, Nat.mod_add_mod, Nat.add_assoc]
  case acc => simp only [toNat_ofNat_mod _ _ hperiod]; rw [h.period, h.acc, Nat.mod_add_mod, Nat.add_assoc]
  case log =>
    simp only [List.length_append, List.length_replicate]
    rw [h.log, h.period, h.acc, Nat.add_assoc, htotal, Nat.add_assoc]
  case count =>
    dsimp only
    rw [h.count, h.period, h.acc, BitVec.add_assoc, ← BitVec.ofNat_add, htotal, Nat.add_assoc]

/-- THE TOTALS of `n` live refills, by induction on their number. -/
theorem liveTotals_repeat (n : Nat) (s : State) (hl : s.refillLive = true) (hconf : ActiveConfig s) :
    LiveTotals s (Nat.repeat refillEnd n s) (96 * n) := by
  induction n with
  | zero => exact .zero s hl hconf
  | succ n ih => exact ih.succ hconf

/-- Settles O38: what its totals say of POS, PERIOD_ACC and the notifications. -/
theorem notificationsAreExact : Obligations.NotificationsAreExact := by
  intro s n hl hconf
  obtain ⟨-, -, -, hpos, hacc, hlog, hcount⟩ := liveTotals_repeat n s hl hconf
  exact ⟨hpos, hacc, hlog, hcount⟩

/-- REFILL_BEGIN and REFILL_END of one refill, its slot steps left out: they change no count (R191). -/
def refillCounted (s : State) : State := refillEnd (refillBegin s)

/-- A silence refill counts SIL up once and leaves CONFIGURED (R180, R185). -/
theorem refillCounted_silence (s : State) (h : s.sil ≠ 0) :
    (refillCounted s).sil = silInc s.sil ∧ (refillCounted s).configured = s.configured := by
  rw [refillCounted, refillBegin_silence s h, refillEnd_counts _ rfl rfl]
  exact ⟨rfl, rfl⟩

theorem silInc_toNat (v : Word) (h : v.toNat < 4294967295) : (silInc v).toNat = v.toNat + 1 := by
  rw [silInc, if_pos h, BitVec.toNat_add]
  exact Nat.mod_eq_of_lt (by simp only [BitVec.toNat_ofNat]; omega)

/-- SIL after `n` silence refills from 1, while it does not wrap (R185). -/
theorem repeat_refillCounted_sil (n : Nat) (s : State) (hsil : s.sil = 1) (hconf : s.configured = true)
    (hn : n + 1 < 4294967296) :
    (Nat.repeat refillCounted n s).sil.toNat = n + 1 ∧ (Nat.repeat refillCounted n s).configured = true := by
  induction n with
  | zero => exact ⟨congrArg BitVec.toNat hsil, hconf⟩
  | succ n ih =>
    obtain ⟨hcount, hc⟩ := ih (by omega)
    have hne : (Nat.repeat refillCounted n s).sil ≠ 0 := fun h => by simp [h] at hcount
    obtain ⟨hnext, hsame⟩ := refillCounted_silence _ hne
    exact ⟨by rw [Nat.repeat, hnext, silInc_toNat _ (by omega), hcount], hsame.trans hc⟩

/-- A submission leaves SIL and SIL_CAPTURE. -/
theorem ensureTransfer_sil (s : State) :
    s.ensureTransfer.sil = s.sil ∧ s.ensureTransfer.silCapture = s.silCapture := by
  cases hx : s.xferActive with
  | true => rw [ensureTransfer_active s hx]; exact ⟨rfl, rfl⟩
  | false => rw [ensureTransfer_idle s hx, submitReported_frame]; exact ⟨rfl, rfl⟩

/-- Settles O39: START exchanges the count of the silence refills out (R174). -/
theorem startCapturesSilenceCount : Obligations.StartCapturesSilenceCount := by
  intro s n hsil hconf hn
  obtain ⟨hcount, hc⟩ := repeat_refillCounted_sil n s hsil hconf hn
  obtain ⟨hs, hcapture⟩ := ensureTransfer_sil (Nat.repeat refillCounted n s).begin
  exact ⟨_, exec_start_configured _ hc, (congrArg BitVec.toNat hcapture).trans hcount, hs⟩

/-! ## Emissions (R187 to R189) -/

/-- The boundary event of an emission, by DRAIN before it (R188). -/
theorem boundaryEvent_emitted (s : State) (frame : List Byte) (hd : s.drain < 192) :
    boundaryEvent (s.emitted frame) =
      if s.drain = 95 then exec (.halfConsumed 1536) (s.emitted frame)
      else if s.drain = 191 then exec (.halfConsumed 3072) (s.emitted frame)
      else .next (s.emitted frame) := by
  have h96 : (s.emitted frame).drain = 96 ↔ s.drain = 95 := show (s.drain + 1) % 192 = 96 ↔ _ by omega
  have h0 : (s.emitted frame).drain = 0 ↔ s.drain = 191 := show (s.drain + 1) % 192 = 0 ↔ _ by omega
  simp only [boundaryEvent, deliverEvent_halfConsumed, Config.halfFrames, h96, h0]
  rfl

/-- Settles O40: the three outcomes in the order the emission checks for them. -/
theorem emissionDrainsSlot : Obligations.EmissionDrainsSlot := by
  intro s hx hd
  refine ⟨emission_race s, fun hr hu => ?unwritten, fun frame hr hread => ?drained⟩
  case unwritten => exact emission_unwritten s hr ((read_eq_none s.outbuf (16 * s.drain) 16).mpr hu)
  case drained =>
    rw [emission_eq s frame hx hr hread, boundaryEvent_emitted s frame hd]
    rfl

/-- Settles O42: an event is latched only at DRAIN 95, the end of half 0, and at 191, the end of half 1. -/
theorem residueSelectsDrainedHalf : Obligations.ResidueSelectsDrainedHalf := by
  intro s t hd hno ht hevt
  obtain ⟨-, -, frame, -, hb⟩ := emission_next s t ht
  have hdrain : (s.emitted frame).drain = (s.drain + 1) % 192 := rfl
  rcases boundaryEvent_next _ _ hb with ⟨h96, -, rfl⟩ | ⟨h0, -, rfl⟩ | ⟨-, -, rfl⟩
  · rw [show s.drain = 95 by omega]; rfl
  · rw [show s.drain = 191 by omega]; rfl
  · exact absurd (hno.symm.trans hevt) Bool.false_ne_true

/-! ## A pending command is executed (R165, R167; 70_reset_and_hazards.md R251) -/

/-- A command is pending and SEQ takes `k` steps of the refill in progress before it. -/
def CommandAfter (k : Nat) (s : State) : Prop :=
  s.cmdPending = true ∧
    ((s.refillActive = false ∧ k = 0) ∨ (s.refillActive = true ∧ 0 < k ∧ s.refillSlot + k = 97))

/-- In every state of the invariant at most 97 steps of a refill are left. -/
theorem commandAfter_of_inv (s : State) (hs : Inv s) (hp : s.cmdPending = true) : ∃ k, k ≤ 97 ∧ CommandAfter k s := by
  have hslot : s.refillSlot ≤ 96 := hs.slot
  cases ha : s.refillActive with
  | false => exact ⟨0, Nat.zero_le _, hp, .inl ⟨ha, rfl⟩⟩
  | true => exact ⟨97 - s.refillSlot, Nat.sub_le _ _, hp, .inr ⟨ha, by omega, by omega⟩⟩

/-- A submission leaves the program. -/
theorem ensureTransfer_program (s : State) : s.ensureTransfer.program = s.program := by
  cases hx : s.xferActive with
  | true => rw [ensureTransfer_active s hx]
  | false => rw [ensureTransfer_idle s hx, submitReported_frame]

/-- Every command completes, and leaves the program. -/
theorem exec_command_completes (i : Instr) (s : State) (hport : portOf i = .cmd) :
    ∃ t, exec i s = .next t ∧ t.program = s.program := by
  cases i with
  | prepare =>
    rcases execPrepare_cases s with ⟨-, e⟩ | ⟨f, -, e⟩
    · exact ⟨_, e, rfl⟩
    · exact ⟨_, e, ensureTransfer_program (s.activate f)⟩
  | start =>
    cases hc : s.configured with
    | true => exact ⟨_, exec_start_configured s hc, ensureTransfer_program s.begin⟩
    | false => exact ⟨_, if_neg (by simp [hc]), rfl⟩
  | stop => exact ⟨_, execStop_eq s, rfl⟩
  | setCs | badcmd => exact ⟨_, rfl, rfl⟩
  | halfConsumed | submit | terminate => exact absurd hport (by simp [portOf])

/-- EXEC_CMD completes, whatever word is latched (R98, R167). -/
theorem execLatched_completes (s : State) :
    ∃ t, execLatched s = .next t ∧ t.program = s.program ∧ t.cmdPending = false := by
  obtain ⟨-, hport, -⟩ := (decodeWord_eq_ok_iff .cmd s.cmdLatch _).mp rfl
  obtain ⟨t, ht, hprog⟩ := exec_command_completes (decodeCmdWord s.cmdLatch) s hport
  exact ⟨t.clearCommand, by rw [execLatched, ht]; rfl, hprog, rfl⟩

/-- With no refill step left the next SEQ step executes the command. -/
theorem seqStep_commandAfter_zero (s : State) (h : CommandAfter 0 s) :
    ∃ t, seqStep [] s = .next t ∧ t.program = s.program ∧ t.cmdPending = false := by
  obtain ⟨hp, ⟨ha, -⟩ | ⟨-, hk, -⟩⟩ := h
  · rw [seqStep_execCmd [] s ha hp]
    exact execLatched_completes (s.landPcm [])
  · exact absurd hk (Nat.lt_irrefl 0)

/-- A SEQ step of the refill in progress brings the command one step nearer. -/
theorem seqStep_commandAfter_succ (k : Nat) (s : State) (h : CommandAfter (k + 1) s) :
    ∃ t, seqStep [] s = .next t ∧ t.program = s.program ∧ CommandAfter k t := by
  obtain ⟨hp, ⟨-, hk⟩ | ⟨ha, -, hslot⟩⟩ := h
  · exact absurd hk (Nat.succ_ne_zero k)
  · cases k with
    | zero =>
      refine ⟨_, seqStep_refillEnd [] s ha (by omega), ?_⟩
      rw [refillEnd_frame]
      exact ⟨rfl, hp, .inl ⟨rfl, rfl⟩⟩
    | succ k =>
      refine ⟨_, seqStep_refillSlot [] s ha (by omega), ?_⟩
      rw [refillSlotStep_frame]
      exact ⟨rfl, hp, .inr ⟨ha, Nat.succ_pos k, show s.refillSlot + 1 + (k + 1) = 97 by omega⟩⟩

/-- `seq` statements alone execute the command. -/
theorem cleanRun_seq_commandAfter (k : Nat) (s : State) (rest : List Stmt) (h : CommandAfter k s)
    (hprog : s.program = List.replicate (k + 1) (.seq []) ++ rest) :
    ∃ t, CleanRun (k + 1) s t ∧ t.cmdPending = false := by
  induction k generalizing s with
  | zero =>
    obtain ⟨t, ht, -, hdone⟩ := seqStep_commandAfter_zero { s with program := rest } h
    exact ⟨t, (cleanRun_succ 0 s t).mpr ⟨t, (step_seq s [] rest hprog).trans ht, rfl⟩, hdone⟩
  | succ k ih =>
    obtain ⟨u, hu, hprogu, hnear⟩ :=
      seqStep_commandAfter_succ k { s with program := List.replicate (k + 1) (.seq []) ++ rest } h
    obtain ⟨t, hrun, hdone⟩ := ih u hnear hprogu
    exact ⟨t, (cleanRun_succ (k + 1) s t).mpr ⟨u, (step_seq s [] _ hprog).trans hu, hrun⟩, hdone⟩

/-- A read of `wait` with the command pending and the SEQ step after it (30_encoding.md R108; log 24). -/
theorem cleanRun_wait_seq (s u : State) (rest : List Stmt) (hprog : s.program = .wait [] :: rest)
    (hp : s.cmdPending = true)
    (hu : seqStep [] { s.observe 0x004 s.statusWord with program := .wait [] :: rest } = .next u) : CleanRun 2 s u := by
  have hread : step s = .next { s.observe 0x004 s.statusWord with program := .seq [] :: .wait [] :: rest } := by
    rw [step_stmt s _ rest hprog, takeStatement, waitTurn_again [] { s with program := rest } hp]
    rfl
  exact (cleanRun_succ 1 s u).mpr ⟨_, hread, (cleanRun_succ 0 _ u).mpr ⟨u, (step_seq _ [] _ rfl).trans hu, rfl⟩⟩

/-- The last read of `wait` (30_encoding.md R108). -/
theorem cleanRun_wait_done (s : State) (rest : List Stmt) (hprog : s.program = .wait [] :: rest)
    (hp : s.cmdPending = false) :
    CleanRun 1 s { s.observe 0x004 s.statusWord with program := rest } := by
  refine (cleanRun_succ 0 s _).mpr ⟨_, ?_, rfl⟩
  rw [step_stmt s _ rest hprog, takeStatement, waitTurn_done [] { s with program := rest } hp]
  rfl

/-- The host loop `wait`, SEQ stepping between its reads, ends with the command executed. -/
theorem cleanRun_wait_commandAfter (k : Nat) (s : State) (rest : List Stmt) (h : CommandAfter k s)
    (hprog : s.program = .wait [] :: rest) :
    ∃ t, CleanRun (2 * (k + 1) + 1) s t ∧ t.program = rest ∧ t.cmdPending = false ∧
      t.reads.getLast? = some (0x004, t.statusWord) := by
  induction k generalizing s with
  | zero =>
    obtain ⟨u, hu, hprogu, hdone⟩ :=
      seqStep_commandAfter_zero { s.observe 0x004 s.statusWord with program := .wait [] :: rest } h
    exact ⟨{ u.observe 0x004 u.statusWord with program := rest },
      cleanRun_add 2 1 _ _ _ (cleanRun_wait_seq s u rest hprog h.1 hu) (cleanRun_wait_done u rest hprogu hdone),
      rfl, hdone, List.getLast?_concat⟩
  | succ k ih =>
    obtain ⟨u, hu, hprogu, hnear⟩ :=
      seqStep_commandAfter_succ k { s.observe 0x004 s.statusWord with program := .wait [] :: rest } h
    obtain ⟨t, hrun, hend⟩ := ih u hnear hprogu
    rw [show 2 * (k + 1 + 1) + 1 = 2 + (2 * (k + 1) + 1) by omega]
    exact ⟨t, cleanRun_add 2 _ _ _ _ (cleanRun_wait_seq s u rest hprog h.1 hu) hrun, hend⟩

/-- Settles O59: at most 97 steps of a refill go before the command. -/
theorem pendingCommandIsExecuted : Obligations.PendingCommandIsExecuted := by
  intro s rest hs hp
  obtain ⟨k, hk, hafter⟩ := commandAfter_of_inv s hs hp
  refine ⟨fun hprog => ?seq, fun hprog => ?wait⟩
  case seq =>
    have hsplit : s.program = List.replicate (k + 1) (.seq []) ++ (List.replicate (97 - k) (.seq []) ++ rest) := by
      rw [hprog, ← List.append_assoc, List.replicate_append_replicate, show k + 1 + (97 - k) = 98 by omega]
    obtain ⟨t, hrun, hdone⟩ := cleanRun_seq_commandAfter k s _ hafter hsplit
    exact ⟨k + 1, t, Nat.succ_le_succ hk, hrun, hdone⟩
  case wait =>
    obtain ⟨t, hrun, hend⟩ := cleanRun_wait_commandAfter k s rest hafter hprog
    exact ⟨2 * (k + 1) + 1, t, by omega, hrun, hend⟩

end Sys2Proof.Machine
end

section
/-!
PROOFS. Reset and hazards (70_reset_and_hazards.md): no frame of a stopped session is left in OUTBUF, a late refill ends in
EventOverrun, and the hardware reset.
-/

namespace Sys2Proof.Machine

/-! ## Sessions (R249) -/

/-- The state STOP leaves (43_buffer_controller.md R176). -/
def State.stopped (s : State) : State :=
  { s with
    xferActive := false, evtPending := false, sil := 1, lastResult := .ok,
    reqs := if s.xferActive then s.reqs ++ [0x20000000#32] else s.reqs }

theorem exec_stop (s : State) : exec .stop s = .next s.stopped := execStop_eq s

@[simp] theorem stopped_xferActive (s : State) : s.stopped.xferActive = false := rfl
@[simp] theorem stopped_validFormat (s : State) : s.stopped.validFormat = s.validFormat := rfl

/-- START over an idle transfer fills OUTBUF with silence and streams from POS 0 (43_buffer_controller.md R172, R174). -/
theorem exec_start_silences (s : State) (hconf : s.configured = true) (hx : s.xferActive = false)
    (hc : s.csCursor.toNat < 192) :
    ∃ u, exec .start s = .next u ∧ SilenceFilled u.outbuf s.actCs s.actVmask s.csCursor.toNat ∧ u.sil = 0 ∧ u.pos = 0 := by
  obtain ⟨m, hm, hfilled, -⟩ := ensureTransfer_idle_spec s.begin hx hc
  refine ⟨_, exec_start_configured s hconf, ?_⟩
  rw [hm]
  exact ⟨hfilled, rfl, rfl⟩

/-- PREPARE of a valid configuration over an idle transfer fills OUTBUF with silence (43_buffer_controller.md R171, R172). -/
theorem exec_prepare_silences (s : State) (f : Format) (hf : s.validFormat = some f) (hx : s.xferActive = false) :
    ∃ u, exec .prepare s = .next u ∧ SilenceFilled u.outbuf s.csStage s.cfgVmask 0 := by
  obtain ⟨m, hm, hfilled, -⟩ := ensureTransfer_idle_spec (s.activate f) hx (show 0 < 192 by decide)
  refine ⟨_, exec_prepare_valid s f hf, ?_⟩
  rw [hm]
  exact hfilled

/-- PREPARE under a running transfer, rejected or accepted, leaves OUTBUF (43_buffer_controller.md R173 (c)). -/
theorem exec_prepare_running_outbuf (s : State) (hx : s.xferActive = true) :
    ∃ u, exec .prepare s = .next u ∧ u.outbuf = s.outbuf := by
  rcases execPrepare_cases s with ⟨-, hrejected⟩ | ⟨f, -, haccepted⟩
  · exact ⟨_, hrejected, rfl⟩
  · exact ⟨_, haccepted, by rw [ensureTransfer_active (s.activate f) hx]; rfl⟩

/-- Settles O44: STOP ends the transfer and keeps the configuration, so the command after it submits and prefills. -/
theorem noSessionLeak : Obligations.NoSessionLeak := by
  intro s hc
  refine ⟨fun hconf => ?start, fun f hf => ?prepare, exec_prepare_running_outbuf s⟩
  case start =>
    obtain ⟨u, hu⟩ := exec_start_silences s.stopped hconf (stopped_xferActive s) hc
    exact ⟨_, u, exec_stop s, hu⟩
  case prepare =>
    obtain ⟨u, hu⟩ :=
      exec_prepare_silences s.stopped f ((stopped_validFormat s).trans hf) (stopped_xferActive s)
    exact ⟨_, u, exec_stop s, hu⟩

/-! ## Late refills (R244) -/

/-- Settles O41: both boundaries deliver HALF_CONSUMED, and the event latched before the emission is latched still. -/
theorem lateUnderrunOverruns : Obligations.LateUnderrunOverruns := by
  intro s frame hx hr hread hevt hd
  have hoverrun (r : BitVec 16) : exec (.halfConsumed r) (s.emitted frame) = .fault .eventOverrun :=
    (halfConsumedLatchesOrOverruns (s.emitted frame) r).2 hevt
  rw [emission_eq s frame hx hr hread, boundaryEvent_emitted s frame (by omega)]
  rcases hd with h95 | h191
  · rw [if_pos h95, hoverrun]
  · rw [if_neg (by omega), if_pos h191, hoverrun]

/-! ## The hardware reset (R235, R237) -/

/-- An emission over an OUTBUF never written, with no refill (20_memory.md R78). -/
theorem emission_outbuf_nil (s : State) (ha : s.refillActive = false) (hm : s.outbuf = []) :
    emission s = .fault .unwrittenRead :=
  emission_unwritten s (.inl ha) ((read_eq_none s.outbuf (16 * s.drain) 16).mpr ⟨0, by decide, by rw [hm, get_nil]⟩)

/-- The step of `rst` (log 15). -/
theorem step_rst (s : State) (rest : List Stmt) (h : s.program = .rst :: rest) :
    step s = .next { s.hardwareReset with program := rest } := step_stmt s .rst rest h

/-- Settles O55: after `rst` OUTBUF is empty and no refill runs, so the emission reads an unwritten byte. -/
theorem hardwareResetRestores : Obligations.HardwareResetRestores := by
  intro s rest hprog
  refine ⟨step_rst s rest hprog, ?_⟩
  rintro more rfl
  rw [runSteps_succ 1 s _ (step_rst s _ hprog), runSteps, step_stmt _ .emit more rfl, takeStatement,
    emission_outbuf_nil _ rfl rfl]
  rfl

end Sys2Proof.Machine
end
